-- ==== Sys2Proof/Word.lean ====
section
/-! DEFINITION. The byte and the register address, and nothing else
(spec/00_scope.md R8 `DATA_W`, `ADDR_W`; R11). -/

namespace Sys2Proof

/-- "All register values, frame bytes, masks, command codes and buffer entries are unsigned
bytes" (R11). -/
abbrev Byte := BitVec 8

/-- A register address, "a 6-bit identifier" (R8 `ADDR_W`, R30). -/
abbrev Addr := BitVec 6

end Sys2Proof
end

