-- ==== Sys2Proof/Config.lean ====
section
/-! DEFINITION. What an implementation fixes (spec/00_scope.md R9, R10) and what the
environment is free to choose (spec/20_memory.md R70, spec/40_bus_transport.md R122,
spec/44_scan_loop.md R221 to R226). -/

namespace Sys2Proof

/-- The parameters the source names without a value or leaves open (R9, R10).  They stand in
State, in a field that no step changes, so a statement about every state is a statement about
every value of them (notes/assumptions/1.md). -/
structure Params where
  aCommand : Addr
  aComIen : Addr
  aComIrq : Addr
  aError : Addr
  aFifoData : Addr
  aFifoLevel : Addr
  aControl : Addr
  aBitFraming : Addr
  aMode : Addr
  aTxControl : Addr
  aTMode : Addr
  aTPrescaler : Addr
  aTReloadH : Addr
  aTReloadL : Addr
  cmdIdle : Byte
  cmdAuthent : Byte
  cmdTransceive : Byte
  piccReqidl : Byte
  piccAnticoll : Byte
  startSend : Byte
  stOk : BitVec 2
  stNoTag : BitVec 2
  stError : BitVec 2
  /-- `INIT_WRITES`, R10 and spec/70_reset_and_hazards.md R284. -/
  initWrites : List (Addr × Byte)
  /-- `RECORD_UNKNOWN`, R10 and spec/44_scan_loop.md R219. -/
  recordUnknown : Bool
  deriving DecidableEq, Repr

/-- The defaults of R9 and R10.  PRESUMED (the spec marks them as general knowledge), unsafe for
a claim that rests on a number: notes/assumptions/1.md. -/
def Params.default : Params where
  aCommand := 0x01
  aComIen := 0x02
  aComIrq := 0x04
  aError := 0x06
  aFifoData := 0x09
  aFifoLevel := 0x0A
  aControl := 0x0C
  aBitFraming := 0x0D
  aMode := 0x11
  aTxControl := 0x14
  aTMode := 0x2A
  aTPrescaler := 0x2B
  aTReloadH := 0x2C
  aTReloadL := 0x2D
  cmdIdle := 0x00
  cmdAuthent := 0x0E
  cmdTransceive := 0x0C
  piccReqidl := 0x26
  piccAnticoll := 0x93
  startSend := 0x80
  stOk := 0
  stNoTag := 1
  stError := 2
  initWrites := []
  recordUnknown := true

/-- The fourteen named register addresses, in the order of R9. -/
def Params.addresses (p : Params) : List Addr :=
  [p.aCommand, p.aComIen, p.aComIrq, p.aError, p.aFifoData, p.aFifoLevel, p.aControl,
   p.aBitFraming, p.aMode, p.aTxControl, p.aTMode, p.aTPrescaler, p.aTReloadH, p.aTReloadL]

/-- "The three codes are pairwise distinct bytes" (R9). -/
abbrev Params.CodesDistinct (p : Params) : Prop :=
  p.cmdIdle ≠ p.cmdAuthent ∧ p.cmdIdle ≠ p.cmdTransceive ∧ p.cmdAuthent ≠ p.cmdTransceive

/-- "A single-bit mask that does not overlap `FRAMING_SHORT` (0x07)" (R9). -/
abbrev Params.StartSendOk (p : Params) : Prop :=
  p.startSend ≠ 0 ∧ p.startSend &&& (p.startSend - 1) = 0 ∧ p.startSend &&& 0x07 = 0

/-- The constraints of R9 on the parameters. -/
abbrev Params.Legal (p : Params) : Prop :=
  p.addresses.Nodup ∧ p.CodesDistinct ∧ p.StartSendOk ∧ [p.stOk, p.stNoTag, p.stError].Nodup

/-- An answer to `is_authorized` (spec/44_scan_loop.md R221, R226): true, false, a failure of
the call, or a call that never returns. -/
inductive AuthAnswer where
  | granted
  | denied
  | failed
  | never
  deriving DecidableEq, Repr, Inhabited

/-- How a call to the audit log, the registry or the actuator ends (R222 to R224, R226). -/
inductive CallAnswer where
  | done
  | failed
  | never
  deriving DecidableEq, Repr, Inhabited

/-- FREE VALUE (notes/assumptions/6.md, 7.md): whether the exchange drawn at this count fails
(spec/40_bus_transport.md R122). -/
opaque Config.busFails : Nat → Bool

/-- FREE VALUE (notes/assumptions/6.md): the byte received at a position of the exchange drawn
at this count (spec/20_memory.md R70, R78). -/
opaque Config.busByte : Nat → Nat → Byte

/-- FREE VALUE (notes/assumptions/24.md): whether the bus and the reset line can be opened at
this count (spec/70_reset_and_hazards.md R283). -/
opaque Config.handlesOpen : Nat → Bool

/-- FREE VALUE (notes/assumptions/11.md): the authorization answer drawn at this count. -/
opaque Config.authAnswer : Nat → AuthAnswer

/-- FREE VALUE (notes/assumptions/11.md): how the external call drawn at this count ends. -/
opaque Config.callAnswer : Nat → CallAnswer

end Sys2Proof
end

