-- ==== Sys2Proof/Syntax.lean ====
section
/-! DEFINITION. The instructions: one constructor per row of spec/opcode_table.json, and the
four formats they are written in (spec/30_encoding.md R90 to R100). -/

namespace Sys2Proof

/-- The encoded things of R90. -/
inductive Format where
  /-- An operation of the engine: code byte and operands (R100). -/
  | host8
  /-- A bus frame (R91, R92). -/
  | spi16
  /-- A chip command code (R95). -/
  | cmd8
  /-- A card command frame (R97, R98). -/
  | picc
  deriving DecidableEq, Repr

/-- A Card UID, "a 5-byte sequence (4 identifier bytes + 1 checksum byte)"
(spec/10_state.md R43). -/
structure Uid where
  b0 : Byte
  b1 : Byte
  b2 : Byte
  b3 : Byte
  b4 : Byte
  deriving DecidableEq, Repr

/-- The five bytes in buffer order (spec/20_memory.md R63). -/
def Uid.bytes (u : Uid) : List Byte := [u.b0, u.b1, u.b2, u.b3, u.b4]

/-- The instruction set: the 21 rows of spec/opcode_table.json, in its order.  What the first
seven do as instructions is notes/assumptions/4.md. -/
inductive Instr where
  /-- SPI_WRITE_FRAME, R91. -/
  | spiWriteFrame (addr : Addr) (value : Byte)
  /-- SPI_READ_FRAME, R92. -/
  | spiReadFrame (addr : Addr)
  /-- CMD_IDLE and "every byte other than CMD_AUTHENT and CMD_TRANSCEIVE" (R95, R102). -/
  | cmdIdle (code : Byte)
  /-- CMD_AUTHENT, R95. -/
  | cmdAuthent
  /-- CMD_TRANSCEIVE, R95. -/
  | cmdTransceive
  /-- PICC_REQUEST, R97. -/
  | piccRequest
  /-- PICC_ANTICOLL, R98. -/
  | piccAnticoll
  /-- TRANSFER, code 0x00. -/
  | transfer (bytes : List Byte)
  /-- RESET_WRITE, code 0x01. -/
  | resetWrite (level : Bool)
  /-- WRITE_REG, code 0x02. -/
  | writeReg (addr : Addr) (value : Byte)
  /-- READ_REG, code 0x03. -/
  | readReg (addr : Addr)
  /-- SET_BITS, code 0x04. -/
  | setBits (addr : Addr) (mask : Byte)
  /-- CLEAR_BITS, code 0x05. -/
  | clearBits (addr : Addr) (mask : Byte)
  /-- ANTENNA_ON, code 0x06. -/
  | antennaOn
  /-- TO_CARD, code 0x07. -/
  | toCard (cmd : Byte) (tx : List Byte)
  /-- REQUEST, code 0x08. -/
  | request (mode : Byte)
  /-- ANTICOLL, code 0x09. -/
  | anticoll
  /-- SELECT_TAG, code 0x0A. -/
  | selectTag (uid : Uid)
  /-- INIT, code 0x0B. -/
  | init
  /-- SHUTDOWN, code 0x0C. -/
  | shutdown
  /-- SCAN, code 0x0D. -/
  | scan
  deriving DecidableEq, Repr

/-- The format each row is written in (the "format" column of spec/opcode_table.json). -/
def Instr.format : Instr → Format
  | .spiWriteFrame _ _ => .spi16
  | .spiReadFrame _ => .spi16
  | .cmdIdle _ => .cmd8
  | .cmdAuthent => .cmd8
  | .cmdTransceive => .cmd8
  | .piccRequest => .picc
  | .piccAnticoll => .picc
  | .transfer _ => .host8
  | .resetWrite _ => .host8
  | .writeReg _ _ => .host8
  | .readReg _ => .host8
  | .setBits _ _ => .host8
  | .clearBits _ _ => .host8
  | .antennaOn => .host8
  | .toCard _ _ => .host8
  | .request _ => .host8
  | .anticoll => .host8
  | .selectTag _ => .host8
  | .init => .host8
  | .shutdown => .host8
  | .scan => .host8

end Sys2Proof
end

