-- ==== Sys2Proof/WellFormed.lean ====
section
/-! DEFINITION. Which instruction terms the encodings of spec/30_encoding.md can express. -/

namespace Sys2Proof

/-- The checks.  TO_CARD: at most 16 bytes (spec/42_command_engine.md R151).  TRANSFER: a length
that fits its one length byte (spec/30_encoding.md R100).  CMD_IDLE's row: a byte that is neither
of the other two codes (R95, R102).  Every other operand is exact by its type. -/
def Instr.wellFormed (p : Params) : Instr → Bool
  | .cmdIdle code => code != p.cmdAuthent && code != p.cmdTransceive
  | .transfer bytes => decide (bytes.length ≤ 255)
  | .toCard _ tx => decide (tx.length ≤ 16)
  | .spiWriteFrame _ _ => true
  | .spiReadFrame _ => true
  | .cmdAuthent => true
  | .cmdTransceive => true
  | .piccRequest => true
  | .piccAnticoll => true
  | .resetWrite _ => true
  | .writeReg _ _ => true
  | .readReg _ => true
  | .setBits _ _ => true
  | .clearBits _ _ => true
  | .antennaOn => true
  | .request _ => true
  | .anticoll => true
  | .selectTag _ => true
  | .init => true
  | .shutdown => true
  | .scan => true

end Sys2Proof
end

