-- ==== Sys2Proof/Decode.lean ====
section
/-! DEFINITION. Decoding: total on any bytes of a format, rejecting by name; then the encoder,
from the same tables (spec/30_encoding.md R90 to R102); then the host's table words. -/

namespace Sys2Proof

/-- Why bytes are no instruction. -/
inductive DecodeError where
  /-- No byte at all. -/
  | empty
  /-- HOST8 codes 0x0E to 0xFF: "unassigned: a model refuses them" (R102). -/
  | unassignedCode (code : Byte)
  /-- Fewer operand bytes than the operation takes (R100). -/
  | truncated
  /-- More bytes than the operation takes (R100). -/
  | trailing
  /-- RESET_WRITE's level byte is neither 0 nor 1 (notes/assumptions/15.md). -/
  | badLevel (level : Byte)
  /-- SELECT_TAG's sequence is not of five bytes (spec/10_state.md R43; notes/assumptions/15.md). -/
  | badUidLength (length : Nat)
  /-- A bus frame the engine never sends: a reserved bit set, or not two bytes (R102, R103). -/
  | badFrame
  /-- No chip command code: not exactly one byte (R90). -/
  | badCommand
  /-- Neither of the two card frames (R97, R98). -/
  | unknownCardFrame
  deriving DecidableEq, Repr

/-- A 6-bit address from its operand byte: "an out-of-range address given to WRITE_REG or READ_REG
is reduced modulo 64 rather than refused" (spec/20_memory.md R64). -/
def addrOfByte (b : Byte) : Addr := b.setWidth 6

/-- No operand. -/
def operandsNone (i : Instr) : List Byte → Except DecodeError Instr
  | [] => .ok i
  | _ => .error .trailing

/-- One operand byte. -/
def operandsOne (f : Byte → Except DecodeError Instr) : List Byte → Except DecodeError Instr
  | [] => .error .truncated
  | [a] => f a
  | _ => .error .trailing

/-- Two operand bytes. -/
def operandsTwo (f : Byte → Byte → Instr) : List Byte → Except DecodeError Instr
  | [a, b] => .ok (f a b)
  | _ :: _ :: _ => .error .trailing
  | _ => .error .truncated

/-- "A byte sequence is preceded by its length as one byte" (R100). -/
def operandsCounted (f : List Byte → Except DecodeError Instr) :
    List Byte → Except DecodeError Instr
  | [] => .error .truncated
  | k :: bytes =>
    if bytes.length = k.toNat then f bytes
    else if bytes.length < k.toNat then .error .truncated
    else .error .trailing

/-- TO_CARD's operands: the chip command code, then the send buffer. -/
def operandsToCard : List Byte → Except DecodeError Instr
  | [] => .error .truncated
  | c :: rest => operandsCounted (fun tx => .ok (.toCard c tx)) rest

/-- SELECT_TAG's operand, "a 5-byte sequence" (spec/10_state.md R43), its length byte read. -/
def uidOfSequence : List Byte → Except DecodeError Instr
  | [a, b, c, d, e] => .ok (.selectTag ⟨a, b, c, d, e⟩)
  | bytes => .error (.badUidLength bytes.length)

/-- RESET_WRITE's operand: "1 byte, 0 or 1". -/
def levelOfByte (b : Byte) : Except DecodeError Instr :=
  if b = 0 then .ok (.resetWrite false)
  else if b = 1 then .ok (.resetWrite true)
  else .error (.badLevel b)

/-- HOST8: the code byte, then the operands in the order listed (R100). -/
def decodeHost : List Byte → Except DecodeError Instr
  | [] => .error .empty
  | code :: ops =>
    match code.toNat with
    | 0x00 => operandsCounted (fun bytes => .ok (.transfer bytes)) ops
    | 0x01 => operandsOne levelOfByte ops
    | 0x02 => operandsTwo (fun a v => .writeReg (addrOfByte a) v) ops
    | 0x03 => operandsOne (fun a => .ok (.readReg (addrOfByte a))) ops
    | 0x04 => operandsTwo (fun a k => .setBits (addrOfByte a) k) ops
    | 0x05 => operandsTwo (fun a k => .clearBits (addrOfByte a) k) ops
    | 0x06 => operandsNone .antennaOn ops
    | 0x07 => operandsToCard ops
    | 0x08 => operandsOne (fun m => .ok (.request m)) ops
    | 0x09 => operandsNone .anticoll ops
    | 0x0A => operandsCounted uidOfSequence ops
    | 0x0B => operandsNone .init ops
    | 0x0C => operandsNone .shutdown ops
    | 0x0D => operandsNone .scan ops
    | _ => .error (.unassignedCode code)

/-- SPI16: byte 0 bit 7 is the direction, bits 6:1 the address, bit 0 is 0; a read frame's byte 1
is 0x00 (R91, R92, R94, R102). -/
def decodeSpi : List Byte → Except DecodeError Instr
  | [] => .error .empty
  | [b0, b1] =>
    if b0 &&& 0x81 = 0x00 then .ok (.spiWriteFrame (b0.extractLsb' 1 6) b1)
    else if b0 &&& 0x81 = 0x80 ∧ b1 = 0x00 then .ok (.spiReadFrame (b0.extractLsb' 1 6))
    else .error .badFrame
  | _ => .error .badFrame

/-- CMD8: equality of the whole byte; every byte is accepted (R95, R102). -/
def decodeCmd (p : Params) : List Byte → Except DecodeError Instr
  | [] => .error .empty
  | [b] =>
    if b = p.cmdAuthent then .ok .cmdAuthent
    else if b = p.cmdTransceive then .ok .cmdTransceive
    else .ok (.cmdIdle b)
  | _ => .error .badCommand

/-- PICC: the REQUEST frame and the ANTICOLLISION frame (R97, R98). -/
def decodePicc (p : Params) : List Byte → Except DecodeError Instr
  | [] => .error .empty
  | [b] => if b = p.piccReqidl then .ok .piccRequest else .error .unknownCardFrame
  | [b, nvb] =>
    if b = p.piccAnticoll ∧ nvb = 0x20 then .ok .piccAnticoll else .error .unknownCardFrame
  | _ => .error .unknownCardFrame

/-- The instruction that bytes of a format encode. -/
def decode (p : Params) : Format → List Byte → Except DecodeError Instr
  | .host8, bytes => decodeHost bytes
  | .spi16, bytes => decodeSpi bytes
  | .cmd8, bytes => decodeCmd p bytes
  | .picc, bytes => decodePicc p bytes

/-- `abyte_w(addr) = (addr << 1) & 0x7E` (R93). -/
def addressByteWrite (addr : Addr) : Byte := (addr.setWidth 8 <<< 1) &&& 0x7E

/-- `abyte_r(addr) = ((addr << 1) & 0x7E) | 0x80` (R93). -/
def addressByteRead (addr : Addr) : Byte := ((addr.setWidth 8 <<< 1) &&& 0x7E) ||| 0x80

/-- The bytes of an instruction in its own format. -/
def encode (p : Params) : Instr → List Byte
  | .spiWriteFrame addr value => [addressByteWrite addr, value]
  | .spiReadFrame addr => [addressByteRead addr, 0x00]
  | .cmdIdle code => [code]
  | .cmdAuthent => [p.cmdAuthent]
  | .cmdTransceive => [p.cmdTransceive]
  | .piccRequest => [p.piccReqidl]
  | .piccAnticoll => [p.piccAnticoll, 0x20]
  | .transfer bytes => 0x00 :: BitVec.ofNat 8 bytes.length :: bytes
  | .resetWrite level => [0x01, if level then 1 else 0]
  | .writeReg addr value => [0x02, addr.setWidth 8, value]
  | .readReg addr => [0x03, addr.setWidth 8]
  | .setBits addr mask => [0x04, addr.setWidth 8, mask]
  | .clearBits addr mask => [0x05, addr.setWidth 8, mask]
  | .antennaOn => [0x06]
  | .toCard cmd tx => 0x07 :: cmd :: BitVec.ofNat 8 tx.length :: tx
  | .request mode => [0x08, mode]
  | .anticoll => [0x09]
  | .selectTag uid => 0x0A :: 0x05 :: uid.bytes
  | .init => [0x0B]
  | .shutdown => [0x0C]
  | .scan => [0x0D]

/-- What follows a HOST8 code when every operand is zero: an empty sequence takes its length byte
alone, SELECT_TAG's sequence the length byte 5 that its five bytes require (R100;
notes/assumptions/5.md). -/
def zeroOperands (code : Byte) : List Byte :=
  match code.toNat with
  | 0x00 => [0]
  | 0x01 => [0]
  | 0x02 => [0, 0]
  | 0x03 => [0]
  | 0x04 => [0, 0]
  | 0x05 => [0, 0]
  | 0x07 => [0, 0]
  | 0x08 => [0]
  | 0x0A => [5, 0, 0, 0, 0, 0]
  | _ => []

/-- The format and bytes that a word of spec/opcode_table.json lays out, with operand bytes of
zeros.  One byte is a HOST8 code where it is one, else the REQUEST card frame, else a chip command
code; two bytes are the ANTICOLLISION card frame or a bus frame, byte 0 being bits 15:8.  The order
between formats whose words coincide is notes/assumptions/5.md. -/
def tableBytes (nbits w : Nat) : Format × List Byte :=
  if nbits = 8 then
    let b : Byte := BitVec.ofNat 8 w
    if w < 0x0E then (.host8, b :: zeroOperands b)
    else if b = Params.default.piccReqidl then (.picc, [b])
    else (.cmd8, [b])
  else if nbits = 16 then
    let bytes : List Byte := [BitVec.ofNat 8 (w / 256), BitVec.ofNat 8 w]
    if bytes = [Params.default.piccAnticoll, 0x20] then (.picc, bytes) else (.spi16, bytes)
  else (.host8, [])

/-- The instruction the decoder reads from a word of spec/opcode_table.json. -/
def decodeTableWord (nbits w : Nat) : Option Instr :=
  match decode Params.default (tableBytes nbits w).1 (tableBytes nbits w).2 with
  | .ok i => some i
  | .error _ => none

end Sys2Proof
end

