-- ==== Sys2Proof/Machine/State.lean ====
section
/-! DEFINITION. The state of the engine (spec/10_state.md), the environment's answers as plain
data, why a step can stop, and the state after power-on (R46). -/

namespace Sys2Proof.Machine

/-- The level the engine drives on the reset line (R24). -/
inductive RstLevel where
  | low
  | high
  | released
  deriving DecidableEq, Repr

/-- "status ∈ {OK, NO_TAG, ERROR}" (R22); its number is a parameter (spec/30_encoding.md R101). -/
inductive Status where
  | ok
  | noTag
  | error
  deriving DecidableEq, Repr

/-- The causes of spec/60_exceptions.md R241, in the order of their codes 0 to 8. -/
inductive Cause where
  | none
  | transportError
  | protocolTimeout
  | checksumError
  | frameLengthError
  | externalServiceError
  | readerErrorBits
  | noTag
  | resetLow
  deriving DecidableEq, Repr

/-- The sequencer phases of R26. -/
inductive Phase where
  | idle
  | arm
  | load
  | start
  | poll
  | stop
  | check
  | len
  | drain
  | done
  deriving DecidableEq, Repr

/-- The scan states of R27. -/
inductive ScanState where
  | idleScan
  | cardDetected
  | uidResolved
  | authorized
  | denied
  | shutdown
  deriving DecidableEq, Repr

/-- A UID string as its characters (spec/44_scan_loop.md R214; notes/assumptions/21.md). -/
abbrev UidText := List Char

/-- The observable events (spec/00_scope.md R16). -/
inductive Event where
  /-- `BUS(tx, rx)`: one exchange. -/
  | bus (tx rx : List Byte)
  /-- `RST(level)`. -/
  | rst (level : Bool)
  /-- `RSTREL`. -/
  | rstRel
  /-- `BUSOPEN`. -/
  | busOpen
  /-- `BUSCLOSE`. -/
  | busClose
  /-- `AUTHQ(s, r)`. -/
  | authQ (text : UidText) (answer : Bool)
  /-- `AUDIT(s, b)`. -/
  | audit (text : UidText) (authorized : Bool)
  /-- `UNKNOWN(s)`. -/
  | unknown (text : UidText)
  /-- `OUT(b)`. -/
  | out (level : Bool)
  /-- `OUTREL`. -/
  | outRel
  deriving DecidableEq, Repr

/-- Why the engine turns an operation away, with no bus activity and no change of its state
(notes/assumptions/8.md). -/
inductive Denial where
  /-- `open` = 0: only INIT is admitted (spec/70_reset_and_hazards.md R280). -/
  | notOpen
  /-- "In FAULT every operation is refused" (spec/60_exceptions.md R246). -/
  | inFault
  /-- INIT with `open` = 1 (spec/70_reset_and_hazards.md R282). -/
  | alreadyOpen
  /-- TO_CARD with more than 16 bytes (spec/42_command_engine.md R151). -/
  | bufferTooLong
  deriving DecidableEq, Repr

/-- What the last operation gave back to the host: the results column of spec/30_encoding.md R100.
The model's own output (notes/assumptions/25.md). -/
inductive Ret where
  /-- No result. -/
  | nothing
  /-- TRANSFER's received sequence. -/
  | bytes (rx : List Byte)
  /-- READ_REG's value. -/
  | byte (value : Byte)
  /-- TO_CARD's status, response bytes and bit length. -/
  | result (status : Status) (resp : List Byte) (bitlen : BitVec 12)
  /-- REQUEST's and SELECT_TAG's status. -/
  | status (status : Status)
  /-- ANTICOLL's status, with the UID on success alone. -/
  | statusUid (status : Status) (uid : Option Uid)
  /-- The operation entered FAULT: no result is valid (spec/60_exceptions.md R246). -/
  | faulted (cause : Cause)
  /-- The operation was turned away. -/
  | denied (why : Denial)
  deriving DecidableEq, Repr

/-- Where the answers to bus exchanges come from (notes/assumptions/6.md). -/
inductive Bus where
  /-- The scripted bus of spec/20_memory.md R71: reads consume the list, writes consume nothing. -/
  | script (reads : List Byte)
  /-- The oracle of R70: the answers to the next exchanges, `none` being a failed exchange
  (spec/40_bus_transport.md R122), and free values once the list is used up. -/
  | oracle (answers : List (Option (List Byte)))
  deriving DecidableEq, Repr

/-- The environment's answers, in the order they will be asked for; `draws` counts the free values
drawn once a list is used up.  The model's own state (notes/assumptions/6.md, 11.md, 24.md). -/
structure Env where
  bus : Bus
  /-- Whether INIT can open both handles (spec/70_reset_and_hazards.md R283). -/
  opens : List Bool
  /-- Answers to `is_authorized` (spec/44_scan_loop.md R221). -/
  auths : List AuthAnswer
  /-- Ends of the calls to the audit log, the registry and the actuator (R222 to R224). -/
  calls : List CallAnswer
  draws : Nat
  deriving DecidableEq, Repr

/-- An operation the host has handed over: a format of spec/30_encoding.md R90 and its bytes. -/
structure Request where
  fmt : Format
  bytes : List Byte
  deriving DecidableEq, Repr

/-- The state: the engine's registers and buffers (spec/10_state.md R20 to R29, R43), the trace
(spec/00_scope.md R16), the parameters (R9, R10), and the model's own input and output fields. -/
structure State where
  /-- Parameters: constant. -/
  cfg : Params
  /-- `open` (R24). -/
  isOpen : Bool
  /-- `rst` (R24). -/
  rst : RstLevel
  /-- `fault` (R24). -/
  fault : Bool
  /-- `cmd` (R21). -/
  cmd : Byte
  /-- `irq_en` (R21). -/
  irqEn : Byte
  /-- `wait_irq` (R21). -/
  waitIrq : Byte
  /-- `cnt` (R21). -/
  cnt : BitVec 11
  /-- `irq` (R21). -/
  irq : Byte
  /-- `err` (R21). -/
  err : Byte
  /-- `n` (R21). -/
  n : Byte
  /-- `last_bits` (R21). -/
  lastBits : BitVec 3
  /-- `m` (R21). -/
  m : BitVec 5
  /-- `i` (R21). -/
  i : BitVec 5
  /-- `status` (R22). -/
  status : Status
  /-- `resp_len` (R22). -/
  respLen : BitVec 5
  /-- `bitlen`, two's complement (R22). -/
  bitlen : BitVec 12
  /-- `cause` (R23). -/
  cause : Cause
  /-- `pc` (R26). -/
  pc : Phase
  /-- `scan` (R27). -/
  scan : ScanState
  /-- `cancel` (R29). -/
  cancel : Bool
  /-- `tx` (R43). -/
  tx : Vector Byte 16
  /-- `tx_len` (R43). -/
  txLen : BitVec 5
  /-- `resp` (R43). -/
  resp : Vector Byte 16
  /-- `uid` (R43). -/
  uid : Uid
  /-- The observable trace, oldest event first. -/
  trace : List Event
  /-- SCAN has been entered and has not returned (notes/assumptions/9.md). -/
  scanning : Bool
  /-- An external call that never returns is in progress (notes/assumptions/11.md). -/
  stalled : Bool
  /-- Operations handed over and not yet begun, oldest first (notes/assumptions/3.md). -/
  requests : List Request
  /-- Steps until the termination request arrives, `none` for never (notes/assumptions/10.md). -/
  termIn : Option Nat
  /-- What the last operation gave back (notes/assumptions/25.md). -/
  ret : Ret
  /-- What the environment will answer (notes/assumptions/6.md). -/
  env : Env
  deriving DecidableEq, Repr

/-- Why a step stops with a fault. -/
inductive Fault where
  /-- Raised by step alone, when the engine is in FAULT and no operation is waiting: "A model treats
  FAULT as a fault in the modelling guide's sense" (spec/60_exceptions.md R246).  Safe: the run
  stops (notes/assumptions/7.md). -/
  | engineInFault (cause : Cause)
  /-- Raised by step alone, when an external call will never return: "leaves the engine in its
  current state for ever" (spec/44_scan_loop.md R226).  Safe: the run stops
  (notes/assumptions/11.md). -/
  | externalCallNeverReturns
  deriving DecidableEq, Repr

/-- Why a step has no meaning. -/
inductive Refusal where
  /-- An instruction without a meaning yet; raised by exec's arms alone, by none of them now.
  Safe. -/
  | notModelled (mnemonic : String)
  /-- The bytes handed over are no instruction; raised by step.  Safe: the run stops
  (spec/30_encoding.md R102; notes/assumptions/15.md). -/
  | undecodable (why : DecodeError)
  deriving DecidableEq, Repr

/-- The power-on state (R46).  Registers and buffer entries that R46 leaves unspecified are zero
(DESIGN CHOICE, unsafe: notes/assumptions/2.md); the parameters take their defaults (PRESUMED,
unsafe: notes/assumptions/1.md); no operation is waiting and every answer of the environment to an
exchange, to INIT's opening and to an external call is free (DESIGN CHOICE, safe:
notes/assumptions/3.md, 6.md).  The termination request, which may "arrive at any time"
(spec/44_scan_loop.md R225; spec/60_exceptions.md R255), is no such free answer: `termIn := none`
fixes that in the run from here it never comes, unless the field is set from outside (DESIGN CHOICE,
unsafe: notes/assumptions/10.md). -/
def State.reset : State where
  cfg := Params.default
  isOpen := false
  rst := .released
  fault := false
  cmd := 0
  irqEn := 0
  waitIrq := 0
  cnt := 0
  irq := 0
  err := 0
  n := 0
  lastBits := 0
  m := 0
  i := 0
  status := .error
  respLen := 0
  bitlen := 0
  cause := .none
  pc := .idle
  scan := .idleScan
  cancel := false
  tx := Vector.replicate 16 0
  txLen := 0
  resp := Vector.replicate 16 0
  uid := ⟨0, 0, 0, 0, 0⟩
  trace := []
  scanning := false
  stalled := false
  requests := []
  termIn := none
  ret := .nothing
  env := { bus := .oracle [], opens := [], auths := [], calls := [], draws := 0 }

end Sys2Proof.Machine
end

