-- ==== Sys2Proof/Machine/Operands.lean ====
section
/-! DEFINITION. The operands of the operations: bus frames, masks, buffers, and what the host
reads (spec/00_scope.md R8, R11, R12; spec/30_encoding.md R91 to R101). -/

namespace Sys2Proof.Machine

/-- The write frame `[(addr<<1)&0x7E, value]` (spec/30_encoding.md R91). -/
def writeFrame (addr : Addr) (value : Byte) : List Byte := [addressByteWrite addr, value]

/-- The read frame `[((addr<<1)&0x7E)|0x80, 0]` (spec/30_encoding.md R92). -/
def readFrame (addr : Addr) : List Byte := [addressByteRead addr, 0x00]

/-- "The second received byte" (spec/20_memory.md R61); a received sequence has the length of the
one sent (spec/40_bus_transport.md R120), so the default is not used. -/
def secondByte (rx : List Byte) : Byte := rx.getD 1 0

/-- SET_BITS' value, OR with the mask (spec/41_register_access.md R132). -/
def orMask (v mask : Byte) : Byte := v ||| mask

/-- CLEAR_BITS' value, AND-NOT with the mask (spec/41_register_access.md R133). -/
def andNotMask (v mask : Byte) : Byte := v &&& ~~~mask

/-- The interrupt-enable mask of a chip command (spec/42_command_engine.md R152). -/
def enableMask (p : Params) (cmd : Byte) : Byte :=
  if cmd = p.cmdAuthent then 0x12 else if cmd = p.cmdTransceive then 0x77 else 0x00

/-- The wait mask of a chip command (spec/42_command_engine.md R152). -/
def waitMask (p : Params) (cmd : Byte) : Byte :=
  if cmd = p.cmdAuthent then 0x10 else if cmd = p.cmdTransceive then 0x30 else 0x00

/-- `IEN_TOP`, ORed into the interrupt-enable value (spec/00_scope.md R8). -/
def ienTop : Byte := 0x80

/-- `IRQ_TOP` (spec/00_scope.md R8). -/
def irqTop : Byte := 0x80

/-- `FIFO_FLUSH` (spec/00_scope.md R8). -/
def fifoFlush : Byte := 0x80

/-- `FRAMING_SHORT` (spec/00_scope.md R8). -/
def framingShort : Byte := 0x07

/-- `FRAMING_FULL` (spec/00_scope.md R8). -/
def framingFull : Byte := 0x00

/-- `NVB_ANTICOLL` (spec/00_scope.md R8). -/
def nvbAnticoll : Byte := 0x20

/-- `ANT_MASK` (spec/00_scope.md R8). -/
def antMask : Byte := 0x03

/-- `POLL_INIT` (spec/00_scope.md R8). -/
def pollInit : Nat := 2000

/-- `FIFO_CAP` (spec/00_scope.md R8). -/
def fifoCap : Nat := 16

/-- A sequence written into a buffer from an entry on; entries past the sixteenth do not exist
(spec/10_state.md R43). -/
def fillFrom (v : Vector Byte 16) : Nat → List Byte → Vector Byte 16
  | _, [] => v
  | j, b :: bytes => fillFrom (v.setIfInBounds j b) (j + 1) bytes

/-- The valid entries of a buffer (spec/10_state.md R43). -/
def validBytes (v : Vector Byte 16) (len : BitVec 5) : List Byte := v.toList.take len.toNat

/-- The send buffer's valid entries. -/
def State.txBytes (s : State) : List Byte := validBytes s.tx s.txLen

/-- The response buffer's valid entries. -/
def State.respBytes (s : State) : List Byte := validBytes s.resp s.respLen

/-- The first five entries of the response as a Card UID (spec/43_card_protocol.md R193). -/
def uidOfResp (v : Vector Byte 16) : Uid := ⟨v[0], v[1], v[2], v[3], v[4]⟩

/-- The numeric code of a status, a parameter (spec/30_encoding.md R101). -/
def statusCode (p : Params) : Status → BitVec 2
  | .ok => p.stOk
  | .noTag => p.stNoTag
  | .error => p.stError

/-- The numeric code of a cause (spec/60_exceptions.md R241). -/
def causeCode : Cause → BitVec 4
  | .none => 0
  | .transportError => 1
  | .protocolTimeout => 2
  | .checksumError => 3
  | .frameLengthError => 4
  | .externalServiceError => 5
  | .readerErrorBits => 6
  | .noTag => 7
  | .resetLow => 8

/-- "The host reads `status`, `resp_len`, `bitlen`, `resp`, `uid`, `cause`, `fault` and `scan` as
the outputs of an operation" (spec/10_state.md R25). -/
structure Outputs where
  status : BitVec 2
  respLen : BitVec 5
  bitlen : BitVec 12
  resp : List Byte
  uid : List Byte
  cause : BitVec 4
  fault : Bool
  scan : ScanState
  deriving DecidableEq, Repr

/-- What the host reads in a state (spec/10_state.md R25). -/
def outputsOf (s : State) : Outputs where
  status := statusCode s.cfg s.status
  respLen := s.respLen
  bitlen := s.bitlen
  resp := s.respBytes
  uid := s.uid.bytes
  cause := causeCode s.cause
  fault := s.fault
  scan := s.scan

end Sys2Proof.Machine
end

