-- ==== Sys2Proof/Machine/Flags.lean ====
section
/-! DEFINITION. Every condition the engine tests and every number it computes
(spec/10_state.md R28; spec/42_command_engine.md R159 to R172; spec/43_card_protocol.md R191 to
R194; spec/44_scan_loop.md R214). -/

namespace Sys2Proof.Machine

/-- What ends the poll loop after a read: the counter at zero, the timer bit 0x01, or any bit of
the wait mask (spec/42_command_engine.md R159). -/
def pollStops (count : Nat) (irq wait : Byte) : Bool :=
  count == 0 || irq &&& 0x01 != 0 || irq &&& wait != 0

/-- "`ok <- (x[err] & 0x1B) = 0`" (spec/42_command_engine.md R163). -/
def errorClear (err : Byte) : Bool := err &&& 0x1B == 0

/-- The NO_TAG test, `irq & irq_en & 0x01 != 0` (spec/42_command_engine.md R165). -/
def timerSeen (irq irqEn : Byte) : Bool := irq &&& irqEn &&& 0x01 != 0

/-- "Last byte valid bits": the control register's low three bits
(spec/42_command_engine.md R167). -/
def lastBitsOf (control : Byte) : BitVec 3 := control.setWidth 3

/-- `(n-1)*8 + lastBits` if `lastBits != 0`, else `n*8`, on integers, before the clamp
(spec/42_command_engine.md R168). -/
def bitLength (n : Byte) (lastBits : BitVec 3) : Int :=
  if lastBits = 0 then (n.toNat : Int) * 8 else ((n.toNat : Int) - 1) * 8 + lastBits.toNat

/-- The bit length as its register holds it, 12-bit two's complement (spec/00_scope.md R13). -/
def bitLengthReg (n : Byte) (lastBits : BitVec 3) : BitVec 12 :=
  BitVec.ofInt 12 (bitLength n lastBits)

/-- `clamp(n, lo, hi)` (spec/00_scope.md R13). -/
def clamp (n lo hi : Nat) : Nat := if n < lo then lo else if n > hi then hi else n

/-- The number of bytes drained, `clamp(n, 1, 16)` (spec/42_command_engine.md R169). -/
def drainCount (n : Byte) : Nat := clamp n.toNat 1 fifoCap

/-- The checksum `bcc(a, b, c, d) = a ^ b ^ c ^ d` (spec/43_card_protocol.md R194). -/
def bcc (a b c d : Byte) : Byte := a ^^^ b ^^^ c ^^^ d

/-- "Valid only if the XOR of the first 4 bytes equals the 5th" (spec/43_card_protocol.md R194). -/
def uidValid (u : Uid) : Bool := bcc u.b0 u.b1 u.b2 u.b3 == u.b4

/-- REQUEST's success: engine status OK and exactly 16 bits (spec/43_card_protocol.md R191). -/
def requestOk (st : Status) (bitlen : BitVec 12) : Bool := st == .ok && bitlen == 16

/-- ANTICOLL's verdict on an OK answer: the length first, then the checksum
(spec/43_card_protocol.md R193). -/
inductive Verdict where
  | badLength
  | badChecksum
  | valid
  deriving DecidableEq, Repr

/-- The verdict on a response of a length and its first five bytes (R193). -/
def anticollVerdict (respLen : BitVec 5) (u : Uid) : Verdict :=
  if respLen ≠ 5 then .badLength else if uidValid u then .valid else .badChecksum

/-- Whether the antenna's two bits are both set (spec/41_register_access.md R134). -/
def antennaIsOn (v : Byte) : Bool := v &&& antMask == antMask

/-- `dec(b)`: the decimal numeral, no sign, no leading zeros (spec/44_scan_loop.md R214). -/
def dec (b : Byte) : UidText := Nat.toDigits 10 b.toNat

/-- The UID string: five decimal numerals joined by single commas (spec/44_scan_loop.md R214). -/
def uidString (u : Uid) : UidText :=
  dec u.b0 ++ ',' :: dec u.b1 ++ ',' :: dec u.b2 ++ ',' :: dec u.b3 ++ ',' :: dec u.b4

end Sys2Proof.Machine
end

