-- ==== Sys2Proof/Machine/Ops.lean ====
section
/-! DEFINITION. The named operations: updates of the state, what the environment answers, one
bus exchange, a register write and read, entering FAULT, and how an operation runs
(spec/20_memory.md R60 to R78; spec/40_bus_transport.md; spec/41_register_access.md;
spec/60_exceptions.md R240 to R250). -/

namespace Sys2Proof.Machine

/-! ### Updates of the state -/

/-- `emit e` (spec/00_scope.md R16). -/
def State.emit (s : State) (e : Event) : State := { s with trace := s.trace ++ [e] }

/-- The environment after it has answered. -/
def State.withEnv (s : State) (e : Env) : State := { s with env := e }

/-- What the host is given back. -/
def State.withRet (s : State) (r : Ret) : State := { s with ret := r }

/-- ENTERING FAULT, for TransportError and ResetLow alike: the cause is recorded, `fault` is set,
and SCAN, if running, ends without its shutdown actions; every other register stays as it is
(spec/60_exceptions.md R241, R246, R250).  There is no return from it (R260). -/
def State.enterFault (s : State) (c : Cause) : State :=
  { s with cause := c, fault := true, scanning := false }

/-- An external call that never returns (spec/44_scan_loop.md R226). -/
def State.stall (s : State) : State := { s with stalled := true }

/-- `pc <- phase` (spec/10_state.md R26). -/
def State.setPhase (s : State) (p : Phase) : State := { s with pc := p }

/-- The loop index (spec/10_state.md R21; notes/assumptions/13.md). -/
def State.setIndex (s : State) (k : BitVec 5) : State := { s with i := k }

/-- TO_CARD's operand in the send buffer (spec/10_state.md R43). -/
def State.loadTx (s : State) (bytes : List Byte) : State :=
  { s with tx := fillFrom s.tx 0 bytes, txLen := BitVec.ofNat 5 bytes.length }

/-- A fresh result and the masks of the command (spec/42_command_engine.md R152, R153). -/
def State.beginCommand (s : State) (c : Byte) : State :=
  { s with cmd := c, status := .error, respLen := 0, bitlen := 0, cause := .none,
           irqEn := enableMask s.cfg c, waitIrq := waitMask s.cfg c }

/-- The poll counter (spec/42_command_engine.md R158). -/
def State.setCount (s : State) (k : Nat) : State := { s with cnt := BitVec.ofNat 11 k }

/-- A poll read and the decremented counter (spec/42_command_engine.md R159). -/
def State.polled (s : State) (v : Byte) (k : Nat) : State :=
  { s with irq := v, cnt := BitVec.ofNat 11 k }

/-- The value of the error register (spec/42_command_engine.md R163). -/
def State.setErr (s : State) (v : Byte) : State := { s with err := v }

/-- `x[status] <- st`. -/
def State.setStatus (s : State) (st : Status) : State := { s with status := st }

/-- `x[cause] <- c`. -/
def State.setCause (s : State) (c : Cause) : State := { s with cause := c }

/-- The value of the FIFO level register (spec/42_command_engine.md R167). -/
def State.setLevel (s : State) (v : Byte) : State := { s with n := v }

/-- Last bits, bit length and drain count from the control register and the level
(spec/42_command_engine.md R167 to R169). -/
def State.measure (s : State) (control : Byte) : State :=
  { s with lastBits := lastBitsOf control, bitlen := bitLengthReg s.n (lastBitsOf control),
           m := BitVec.ofNat 5 (drainCount s.n) }

/-- One drained byte at the index, which moves on (spec/42_command_engine.md R170). -/
def State.pushResp (s : State) (v : Byte) : State :=
  { s with resp := s.resp.setIfInBounds s.i.toNat v, i := s.i + 1 }

/-- `x[resp_len] <- x[m]` (spec/42_command_engine.md R170). -/
def State.closeResp (s : State) : State := { s with respLen := s.m }

/-- The validated UID (spec/43_card_protocol.md R193). -/
def State.setUid (s : State) (u : Uid) : State := { s with uid := u }

/-- `x[scan] <- state` (spec/10_state.md R27). -/
def State.setScan (s : State) (c : ScanState) : State := { s with scan := c }

/-- SCAN entered or returned (spec/44_scan_loop.md R227; notes/assumptions/9.md). -/
def State.setScanning (s : State) (b : Bool) : State := { s with scanning := b }

/-- `x[rst] <- level` (spec/40_bus_transport.md R121). -/
def State.setRst (s : State) (r : RstLevel) : State := { s with rst := r }

/-- `x[open] <- b` (spec/10_state.md R24). -/
def State.setOpen (s : State) (b : Bool) : State := { s with isOpen := b }

/-! ### What the environment answers -/

/-- A listed answer brought to the length of the exchange (spec/40_bus_transport.md R120). -/
def fitLength (k : Nat) (rx : List Byte) : List Byte := (rx ++ List.replicate k 0).take k

/-- A frame whose byte 0 has the read flag (spec/30_encoding.md R94). -/
def isReadFrame : List Byte → Bool
  | [b0, _] => b0.msb
  | _ => false

/-- The answer to one exchange and the environment after it: by the script of
spec/20_memory.md R71, or by the oracle of R70, where an exchange may also fail
(spec/40_bus_transport.md R122; notes/assumptions/6.md). -/
def Env.exchange (e : Env) (tx : List Byte) : Option (List Byte) × Env :=
  match e.bus with
  | .script reads =>
    if isReadFrame tx then
      match reads with
      | [] => (some [0, 0], e)
      | b :: rest => (some [0, b], { e with bus := .script rest })
    else (some (List.replicate tx.length 0), e)
  | .oracle (a :: rest) => (a.map (fitLength tx.length), { e with bus := .oracle rest })
  | .oracle [] =>
    (if Config.busFails e.draws then none
     else some ((List.range tx.length).map (Config.busByte e.draws)),
     { e with draws := e.draws + 1 })

/-- Whether INIT can open both handles (spec/70_reset_and_hazards.md R283). -/
def Env.nextOpen (e : Env) : Bool × Env :=
  match e.opens with
  | b :: rest => (b, { e with opens := rest })
  | [] => (Config.handlesOpen e.draws, { e with draws := e.draws + 1 })

/-- The authorization oracle's answer (spec/44_scan_loop.md R221). -/
def Env.nextAuth (e : Env) : AuthAnswer × Env :=
  match e.auths with
  | a :: rest => (a, { e with auths := rest })
  | [] => (Config.authAnswer e.draws, { e with draws := e.draws + 1 })

/-- How the next call to the audit log, the registry or the actuator ends
(spec/44_scan_loop.md R222 to R224). -/
def Env.nextCall (e : Env) : CallAnswer × Env :=
  match e.calls with
  | a :: rest => (a, { e with calls := rest })
  | [] => (Config.callAnswer e.draws, { e with draws := e.draws + 1 })

/-! ### Operations -/

/-- Why an operation stops before its end: it entered FAULT (spec/60_exceptions.md R246), or an
external call never returns (spec/44_scan_loop.md R226). -/
inductive Halt where
  | fault
  | stalled
  deriving DecidableEq, Repr

/-- An operation: it yields a value and the state after it, or stops in a state.  Nothing of it
happens after the point where it stops (spec/60_exceptions.md R259). -/
abbrev Op := EStateM Halt State

/-- The state as it stands. -/
def current : Op State := fun s => .ok s s

/-- A change of registers. -/
def update (f : State → State) : Op Unit := fun s => .ok () (f s)

/-- `raise` for TransportError and ResetLow (spec/00_scope.md R15). -/
def raise (c : Cause) : Op Unit := fun s => .error .fault (s.enterFault c)

/-- One bus exchange; a failed one is a TransportError (spec/40_bus_transport.md R120, R122). -/
def xfer (tx : List Byte) : Op (List Byte) := fun s =>
  match s.env.exchange tx with
  | (some rx, e) => .ok rx ((s.withEnv e).emit (.bus tx rx))
  | (none, e) => .error .fault ((s.withEnv e).enterFault .transportError)

/-- A register transaction: the frame is sent only while the reset line is driven high
(spec/41_register_access.md R135; spec/60_exceptions.md R250). -/
def registerXfer (tx : List Byte) : Op (List Byte) := fun s =>
  if s.rst = .high then xfer tx s else .error .fault (s.enterFault .resetLow)

/-- `MemWrite(addr, 1, value)` (spec/41_register_access.md R130). -/
def writeReg (addr : Addr) (value : Byte) : Op Unit := do
  let _ ← registerXfer (writeFrame addr value)
  pure ()

/-- `MemRead(addr, 1)` (spec/41_register_access.md R131). -/
def readReg (addr : Addr) : Op Byte := do
  let rx ← registerXfer (readFrame addr)
  pure (secondByte rx)

/-- Read, then write with the masked bits set (spec/41_register_access.md R132). -/
def setBits (addr : Addr) (mask : Byte) : Op Unit := do
  let v ← readReg addr
  writeReg addr (orMask v mask)

/-- Read, then write with the masked bits cleared (spec/41_register_access.md R133). -/
def clearBits (addr : Addr) (mask : Byte) : Op Unit := do
  let v ← readReg addr
  writeReg addr (andNotMask v mask)

/-- One read; a write of the same value with both antenna bits set, unless both read as set
(spec/41_register_access.md R134). -/
def antennaOn : Op Unit := do
  let s ← current
  let v ← readReg s.cfg.aTxControl
  if antennaIsOn v then pure () else writeReg s.cfg.aTxControl (orMask v antMask)

/-- Drive the reset line (spec/40_bus_transport.md R121). -/
def resetLine (level : Bool) : Op Unit :=
  update fun s => (s.setRst (if level then .high else .low)).emit (.rst level)

/-- What SHUTDOWN does to the handle: bus closed, then line released
(spec/70_reset_and_hazards.md R285). -/
def State.closeHandle (s : State) : State :=
  (((s.setOpen false).emit .busClose).setRst .released).emit .rstRel

/-! ### How an operation runs -/

/-- Admission of every operation but INIT: not in FAULT, and with the handle open
(spec/41_register_access.md R135; spec/60_exceptions.md R246; spec/70_reset_and_hazards.md
R280). -/
def State.admission (s : State) : Option Denial :=
  if s.fault then some .inFault else if s.isOpen then none else some .notOpen

/-- Admission of INIT (spec/70_reset_and_hazards.md R282). -/
def State.initAdmission (s : State) : Option Denial :=
  if s.fault then some .inFault else if s.isOpen then some .alreadyOpen else none

/-- The state an operation leaves: its result is given back, or the cause it entered FAULT with. -/
def settle : EStateM.Result Halt State Ret → State
  | .ok r s => s.withRet r
  | .error .fault s => s.withRet (.faulted s.cause)
  | .error .stalled s => s

/-- An operation handed over by the host: turned away with no bus activity and no change of the
engine's state, or run (notes/assumptions/8.md). -/
def operate (x : Op Ret) (s : State) : Host.Outcome State Fault Refusal :=
  .next (match s.admission with
    | some why => s.withRet (.denied why)
    | none => settle (x s))

end Sys2Proof.Machine
end

