-- ==== Sys2Proof/Machine/Bus.lean ====
section
/-! DEFINITION. The meanings of the bus frames and of the Bus Transport operations
(spec/40_bus_transport.md R120, R121; spec/30_encoding.md R91, R92). -/

namespace Sys2Proof.Machine

/-- SPI_WRITE_FRAME: the register write transaction that sends this frame
(spec/41_register_access.md R130; notes/assumptions/4.md). -/
def execSpiWriteFrame (addr : Addr) (value : Byte) (s : State) :
    Host.Outcome State Fault Refusal :=
  operate (do writeReg addr value; pure .nothing) s

/-- SPI_READ_FRAME: the register read transaction that sends this frame; "result is received
byte 1" (spec/41_register_access.md R131; notes/assumptions/4.md). -/
def execSpiReadFrame (addr : Addr) (s : State) : Host.Outcome State Fault Refusal :=
  operate (do let v ← readReg addr; pure (.byte v)) s

/-- TRANSFER: one exchange of any length, whatever the reset line's level
(spec/40_bus_transport.md R120). -/
def execTransfer (bytes : List Byte) (s : State) : Host.Outcome State Fault Refusal :=
  operate (do let rx ← xfer bytes; pure (.bytes rx)) s

/-- RESET_WRITE (spec/40_bus_transport.md R121). -/
def execResetWrite (level : Bool) (s : State) : Host.Outcome State Fault Refusal :=
  operate (do resetLine level; pure .nothing) s

end Sys2Proof.Machine
end

