-- ==== Sys2Proof/Machine/Command.lean ====
section
/-! DEFINITION. The Command Engine: TO_CARD step by step, in the order of
spec/42_command_engine.md R173, and the chip command codes run through it. -/

namespace Sys2Proof.Machine

/-- Step 2, arm: enable, clear the top request bit, flush, IDLE (R154). -/
def toCardArm : Op Unit := do
  update (·.setPhase .arm)
  let s ← current
  writeReg s.cfg.aComIen (orMask s.irqEn ienTop)
  clearBits s.cfg.aComIrq irqTop
  setBits s.cfg.aFifoLevel fifoFlush
  writeReg s.cfg.aCommand s.cfg.cmdIdle

/-- The load loop: one FIFO write for each byte, in order (R155). -/
def loadBytes : List Byte → Op Unit
  | [] => pure ()
  | b :: rest => do
    let s ← current
    writeReg s.cfg.aFifoData b
    update fun t => t.setIndex (t.i + 1)
    loadBytes rest

/-- Step 3, load (R155). -/
def toCardLoad : Op Unit := do
  update (·.setPhase .load)
  update (·.setIndex 0)
  let s ← current
  loadBytes s.txBytes

/-- Step 4, start and, for TRANSCEIVE, start send (R156, R157). -/
def toCardStart : Op Unit := do
  update (·.setPhase .start)
  let s ← current
  writeReg s.cfg.aCommand s.cmd
  if s.cmd = s.cfg.cmdTransceive then setBits s.cfg.aBitFraming s.cfg.startSend else pure ()

/-- The poll loop with the counter at `k`: read, decrement, test (R159).  It is entered with the
counter at 2000, so the zero case is never reached (R160). -/
def pollLoop : Nat → Op Unit
  | 0 => pure ()
  | k + 1 => do
    let s ← current
    let v ← readReg s.cfg.aComIrq
    update (·.polled v k)
    if pollStops k v s.waitIrq then pure () else pollLoop k

/-- Step 5, poll (R158 to R160). -/
def toCardPoll : Op Unit := do
  update (·.setPhase .poll)
  update (·.setCount pollInit)
  pollLoop pollInit

/-- Step 6, stop: the start-send bit is cleared on every path (R161). -/
def toCardStop : Op Unit := do
  update (·.setPhase .stop)
  let s ← current
  clearBits s.cfg.aBitFraming s.cfg.startSend

/-- Step 7, level, last bits, bit length and clamp (R167 to R169). -/
def toCardLen : Op Unit := do
  update (·.setPhase .len)
  let s ← current
  let level ← readReg s.cfg.aFifoLevel
  update (·.setLevel level)
  let control ← readReg s.cfg.aControl
  update (·.measure control)

/-- The drain loop: one FIFO read for each byte (R170). -/
def drainBytes : Nat → Op Unit
  | 0 => pure ()
  | k + 1 => do
    let s ← current
    let v ← readReg s.cfg.aFifoData
    update (·.pushResp v)
    drainBytes k

/-- Step 7, drain (R170). -/
def toCardDrain : Op Unit := do
  update (·.setPhase .drain)
  update (·.setIndex 0)
  let s ← current
  drainBytes s.m.toNat
  update (·.closeResp)

/-- The status once the error bits are clear: OK, overridden by NO_TAG where the last poll value
shows the timer bit and the enable mask has it (R164, R165). -/
def State.judgeClear (s : State) : State :=
  if timerSeen s.irq s.irqEn then (s.setStatus .noTag).setCause .noTag else s.setStatus .ok

/-- Step 7 with the error bits clear: the status, then the response for TRANSCEIVE
(R164 to R166). -/
def toCardClear : Op Unit := do
  update (·.judgeClear)
  let s ← current
  if s.cmd = s.cfg.cmdTransceive then do
    toCardLen
    toCardDrain
  else pure ()

/-- Steps 7 and 8: the gate on the counter, the error check, the timeout
(R162, R163, R171, R172). -/
def toCardCheck : Op Unit := do
  update (·.setPhase .check)
  let s ← current
  if s.cnt = 0 then update (·.setCause .protocolTimeout)
  else do
    let v ← readReg s.cfg.aError
    update (·.setErr v)
    if errorClear v then toCardClear else update (·.setCause .readerErrorBits)

/-- The eight steps for a chip command, on the send buffer as it stands (R152 to R173). -/
def runCommand (cmd : Byte) : Op Unit := do
  update (·.beginCommand cmd)
  toCardArm
  toCardLoad
  toCardStart
  toCardPoll
  toCardStop
  toCardCheck
  update (·.setPhase .done)
  update (·.setPhase .idle)

/-- TO_CARD: the operand goes into the send buffer, then the eight steps (R150, R173). -/
def toCard (cmd : Byte) (tx : List Byte) : Op Unit := do
  update (·.loadTx tx)
  runCommand cmd

/-- "(x[status], x[resp][0 .. x[resp_len]-1], x[bitlen])" (R173). -/
def commandResult : Op Ret := do
  let s ← current
  pure (.result s.status s.respBytes s.bitlen)

/-- TO_CARD, with the buffer bound of R151. -/
def execToCard (cmd : Byte) (tx : List Byte) (s : State) : Host.Outcome State Fault Refusal :=
  if s.admission = none ∧ fifoCap < tx.length then .next (s.withRet (.denied .bufferTooLong))
  else operate (do toCard cmd tx; commandResult) s

/-- CMD_IDLE, and every other code but the next two: TO_CARD's steps for the code, on the send
buffer as it stands (R152; notes/assumptions/4.md). -/
def execCmdIdle (code : Byte) (s : State) : Host.Outcome State Fault Refusal :=
  operate (do runCommand code; commandResult) s

/-- CMD_AUTHENT (R152; notes/assumptions/4.md). -/
def execCmdAuthent (s : State) : Host.Outcome State Fault Refusal :=
  operate (do runCommand s.cfg.cmdAuthent; commandResult) s

/-- CMD_TRANSCEIVE (R152; notes/assumptions/4.md). -/
def execCmdTransceive (s : State) : Host.Outcome State Fault Refusal :=
  operate (do runCommand s.cfg.cmdTransceive; commandResult) s

end Sys2Proof.Machine
end

