-- ==== Sys2Proof/Machine/Card.lean ====
section
/-! DEFINITION. The Presence and Anticollision Protocol: REQUEST, ANTICOLL, SELECT_TAG and the
two card frames (spec/43_card_protocol.md R190 to R197). -/

namespace Sys2Proof.Machine

/-- The status rule of REQUEST (R191). -/
def State.judgeRequest (s : State) : State :=
  if requestOk s.status s.bitlen then s.setStatus .ok
  else if s.status = .ok then (s.setCause .frameLengthError).setStatus .error
  else s.setStatus .error

/-- REQUEST: short framing, TRANSCEIVE of the one-byte buffer, the status rule (R190). -/
def request (mode : Byte) : Op Status := do
  update (·.setCause .none)
  let s ← current
  writeReg s.cfg.aBitFraming framingShort
  toCard s.cfg.cmdTransceive [mode]
  update (·.judgeRequest)
  let t ← current
  pure t.status

/-- The validation of ANTICOLL; a status other than OK is passed through (R193). -/
def State.judgeAnticoll (s : State) : State :=
  if s.status = .ok then
    match anticollVerdict s.respLen (uidOfResp s.resp) with
    | .badLength => (s.setStatus .error).setCause .frameLengthError
    | .badChecksum => (s.setStatus .error).setCause .checksumError
    | .valid => (s.setStatus .ok).setUid (uidOfResp s.resp)
  else s

/-- ANTICOLL: full-byte framing, TRANSCEIVE of the two-byte frame, the validation (R192). -/
def anticoll : Op Status := do
  update (·.setCause .none)
  let s ← current
  writeReg s.cfg.aBitFraming framingFull
  toCard s.cfg.cmdTransceive [s.cfg.piccAnticoll, nvbAnticoll]
  update (·.judgeAnticoll)
  let t ← current
  pure t.status

/-- "`(x[status], x[uid])`", the UID on success alone (R192, R193). -/
def anticollResult (st : Status) : Op Ret := do
  let s ← current
  pure (.statusUid st (if st = .ok then some s.uid else none))

/-- REQUEST (R190). -/
def execRequest (mode : Byte) (s : State) : Host.Outcome State Fault Refusal :=
  operate (do let st ← request mode; pure (.status st)) s

/-- ANTICOLL (R192). -/
def execAnticoll (s : State) : Host.Outcome State Fault Refusal :=
  operate (do let st ← anticoll; anticollResult st) s

/-- SELECT_TAG: always OK; the operand is ignored (R195). -/
def execSelectTag (_uid : Uid) (s : State) : Host.Outcome State Fault Refusal :=
  operate (do update (fun t => (t.setStatus .ok).setCause .none); pure (.status .ok)) s

/-- PICC_REQUEST: REQUEST with the REQUEST-IDLE code (R190; spec/30_encoding.md R97;
notes/assumptions/4.md). -/
def execPiccRequest (s : State) : Host.Outcome State Fault Refusal :=
  operate (do let st ← request s.cfg.piccReqidl; pure (.status st)) s

/-- PICC_ANTICOLL: ANTICOLL (R192; spec/30_encoding.md R98; notes/assumptions/4.md). -/
def execPiccAnticoll (s : State) : Host.Outcome State Fault Refusal :=
  operate (do let st ← anticoll; anticollResult st) s

end Sys2Proof.Machine
end

