-- ==== Sys2Proof/Machine/Handle.lean ====
section
/-! DEFINITION. INIT and SHUTDOWN (spec/70_reset_and_hazards.md R280 to R287). -/

namespace Sys2Proof.Machine

/-- Opening both handles; a failure is a TransportError with `open` still 0 and no event
(R282, R283). -/
def openHandle : Op Unit := fun s =>
  match s.env.nextOpen with
  | (true, e) => .ok () (((s.withEnv e).setOpen true).emit .busOpen)
  | (false, e) => .error .fault ((s.withEnv e).enterFault .transportError)

/-- The register programme `INIT_WRITES`, in order (R284). -/
def writeAll : List (Addr × Byte) → Op Unit
  | [] => pure ()
  | (a, v) :: rest => do
    writeReg a v
    writeAll rest

/-- INIT's sequence (R282). -/
def initSequence : Op Ret := do
  openHandle
  resetLine true
  let s ← current
  writeAll s.cfg.initWrites
  antennaOn
  pure .nothing

/-- INIT: refused while open or in FAULT, else its sequence (R282, R283). -/
def execInit (s : State) : Host.Outcome State Fault Refusal :=
  .next (match s.initAdmission with
    | some why => s.withRet (.denied why)
    | none => settle (initSequence s))

/-- SHUTDOWN (R285; in FAULT it is refused as every operation is, spec/60_exceptions.md R246). -/
def execShutdown (s : State) : Host.Outcome State Fault Refusal :=
  operate (do update (·.closeHandle); pure .nothing) s

end Sys2Proof.Machine
end

