-- ==== Sys2Proof/Machine/Register.lean ====
section
/-! DEFINITION. The meanings of the Register Access Layer's operations
(spec/41_register_access.md R130 to R136). -/

namespace Sys2Proof.Machine

/-- WRITE_REG (R130). -/
def execWriteReg (addr : Addr) (value : Byte) (s : State) : Host.Outcome State Fault Refusal :=
  operate (do writeReg addr value; pure .nothing) s

/-- READ_REG (R131). -/
def execReadReg (addr : Addr) (s : State) : Host.Outcome State Fault Refusal :=
  operate (do let v ← readReg addr; pure (.byte v)) s

/-- SET_BITS (R132). -/
def execSetBits (addr : Addr) (mask : Byte) (s : State) : Host.Outcome State Fault Refusal :=
  operate (do setBits addr mask; pure .nothing) s

/-- CLEAR_BITS (R133). -/
def execClearBits (addr : Addr) (mask : Byte) (s : State) : Host.Outcome State Fault Refusal :=
  operate (do clearBits addr mask; pure .nothing) s

/-- ANTENNA_ON (R134). -/
def execAntennaOn (s : State) : Host.Outcome State Fault Refusal :=
  operate (do antennaOn; pure .nothing) s

end Sys2Proof.Machine
end

