-- ==== Sys2Proof/Machine/Scan.lean ====
section
/-! DEFINITION. SCAN: entering the loop, its blocks, and the calls on the external ports
(spec/44_scan_loop.md R210 to R229). -/

namespace Sys2Proof.Machine

/-- `Ext.is_authorized(s)` and its event: "treats any lookup failure as not authorized"
(R213, R221, R226). -/
def askAuthorized (text : UidText) : Op Bool := fun s =>
  match s.env.nextAuth with
  | (.granted, e) => .ok true ((s.withEnv e).emit (.authQ text true))
  | (.denied, e) => .ok false ((s.withEnv e).emit (.authQ text false))
  | (.failed, e) =>
    .ok false (((s.withEnv e).setCause .externalServiceError).emit (.authQ text false))
  | (.never, e) => .error .stalled ((s.withEnv e).stall)

/-- A call on another port and its event: a failure is ignored but for the cause
(R222 to R224, R226; spec/60_exceptions.md R247; notes/assumptions/28.md). -/
def callPort (ev : Event) : Op Unit := fun s =>
  match s.env.nextCall with
  | (.done, e) => .ok () ((s.withEnv e).emit ev)
  | (.failed, e) => .ok () (((s.withEnv e).setCause .externalServiceError).emit ev)
  | (.never, e) => .error .stalled ((s.withEnv e).stall)

/-- Entry to `SHUTDOWN`: the actuator line and the handle are released and SCAN returns (R217). -/
def State.endScan (s : State) : State :=
  ((((s.setScan .shutdown).emit .outRel).closeHandle).setScanning false).withRet .nothing

/-- `IDLE_SCAN` (R211, R218): the cancel flag, else REQUEST. -/
def blockIdleScan : Op Unit := do
  let s ← current
  if s.cancel then update (·.endScan)
  else do
    let st ← request s.cfg.piccReqidl
    update (·.setScan (if st = .ok then .cardDetected else .idleScan))

/-- `CARD_DETECTED` (R212): ANTICOLL. -/
def blockCardDetected : Op Unit := do
  let st ← anticoll
  update (·.setScan (if st = .ok then .uidResolved else .idleScan))

/-- `UID_RESOLVED` (R213): the authorization oracle. -/
def blockUidResolved : Op Unit := do
  let s ← current
  let a ← askAuthorized (uidString s.uid)
  update (·.setScan (if a then .authorized else .denied))

/-- `AUTHORIZED` (R215): the actuator on and off, then the audit log.  The string `s` that R213
formed is formed again from `uid`, which still holds the same bytes (DESIGN CHOICE:
notes/assumptions/29.md). -/
def blockAuthorized : Op Unit := do
  let s ← current
  callPort (.out true)
  callPort (.out false)
  callPort (.audit (uidString s.uid) true)
  update (·.setScan .idleScan)

/-- `DENIED` (R216): the audit log, then perhaps the registry.  The string is formed again from `uid`
(DESIGN CHOICE: notes/assumptions/29.md). -/
def blockDenied : Op Unit := do
  let s ← current
  callPort (.audit (uidString s.uid) false)
  if s.cfg.recordUnknown then callPort (.unknown (uidString s.uid)) else pure ()
  update (·.setScan .idleScan)

/-- `SHUTDOWN` (R217). -/
def blockShutdown : Op Unit := update (·.endScan)

/-- "Perform the block ... named by `x[scan]`" (R227). -/
def scanBlock (c : ScanState) : Op Unit :=
  match c with
  | .idleScan => blockIdleScan
  | .cardDetected => blockCardDetected
  | .uidResolved => blockUidResolved
  | .authorized => blockAuthorized
  | .denied => blockDenied
  | .shutdown => blockShutdown

/-- The state one block of a running SCAN leaves; a fault ends SCAN (R227, R228). -/
def scanStep (s : State) : State :=
  match scanBlock s.scan s with
  | .ok _ t => t
  | .error .fault t => t.withRet (.faulted t.cause)
  | .error .stalled t => t

/-- SCAN: `x[scan] <- IDLE_SCAN` and the loop is entered; its blocks are the machine's next steps
(R227; notes/assumptions/9.md). -/
def execScan (s : State) : Host.Outcome State Fault Refusal :=
  operate (do update (fun t => (t.setScan .idleScan).setScanning true); pure .nothing) s

end Sys2Proof.Machine
end

