-- ==== Sys2Proof/Machine/Dispatch.lean ====
section
/-! DEFINITION. One arm per instruction (spec/opcode_table.json). -/

namespace Sys2Proof.Machine

def exec (i : Instr) (s : State) : Host.Outcome State Fault Refusal :=
  match i with
  | .spiWriteFrame addr value => Sys2Proof.Machine.execSpiWriteFrame addr value s
  | .spiReadFrame addr => Sys2Proof.Machine.execSpiReadFrame addr s
  | .cmdIdle code => Sys2Proof.Machine.execCmdIdle code s
  | .cmdAuthent => Sys2Proof.Machine.execCmdAuthent s
  | .cmdTransceive => Sys2Proof.Machine.execCmdTransceive s
  | .piccRequest => Sys2Proof.Machine.execPiccRequest s
  | .piccAnticoll => Sys2Proof.Machine.execPiccAnticoll s
  | .transfer bytes => Sys2Proof.Machine.execTransfer bytes s
  | .resetWrite level => Sys2Proof.Machine.execResetWrite level s
  | .writeReg addr value => Sys2Proof.Machine.execWriteReg addr value s
  | .readReg addr => Sys2Proof.Machine.execReadReg addr s
  | .setBits addr mask => Sys2Proof.Machine.execSetBits addr mask s
  | .clearBits addr mask => Sys2Proof.Machine.execClearBits addr mask s
  | .antennaOn => Sys2Proof.Machine.execAntennaOn s
  | .toCard cmd tx => Sys2Proof.Machine.execToCard cmd tx s
  | .request mode => Sys2Proof.Machine.execRequest mode s
  | .anticoll => Sys2Proof.Machine.execAnticoll s
  | .selectTag uid => Sys2Proof.Machine.execSelectTag uid s
  | .init => Sys2Proof.Machine.execInit s
  | .shutdown => Sys2Proof.Machine.execShutdown s
  | .scan => Sys2Proof.Machine.execScan s

end Sys2Proof.Machine
end

