-- ==== Sys2Proof/Machine/Port.lean ====
section
/-! DEFINITION. The host's side: the termination request, and the operation handed over next
(spec/44_scan_loop.md R225; spec/30_encoding.md R90, R100; notes/assumptions/3.md, 10.md). -/

namespace Sys2Proof.Machine

/-- The termination request comes one step nearer; when it arrives, "its only effect is
`x[cancel] <- 1`" (spec/44_scan_loop.md R225). -/
def State.tick (s : State) : State :=
  match s.termIn with
  | none => s
  | some 0 => { s with cancel := true, termIn := none }
  | some (k + 1) => { s with termIn := some k }

/-- The state once an operation has been taken over. -/
def State.withRequests (s : State) (rs : List Request) : State := { s with requests := rs }

/-- The instruction a request encodes. -/
def decodeRequest (p : Params) (r : Request) : Except DecodeError Instr := decode p r.fmt r.bytes

/-- An idle engine with nothing handed over: it waits, or it is in FAULT for good
(spec/60_exceptions.md R246, R260; notes/assumptions/7.md). -/
def idleStep (s : State) : Host.Outcome State Fault Refusal :=
  if s.fault then .fault (.engineInFault s.cause) else .next s

/-- A request placed first, with no operation in progress. -/
def State.placeRequest (s : State) (r : Request) : State :=
  { s with requests := r :: s.requests, scanning := false, stalled := false }

end Sys2Proof.Machine
end

