-- ==== Sys2Proof/Machine/Step.lean ====
section
/-! DEFINITION. One step of the machine: the termination request comes nearer, then a running SCAN
performs its next block, or the next operation handed over is decoded and executed
(spec/44_scan_loop.md R225, R227; spec/60_exceptions.md R261; notes/assumptions/3.md). -/

namespace Sys2Proof.Machine

/-- What the engine does in one step, the termination request having been looked at. -/
def stepAfterTick (s : State) : Host.Outcome State Fault Refusal :=
  if s.stalled then .fault .externalCallNeverReturns
  else if s.scanning then .next (scanStep s)
  else
    match s.requests with
    | [] => idleStep s
    | r :: rest =>
      match decodeRequest s.cfg r with
      | .ok i => exec i (s.withRequests rest)
      | .error why => .refused (.undecodable why)

/-- One step. -/
def step (s : State) : Host.Outcome State Fault Refusal := stepAfterTick s.tick

/-- The table's word as the next operation handed over (notes/assumptions/3.md, 5.md). -/
def State.withFetchWord (s : State) (nbits w : Nat) : State :=
  s.placeRequest ⟨(tableBytes nbits w).1, (tableBytes nbits w).2⟩

end Sys2Proof.Machine
end

