-- ==== Sys2Proof/Safety.lean ====
section
/-! DEFINITION. What the statements speak of: when the engine accepts operations, what the
environment is assumed to do, the invariant of the machine, and the shapes of bus frames. -/

namespace Sys2Proof.Machine

/-- Every operation but INIT is admitted: outside FAULT, with the handle open
(spec/60_exceptions.md R263; spec/41_register_access.md R135). -/
abbrev State.Admitted (s : State) : Prop := s.fault = false ∧ s.isOpen = true

/-- Register transactions are sent: admitted, and the reset line driven high
(spec/41_register_access.md R135). -/
abbrev State.Ready (s : State) : Prop := s.fault = false ∧ s.isOpen = true ∧ s.rst = .high

/-- "No transport failure" as a premise (spec/40_bus_transport.md R122): no exchange to come
fails.  The scripted bus never fails (spec/20_memory.md R71). -/
def Env.NoFailure (e : Env) : Prop :=
  match e.bus with
  | .script _ => True
  | .oracle answers =>
    (∀ a ∈ answers, a.isSome = true) ∧ ∀ k, e.draws ≤ k → Config.busFails k = false

/-- The environment in which the next exchanges get these answers and the one after them fails
(spec/40_bus_transport.md R122; notes/assumptions/6.md). -/
def Env.failingAfter (e : Env) (answers : List (List Byte)) (rest : List (Option (List Byte))) :
    Env :=
  { e with bus := .oracle (answers.map some ++ none :: rest) }

/-- A run is safe while the engine is not in FAULT: "never a final state of a successful run"
(spec/60_exceptions.md R246). -/
def State.Successful (s : State) : Prop := s.fault = false

/-- An operation that entered FAULT after these events: the cause is recorded and given back, and
the handle and the line stay.  It says nothing of `status`, `resp`, `bitlen` and `uid`, which are
not valid then (spec/60_exceptions.md R246; notes/assumptions/30.md). -/
structure FaultedAfter (s t : State) (c : Cause) (events : List Event) : Prop where
  fault : t.fault = true
  cause : t.cause = c
  ret : t.ret = .faulted c
  scanning : t.scanning = false
  trace : t.trace = s.trace ++ events
  cfg : t.cfg = s.cfg
  isOpen : t.isOpen = s.isOpen
  rst : t.rst = s.rst
  scan : t.scan = s.scan
  cancel : t.cancel = s.cancel

/-- The number of times an event stands in a trace. -/
def eventCount (e : Event) (trace : List Event) : Nat := trace.countP (· == e)

/-- The invariant of the machine: the handle and the reset line go together, the registers stay in
the ranges of spec/10_state.md R21, R22, R26 and R43, FAULT is entered with one of its two causes,
and a running SCAN is one on an open handle outside FAULT. -/
structure State.Inv (s : State) : Prop where
  closedReleased : s.isOpen = false → s.rst = .released
  openDriven : s.isOpen = true → s.rst ≠ .released
  faultCause : s.fault = true → s.cause = .transportError ∨ s.cause = .resetLow
  scanningOpen : s.scanning = true → s.isOpen = true ∧ s.fault = false ∧ s.scan ≠ .shutdown
  stalledScanning : s.stalled = true → s.scanning = true
  phaseIdle : s.fault = false → s.pc = .idle
  cntBound : s.cnt.toNat ≤ 2000
  txLenBound : s.txLen.toNat ≤ 16
  respLenBound : s.respLen.toNat ≤ 16
  indexBound : s.i.toNat ≤ 16
  drainBound : s.m.toNat ≤ 16
  bitlenLow : -7 ≤ s.bitlen.toInt
  bitlenHigh : s.bitlen.toInt ≤ 2040
  opensAndCloses :
    eventCount .busOpen s.trace = eventCount .busClose s.trace + s.isOpen.toNat

/-- A frame the engine's own operations send: two bytes, byte 0 bit 0 clear, and byte 1 zero in a
read frame (spec/30_encoding.md R91, R92, R102, R103). -/
def EngineFrame (tx : List Byte) : Prop :=
  ∃ b0 b1 : Byte, tx = [b0, b1] ∧ b0.getLsbD 0 = false ∧ (b0.getLsbD 7 = true → b1 = 0)

/-- The frames sent in a stretch of the trace, in order. -/
def framesOf (events : List Event) : List (List Byte) :=
  events.filterMap fun e => match e with
    | .bus tx _ => some tx
    | _ => none

/-- A stretch of the trace made of exchanges alone. -/
def BusOnly (events : List Event) : Prop := ∀ e ∈ events, ∃ tx rx, e = .bus tx rx

/-- The instructions that run the Command Engine. -/
def runsCommand : Instr → Bool
  | .cmdIdle _ => true
  | .cmdAuthent => true
  | .cmdTransceive => true
  | .toCard _ _ => true
  | .request _ => true
  | .anticoll => true
  | .piccRequest => true
  | .piccAnticoll => true
  | _ => false

/-- The instructions of the Register Access Layer, bus frames among them. -/
def touchesRegister : Instr → Bool
  | .spiWriteFrame _ _ => true
  | .spiReadFrame _ => true
  | .writeReg _ _ => true
  | .readReg _ => true
  | .setBits _ _ => true
  | .clearBits _ _ => true
  | .antennaOn => true
  | _ => false

/-- The chip command that TO_CARD or a row of the CMD8 format runs. -/
def chipCommand (p : Params) : Instr → Option Byte
  | .toCard c _ => some c
  | .cmdIdle c => some c
  | .cmdAuthent => some p.cmdAuthent
  | .cmdTransceive => some p.cmdTransceive
  | _ => none

/-- The rows of the outcome table (spec/42_command_engine.md R177) for a chip command, read off
the registers it leaves. -/
def CommandOutcome (c : Byte) (t : State) : Prop :=
  (t.cnt = 0 ∧ t.status = .error ∧ t.respLen = 0 ∧ t.bitlen = 0 ∧ t.cause = .protocolTimeout) ∨
  (t.cnt ≠ 0 ∧ t.err &&& 0x1B ≠ 0 ∧
    t.status = .error ∧ t.respLen = 0 ∧ t.bitlen = 0 ∧ t.cause = .readerErrorBits) ∨
  (t.cnt ≠ 0 ∧ t.err &&& 0x1B = 0 ∧ c = t.cfg.cmdTransceive ∧
    ((t.irq &&& t.irqEn &&& 0x01 = 0 ∧ t.status = .ok ∧ t.cause = .none) ∨
      (t.irq &&& t.irqEn &&& 0x01 ≠ 0 ∧ t.status = .noTag ∧ t.cause = .noTag)) ∧
    t.respLen.toNat = max 1 (min t.n.toNat 16) ∧
    t.bitlen.toInt =
      (if t.lastBits = 0 then (t.n.toNat : Int) * 8
       else ((t.n.toNat : Int) - 1) * 8 + t.lastBits.toNat)) ∨
  (t.cnt ≠ 0 ∧ t.err &&& 0x1B = 0 ∧ c ≠ t.cfg.cmdTransceive ∧
    t.status = .ok ∧ t.respLen = 0 ∧ t.bitlen = 0 ∧ t.cause = .none)

/-- The operations of the host with an address operand, whose byte is reduced modulo 64
(spec/20_memory.md R64). -/
def hasAddressOperand : Instr → Bool
  | .writeReg _ _ => true
  | .readReg _ => true
  | .setBits _ _ => true
  | .clearBits _ _ => true
  | _ => false

/-- The number a sequence of decimal digits stands for. -/
def decimalValue (digits : List Char) : Nat :=
  digits.foldl (fun n ch => 10 * n + (ch.toNat - '0'.toNat)) 0

/-- "The decimal numeral of the unsigned byte", with no sign and no leading zeros
(spec/44_scan_loop.md R214). -/
structure IsNumeral (digits : List Char) (b : Byte) : Prop where
  nonempty : digits ≠ []
  onlyDigits : ∀ ch ∈ digits, '0' ≤ ch ∧ ch ≤ '9'
  value : decimalValue digits = b.toNat
  noLeadingZero : digits.head? = some '0' → digits = ['0']

/-! ### A command on the scripted bus (spec/20_memory.md R71)

The frames and the result of the eight steps of spec/42_command_engine.md R173 in closed form,
written from that rule and not from the model's operations. -/

/-- A write frame on the scripted bus. -/
def wrote (a : Addr) (v : Byte) : Event := .bus (writeFrame a v) [0, 0]

/-- A read frame that the scripted bus answers. -/
def gotByte (a : Addr) (v : Byte) : Event := .bus (readFrame a) [0, v]

/-- What a scripted chip answers to one command, each value where the command reads it. -/
structure ChipAnswers where
  /-- The interrupt-request register in step 2. -/
  comIrq : Byte
  /-- The FIFO level register in step 2. -/
  flush : Byte
  /-- The bit-framing register in step 4, read for TRANSCEIVE alone. -/
  framing : Byte
  /-- The polls that do not end the loop. -/
  before : List Byte
  /-- The poll that ends the loop. -/
  last : Byte
  /-- The bit-framing register in step 6. -/
  framingAfter : Byte
  /-- The error register. -/
  error : Byte
  /-- The FIFO level register in step 7. -/
  level : Byte
  /-- The control register. -/
  control : Byte
  /-- The FIFO data register in the drain. -/
  data : List Byte
  deriving DecidableEq, Repr

/-- The bits that end the poll loop: the timer bit, and the command's wait bits
(spec/42_command_engine.md R152, R159). -/
def stopBits (p : Params) (cmd : Byte) : Byte :=
  if cmd = p.cmdAuthent then 0x11 else if cmd = p.cmdTransceive then 0x31 else 0x01

/-- The value written to the interrupt-enable register: "0x92 for AUTHENT, 0xF7 for TRANSCEIVE, 0x80
for every other command" (spec/30_encoding.md R96). -/
def enableValue (p : Params) (cmd : Byte) : Byte :=
  if cmd = p.cmdAuthent then 0x92 else if cmd = p.cmdTransceive then 0xF7 else 0x80

/-- The last poll was the 2000th, so the counter is zero (R160, R162). -/
def ChipAnswers.timedOut (c : ChipAnswers) : Bool := c.before.length == 1999

/-- Not timed out, and the masked error bits clear (R162, R163). -/
def ChipAnswers.clear (c : ChipAnswers) : Bool := !c.timedOut && c.error &&& 0x1B == 0

/-- The response is drained (R166). -/
def ChipAnswers.drained (c : ChipAnswers) (p : Params) (cmd : Byte) : Bool :=
  c.clear && cmd == p.cmdTransceive

/-- The answers are those of one run of the command: the polls before the last show no stop bit, the
last shows one or is the 2000th, and a drain gets as many bytes as the level says, 1 to 16
(R159, R160, R169). -/
structure ChipAnswers.Fits (c : ChipAnswers) (p : Params) (cmd : Byte) : Prop where
  bound : c.before.length ≤ 1999
  goesOn : ∀ v ∈ c.before, v &&& stopBits p cmd = 0
  stops : c.timedOut = false → c.last &&& stopBits p cmd ≠ 0
  count : c.drained p cmd = true → c.data.length = max 1 (min c.level.toNat 16)

/-- The bytes the command reads, in order (R173). -/
def ChipAnswers.reads (c : ChipAnswers) (p : Params) (cmd : Byte) : List Byte :=
  [c.comIrq, c.flush] ++ (if cmd = p.cmdTransceive then [c.framing] else []) ++ c.before ++
    [c.last, c.framingAfter] ++ (if c.timedOut then [] else [c.error]) ++
    (if c.drained p cmd then [c.level, c.control] ++ c.data else [])

/-- The frames of the command with a send buffer, in order (R154 to R170, R173). -/
def ChipAnswers.events (c : ChipAnswers) (p : Params) (cmd : Byte) (tx : List Byte) : List Event :=
  [wrote p.aComIen (enableValue p cmd),
   gotByte p.aComIrq c.comIrq, wrote p.aComIrq (c.comIrq &&& 0x7F),
   gotByte p.aFifoLevel c.flush, wrote p.aFifoLevel (c.flush ||| 0x80),
   wrote p.aCommand p.cmdIdle] ++
  tx.map (wrote p.aFifoData) ++
  [wrote p.aCommand cmd] ++
  (if cmd = p.cmdTransceive then
    [gotByte p.aBitFraming c.framing, wrote p.aBitFraming (c.framing ||| p.startSend)] else []) ++
  (c.before ++ [c.last]).map (gotByte p.aComIrq) ++
  [gotByte p.aBitFraming c.framingAfter, wrote p.aBitFraming (c.framingAfter &&& ~~~p.startSend)] ++
  (if c.timedOut then [] else [gotByte p.aError c.error]) ++
  (if c.drained p cmd then
    [gotByte p.aFifoLevel c.level, gotByte p.aControl c.control] ++
      c.data.map (gotByte p.aFifoData) else [])

/-- The status of the command (R164, R165, R171, R172). -/
def ChipAnswers.status (c : ChipAnswers) (p : Params) (cmd : Byte) : Status :=
  if !c.clear then .error
  else if cmd = p.cmdTransceive ∧ c.last &&& 0x01 ≠ 0 then .noTag
  else .ok

/-- The cause of the command (R165, R171, R172). -/
def ChipAnswers.cause (c : ChipAnswers) (p : Params) (cmd : Byte) : Cause :=
  if c.timedOut then .protocolTimeout
  else if !c.clear then .readerErrorBits
  else if cmd = p.cmdTransceive ∧ c.last &&& 0x01 ≠ 0 then .noTag
  else .none

/-- The response bytes of the command (R166, R170). -/
def ChipAnswers.resp (c : ChipAnswers) (p : Params) (cmd : Byte) : List Byte :=
  if c.drained p cmd then c.data else []

/-- The bit length of the command (R166, R168). -/
def ChipAnswers.bitlen (c : ChipAnswers) (p : Params) (cmd : Byte) : Int :=
  if c.drained p cmd then
    if c.control &&& 0x07 = 0 then (c.level.toNat : Int) * 8
    else ((c.level.toNat : Int) - 1) * 8 + (c.control &&& 0x07).toNat
  else 0

/-- The bytes a command sends from the send buffer: TO_CARD's operand; the chip command rows take the
buffer as it stands (notes/assumptions/4.md). -/
def sendBytes (s : State) : Instr → List Byte
  | .toCard _ tx => tx
  | _ => s.txBytes

/-- The answers of a card to REQUEST that make it succeed: completion before the bound, no error
bit, no timer bit, two whole bytes (spec/43_card_protocol.md R191; the chip's error and timer bits by
spec/42_command_engine.md R163 to R165). -/
def ChipAnswers.sixteenBits (c : ChipAnswers) : Bool :=
  c.clear && c.last &&& 0x01 == 0 && c.level == 2 && c.control &&& 0x07 == 0

/-- The answers of a card to ANTICOLL that give this UID: completion before the bound, no error bit,
no timer bit, five bytes whose XOR is zero (spec/43_card_protocol.md R193, R194). -/
def ChipAnswers.GivesUid (c : ChipAnswers) (u : Uid) : Prop :=
  c.clear = true ∧ c.last &&& 0x01 = 0 ∧ c.data = u.bytes ∧
    u.b0 ^^^ u.b1 ^^^ u.b2 ^^^ u.b3 ^^^ u.b4 = 0

end Sys2Proof.Machine
end

