-- ==== Sys2Proof/Certificates/Slice0/Obligations.lean ====
section
/-! DEFINITION. The statements for the provers.  A docstring names the rule of spec/ that its
statement formalises, or the spec's own decision (D<n>) or the log entry it rests on. -/

open Sys2Proof Sys2Proof.Machine

/-! ### Power-on, encodings and decoding -/

/-- The power-on values (spec/10_state.md section 9; the spec's own decision D24), and what the host
reads of any state: the result registers, the valid response bytes, and the numbers of the status and
of the cause (spec/10_state.md section 3; spec/30_encoding.md section 3; spec/60_exceptions.md section
1: the numbers of the causes are the spec's own decision D8, those of the statuses the presumed
defaults of notes/assumptions/1.md; that the model's state holds names is notes/assumptions/22.md). -/
def Obligations.PowerOnAndHostOutputs : Prop :=
  (State.reset.isOpen = false ∧ State.reset.rst = .released ∧ State.reset.fault = false ∧
    State.reset.pc = .idle ∧ State.reset.scan = .idleScan ∧ State.reset.cancel = false ∧
    State.reset.status = .error ∧ State.reset.respLen = 0 ∧ State.reset.bitlen = 0 ∧
    State.reset.txLen = 0 ∧ State.reset.cause = .none) ∧
  (∀ s : State,
    (outputsOf s).respLen = s.respLen ∧ (outputsOf s).bitlen = s.bitlen ∧
    (outputsOf s).resp = s.resp.toList.take s.respLen.toNat ∧
    (outputsOf s).uid = [s.uid.b0, s.uid.b1, s.uid.b2, s.uid.b3, s.uid.b4] ∧
    (outputsOf s).fault = s.fault ∧ (outputsOf s).scan = s.scan ∧
    (s.status = .ok → (outputsOf s).status = s.cfg.stOk) ∧
    (s.status = .noTag → (outputsOf s).status = s.cfg.stNoTag) ∧
    (s.status = .error → (outputsOf s).status = s.cfg.stError) ∧
    (s.cause = .none → (outputsOf s).cause = 0) ∧
    (s.cause = .transportError → (outputsOf s).cause = 1) ∧
    (s.cause = .protocolTimeout → (outputsOf s).cause = 2) ∧
    (s.cause = .checksumError → (outputsOf s).cause = 3) ∧
    (s.cause = .frameLengthError → (outputsOf s).cause = 4) ∧
    (s.cause = .externalServiceError → (outputsOf s).cause = 5) ∧
    (s.cause = .readerErrorBits → (outputsOf s).cause = 6) ∧
    (s.cause = .noTag → (outputsOf s).cause = 7) ∧
    (s.cause = .resetLow → (outputsOf s).cause = 8)) ∧
  (∀ (p : Params) (a b : Status), p.Legal → statusCode p a = statusCode p b → a = b) ∧
  statusCode Params.default .ok = 0 ∧ statusCode Params.default .noTag = 1 ∧
  statusCode Params.default .error = 2

/-- R93: the address byte of a write and of a read. -/
def Obligations.AddressByteIsTwiceTheAddress : Prop :=
  ∀ addr : Addr,
    addressByteWrite addr = (addr.setWidth 8 <<< 1) &&& 0x7E ∧
    addressByteRead addr = ((addr.setWidth 8 <<< 1) &&& 0x7E) ||| 0x80 ∧
    (addressByteWrite addr).toNat = 2 * addr.toNat ∧
    (addressByteRead addr).toNat = 2 * addr.toNat + 128

/-- Where each field of a frame stands (spec/30_encoding.md section 1). -/
def Obligations.FrameFieldsStandWhereStated : Prop :=
  ∀ (addr : Addr) (value : Byte), ∃ w r : Byte,
    writeFrame addr value = [w, value] ∧ readFrame addr = [r, 0] ∧
    w.getLsbD 7 = false ∧ w.extractLsb' 1 6 = addr ∧ w.getLsbD 0 = false ∧
    r.getLsbD 7 = true ∧ r.extractLsb' 1 6 = addr ∧ r.getLsbD 0 = false

/-- Words written out from the encodings of spec/30_encoding.md (and its R100 examples) decode to
the instructions they stand for.  The bytes of the command codes and of the card frames (0x0E, 0x00,
0x0C, 0x26, 0x93) are theirs only under the presumed defaults of notes/assumptions/1.md; that a table
word without a format (the `decodeTableWord` clauses) is read in the one given here is the model's
choice of notes/assumptions/5.md. -/
def Obligations.WrittenOutWordsDecode : Prop :=
  decodeTableWord 16 0x1A07 = some (.spiWriteFrame 0x0D 0x07) ∧
  decodeTableWord 16 0x8800 = some (.spiReadFrame 0x04) ∧
  decodeTableWord 8 0x0E = some .cmdAuthent ∧
  decodeTableWord 8 0x26 = some .piccRequest ∧
  decodeTableWord 16 0x9320 = some .piccAnticoll ∧
  decodeTableWord 8 0x0B = some .init ∧
  decode Params.default .cmd8 [0x00] = .ok (.cmdIdle 0x00) ∧
  decode Params.default .cmd8 [0x0C] = .ok .cmdTransceive ∧
  decode Params.default .host8 [0x07, 0x0C, 0x01, 0x26] = .ok (.toCard 0x0C [0x26]) ∧
  decode Params.default .host8 [0x02, 0x0D, 0x07] = .ok (.writeReg 0x0D 0x07)

/-- Decode and encode agree: whatever the parameters, decoding the bytes of a well-formed
instruction in its own format gives it back with every operand (spec/30_encoding.md). -/
def Obligations.DecodeOfEncodeIsIdentity : Prop :=
  ∀ (p : Params) (i : Instr), p.CodesDistinct → i.wellFormed p = true →
    decode p i.format (encode p i) = .ok i

/-- The other direction: bytes that decode are the bytes of the instruction, in every format and for
every operation of the host but those with an address operand; of these the code byte and the length
are the same (an address operand is reduced modulo 64 there, spec/20_memory.md section 3).  That
missing, surplus and other level bytes do not decode is the model's choice
(notes/assumptions/15.md). -/
def Obligations.DecodedBytesAreTheEncoding : Prop :=
  ∀ (p : Params) (f : Format) (bytes : List Byte) (i : Instr), decode p f bytes = .ok i →
    i.format = f ∧ (encode p i).head? = bytes.head? ∧ (encode p i).length = bytes.length ∧
    (hasAddressOperand i = false → encode p i = bytes)

/-- HOST8 codes 0x0E to 0xFF have no instruction, and a step that meets one is refused
(spec/30_encoding.md section 4). -/
def Obligations.UnassignedCodesAreRefused : Prop :=
  ∀ (s : State) (code : Byte) (ops : List Byte) (rest : List Request),
    s.stalled = false → s.scanning = false → s.requests = ⟨.host8, code :: ops⟩ :: rest →
    0x0E ≤ code.toNat →
    step s = .refused (.undecodable (.unassignedCode code))

/-- An address operand byte is reduced modulo 64, so that the frame's address byte is
`(addr << 1) & 0x7E` of the whole byte (spec/20_memory.md section 3). -/
def Obligations.AddressOperandReducedModulo64 : Prop :=
  ∀ b v : Byte,
    decodeHost [0x02, b, v] = .ok (.writeReg (b.setWidth 6) v) ∧
    decodeHost [0x03, b] = .ok (.readReg (b.setWidth 6)) ∧
    decodeHost [0x04, b, v] = .ok (.setBits (b.setWidth 6) v) ∧
    decodeHost [0x05, b, v] = .ok (.clearBits (b.setWidth 6) v) ∧
    (b.setWidth 6).toNat = b.toNat % 64 ∧
    addressByteWrite (b.setWidth 6) = (b <<< 1) &&& 0x7E

/-! ### Steps -/

/-- A step with no SCAN running takes the next request, decodes it and executes it, the termination
request having come one step nearer (notes/assumptions/3.md, 10.md). -/
def Obligations.StepRunsDecodedInstruction : Prop :=
  ∀ (s : State) (r : Request) (rest : List Request) (i : Instr),
    s.stalled = false → s.scanning = false → s.requests = r :: rest →
    decode s.cfg r.fmt r.bytes = .ok i →
    step s = exec i (s.tick.withRequests rest)

/-- A step with a SCAN running performs the block its state names; a step with nothing to do leaves
the engine as it is, or reports FAULT (notes/assumptions/7.md, 9.md). -/
def Obligations.StepWithoutRequest : Prop :=
  ∀ s : State, s.stalled = false →
    (s.scanning = true → step s = .next (scanStep s.tick)) ∧
    (s.scanning = false → s.requests = [] → s.fault = false → step s = .next s.tick) ∧
    (s.scanning = false → s.requests = [] → s.fault = true →
      step s = .fault (.engineInFault s.cause))

/-- The termination request sets `cancel` when it arrives, and nothing else ever
(spec/44_scan_loop.md section 2; notes/assumptions/10.md). -/
def Obligations.TerminationRequestSetsCancelAlone : Prop :=
  ∀ s : State,
    (s.termIn = some 0 → s.tick = { s with cancel := true, termIn := none }) ∧
    (∀ k, s.termIn = some (k + 1) → s.tick = { s with termIn := some k }) ∧
    (s.termIn = none → s.tick = s)

/-! ### Bus transport -/

/-- TRANSFER: one exchange of equal length, the received bytes returned, `BUS(s, r)` emitted; or a
TransportError (spec/40_bus_transport.md, TRANSFER; decision D22 for the failure). -/
def Obligations.TransferExchangesBytes : Prop :=
  ∀ (s : State) (bytes : List Byte), s.Admitted →
    (∀ rx e, s.env.exchange bytes = (some rx, e) →
      rx.length = bytes.length ∧
      exec (.transfer bytes) s =
        .next (((s.withEnv e).emit (.bus bytes rx)).withRet (.bytes rx))) ∧
    (∀ e, s.env.exchange bytes = (none, e) →
      ∃ t, exec (.transfer bytes) s = .next t ∧ FaultedAfter s t .transportError [] ∧ t.env = e)

/-- RESET_WRITE drives the line and emits the event, whatever the line's level was
(spec/40_bus_transport.md, RESET_WRITE); not admitted, it is refused, a next state that differs in what
is given back alone (notes/assumptions/8.md); once it has driven the line low no register transaction
is made, and one that is tried enters FAULT (decision D23). -/
def Obligations.ResetWriteDrivesLine : Prop :=
  ∀ (s : State) (level : Bool),
    (s.Admitted →
      exec (.resetWrite level) s =
        .next ({ s with rst := (if level then .high else .low),
                        trace := s.trace ++ [.rst level], ret := .nothing })) ∧
    (¬ s.Admitted → ∃ why, exec (.resetWrite level) s = .next { s with ret := .denied why }) ∧
    (∀ t addr value, s.Admitted → exec (.resetWrite false) s = .next t →
      ∃ u v, exec (.writeReg addr value) t = .next u ∧ u.trace = t.trace ∧ u.fault = true ∧
        exec (.readReg addr) t = .next v ∧ v.trace = t.trace ∧ v.fault = true)

/-! ### Register access -/

/-- WRITE_REG sends its two-byte frame, ignores what comes back, and changes no engine register
(spec/41_register_access.md, WRITE_REG); a failed exchange is a TransportError, a line not high is
ResetLow, and both enter FAULT (decisions D22 and D23). -/
def Obligations.WriteRegSendsItsFrame : Prop :=
  ∀ (s : State) (addr : Addr) (value : Byte), s.Admitted →
    (∀ rx e, s.rst = .high →
      s.env.exchange [(addr.setWidth 8 <<< 1) &&& 0x7E, value] = (some rx, e) →
      exec (.writeReg addr value) s =
        .next (((s.withEnv e).emit (.bus [(addr.setWidth 8 <<< 1) &&& 0x7E, value] rx)).withRet
          .nothing)) ∧
    (∀ e, s.rst = .high →
      s.env.exchange [(addr.setWidth 8 <<< 1) &&& 0x7E, value] = (none, e) →
      ∃ t, exec (.writeReg addr value) s = .next t ∧ FaultedAfter s t .transportError [] ∧
        t.env = e) ∧
    (s.rst ≠ .high →
      ∃ t, exec (.writeReg addr value) s = .next t ∧ FaultedAfter s t .resetLow [] ∧
        t.env = s.env)

/-- READ_REG sends its two-byte frame and returns the second received byte
(spec/41_register_access.md, READ_REG); a failed exchange is a TransportError, a line not high is
ResetLow, and both enter FAULT (decisions D22 and D23). -/
def Obligations.ReadRegReturnsSecondByte : Prop :=
  ∀ (s : State) (addr : Addr), s.Admitted →
    (∀ r0 r1 e, s.rst = .high →
      s.env.exchange [((addr.setWidth 8 <<< 1) &&& 0x7E) ||| 0x80, 0x00] = (some [r0, r1], e) →
      exec (.readReg addr) s =
        .next (((s.withEnv e).emit
          (.bus [((addr.setWidth 8 <<< 1) &&& 0x7E) ||| 0x80, 0x00] [r0, r1])).withRet
          (.byte r1))) ∧
    (∀ e, s.rst = .high →
      s.env.exchange [((addr.setWidth 8 <<< 1) &&& 0x7E) ||| 0x80, 0x00] = (none, e) →
      ∃ t, exec (.readReg addr) s = .next t ∧ FaultedAfter s t .transportError [] ∧
        t.env = e) ∧
    (s.rst ≠ .high →
      ∃ t, exec (.readReg addr) s = .next t ∧ FaultedAfter s t .resetLow [] ∧
        t.env = s.env)

/-- SET_BITS reads, then writes the value read OR the mask, always; if the read's exchange fails the
write is not made, and a failed write stops after the read (spec/41_register_access.md, SET_BITS).  A
failed exchange and a line not high enter FAULT (decisions D22 and D23). -/
def Obligations.SetBitsReadsThenWrites : Prop :=
  ∀ (s : State) (addr : Addr) (mask : Byte), s.Admitted →
    (∀ r0 v rx e e', s.rst = .high → s.env.exchange (readFrame addr) = (some [r0, v], e) →
      e.exchange (writeFrame addr (v ||| mask)) = (some rx, e') →
      exec (.setBits addr mask) s =
        .next { s with env := e', ret := .nothing,
                       trace := s.trace ++ [.bus (readFrame addr) [r0, v],
                                            .bus (writeFrame addr (v ||| mask)) rx] }) ∧
    (∀ e, s.rst = .high → s.env.exchange (readFrame addr) = (none, e) →
      ∃ t, exec (.setBits addr mask) s = .next t ∧ FaultedAfter s t .transportError []) ∧
    (∀ r0 v e e', s.rst = .high → s.env.exchange (readFrame addr) = (some [r0, v], e) →
      e.exchange (writeFrame addr (v ||| mask)) = (none, e') →
      ∃ t, exec (.setBits addr mask) s = .next t ∧
        FaultedAfter s t .transportError [.bus (readFrame addr) [r0, v]]) ∧
    (s.rst ≠ .high →
      ∃ t, exec (.setBits addr mask) s = .next t ∧ FaultedAfter s t .resetLow [])

/-- CLEAR_BITS reads, then writes the value read AND-NOT the mask, always; if the read's exchange
fails the write is not made, and a failed write stops after the read
(spec/41_register_access.md, CLEAR_BITS; decision D17).  A failed exchange enters FAULT with
TransportError (decision D22; spec/60_exceptions.md section 1). -/
def Obligations.ClearBitsReadsThenWrites : Prop :=
  ∀ (s : State) (addr : Addr) (mask : Byte), s.Ready →
    (∀ r0 v rx e e', s.env.exchange (readFrame addr) = (some [r0, v], e) →
      e.exchange (writeFrame addr (v &&& ~~~mask)) = (some rx, e') →
      exec (.clearBits addr mask) s =
        .next { s with env := e', ret := .nothing,
                       trace := s.trace ++ [.bus (readFrame addr) [r0, v],
                                            .bus (writeFrame addr (v &&& ~~~mask)) rx] }) ∧
    (∀ e, s.env.exchange (readFrame addr) = (none, e) →
      ∃ t, exec (.clearBits addr mask) s = .next t ∧ FaultedAfter s t .transportError []) ∧
    (∀ r0 v e e', s.env.exchange (readFrame addr) = (some [r0, v], e) →
      e.exchange (writeFrame addr (v &&& ~~~mask)) = (none, e') →
      ∃ t, exec (.clearBits addr mask) s = .next t ∧
        FaultedAfter s t .transportError [.bus (readFrame addr) [r0, v]])

/-- ANTENNA_ON: one read and no write when both low bits read as set, else one read and a write of
the value read with both set (spec/41_register_access.md, ANTENNA_ON; decision D18). -/
def Obligations.AntennaOnWritesOnlyIfNeeded : Prop :=
  ∀ (s : State) (r0 v : Byte) (e : Env), s.Ready →
    s.env.exchange (readFrame s.cfg.aTxControl) = (some [r0, v], e) →
    (v &&& 0x03 = 0x03 →
      exec .antennaOn s =
        .next { s with env := e, ret := .nothing,
                       trace := s.trace ++ [.bus (readFrame s.cfg.aTxControl) [r0, v]] }) ∧
    (∀ rx e', v &&& 0x03 ≠ 0x03 →
      e.exchange (writeFrame s.cfg.aTxControl (v ||| 0x03)) = (some rx, e') →
      exec .antennaOn s =
        .next { s with env := e', ret := .nothing,
                       trace := s.trace ++ [.bus (readFrame s.cfg.aTxControl) [r0, v],
                         .bus (writeFrame s.cfg.aTxControl (v ||| 0x03)) rx] })

/-- The bus-frame rows run as the register transaction that sends the frame
(notes/assumptions/4.md). -/
def Obligations.SpiFramesRunAsTransactions : Prop :=
  ∀ (s : State) (addr : Addr) (value : Byte), s.Ready →
    (∀ rx e, s.env.exchange (writeFrame addr value) = (some rx, e) →
      exec (.spiWriteFrame addr value) s =
        .next { s with env := e, ret := .nothing,
                       trace := s.trace ++ [.bus (writeFrame addr value) rx] }) ∧
    (∀ r0 r1 e, s.env.exchange (readFrame addr) = (some [r0, r1], e) →
      exec (.spiReadFrame addr) s =
        .next { s with env := e, ret := .byte r1,
                       trace := s.trace ++ [.bus (readFrame addr) [r0, r1]] })

/-- With the reset line not high no register transaction is sent: every instruction that begins
with one enters FAULT with ResetLow and no bus event (spec/60_exceptions.md section 1; decision
D23; that bus frames, chip command codes and card frames run as instructions is the model's choice,
notes/assumptions/4.md). -/
def Obligations.RegisterAccessNeedsResetHigh : Prop :=
  ∀ (s : State) (i : Instr), s.Admitted → s.rst ≠ .high → i.wellFormed s.cfg = true →
    (touchesRegister i = true ∨ runsCommand i = true) →
    ∃ t, exec i s = .next t ∧ t.fault = true ∧ t.cause = .resetLow ∧
      t.ret = .faulted .resetLow ∧ t.trace = s.trace ∧ t.env = s.env

/-! ### Refusals and FAULT -/

/-- In FAULT every operation is refused; with the handle closed only INIT is admitted, and INIT is
refused while it is open: no bus activity, no change of the engine's state
(spec/60_exceptions.md section 1; spec/70_reset_and_hazards.md section 1; decisions D22, D24, D25;
notes/assumptions/8.md). -/
def Obligations.RefusedOperationsChangeNothing : Prop :=
  ∀ (s : State) (i : Instr),
    (s.fault = true → exec i s = .next { s with ret := .denied .inFault }) ∧
    (s.fault = false → s.isOpen = false → i ≠ .init →
      exec i s = .next { s with ret := .denied .notOpen }) ∧
    (s.fault = false → s.isOpen = true →
      exec .init s = .next { s with ret := .denied .alreadyOpen })

/-- A send buffer of more than 16 bytes is refused: no bus activity, no result
(spec/42_command_engine.md section 1; decision D19; notes/assumptions/8.md). -/
def Obligations.LongSendBufferRefused : Prop :=
  ∀ (s : State) (cmd : Byte) (tx : List Byte), s.Admitted → 16 < tx.length →
    exec (.toCard cmd tx) s = .next { s with ret := .denied .bufferTooLong }

/-- Whatever instruction runs, if it leaves the engine in FAULT that it was not in, the cause is
TransportError or ResetLow, the host is told so, SCAN is not running, and every event emitted
before stays (spec/60_exceptions.md sections 1 and 4; decision D22).  The same of a step of a running
SCAN: SCAN ends without its shutdown actions, the handle, the line and the scan state stay, and only
bus events are added (spec/44_scan_loop.md section 3; notes/assumptions/9.md, 27.md).

And every failed exchange enters it: where some exchanges are answered and the next fails
(notes/assumptions/6.md), TRANSFER and every instruction that makes register transactions either makes
no more exchanges than are answered, one answer for each, and ends outside FAULT, or makes exactly
these and stops at the failing one, in FAULT with TransportError and no later frame; and it stops so
where the first exchange fails (spec/40_bus_transport.md, TRANSFER; spec/60_exceptions.md sections 1
and 4; decision D22; the frame, command-code and card-frame rows run by notes/assumptions/4.md). -/
def Obligations.FaultEntryRecordsCause : Prop :=
  (∀ (s t : State) (i : Instr), exec i s = .next t → s.fault = false → t.fault = true →
    (t.cause = .transportError ∨ t.cause = .resetLow) ∧ t.ret = .faulted t.cause ∧
    t.scanning = false ∧ ∃ events, t.trace = s.trace ++ events) ∧
  (∀ s t : State, s.scanning = true → step s = .next t → s.fault = false → t.fault = true →
    (t.cause = .transportError ∨ t.cause = .resetLow) ∧ t.ret = .faulted t.cause ∧
    t.scanning = false ∧ t.scan = s.scan ∧ t.isOpen = s.isOpen ∧ t.rst = s.rst ∧
    ∃ events, BusOnly events ∧ t.trace = s.trace ++ events) ∧
  (∀ (s : State) (i : Instr) (answers : List (List Byte)) (rest : List (Option (List Byte))),
    s.Ready → (touchesRegister i = true ∨ runsCommand i = true ∨ ∃ bytes, i = .transfer bytes) →
    s.env.bus = .oracle (answers.map some ++ none :: rest) →
    ∃ t events, exec i s = .next t ∧ BusOnly events ∧
      ((events.length ≤ answers.length ∧ t.fault = false ∧ t.trace = s.trace ++ events ∧
          t.env = s.env.failingAfter (answers.drop events.length) rest) ∨
       (events.length = answers.length ∧ FaultedAfter s t .transportError events ∧
          t.env = { s.env with bus := .oracle rest }))) ∧
  (∀ (s : State) (i : Instr) (rest : List (Option (List Byte))), s.Ready →
    (touchesRegister i = true ∨ runsCommand i = true ∨ ∃ bytes, i = .transfer bytes) →
    i.wellFormed s.cfg = true → s.env.bus = .oracle (none :: rest) →
    ∃ t, exec i s = .next t ∧ FaultedAfter s t .transportError [] ∧
      t.env = { s.env with bus := .oracle rest })

/-- No step clears `fault` or `cancel`, takes back an event, or changes a parameter
(spec/10_state.md sections 2 and 4; spec/60_exceptions.md section 1). -/
def Obligations.StickyStateStays : Prop :=
  ∀ s t : State, step s = .next t →
    (s.fault = true → t.fault = true) ∧ (s.cancel = true → t.cancel = true) ∧
    t.cfg = s.cfg ∧ ∃ events, t.trace = s.trace ++ events

/-! ### The Command Engine -/

/-- The masks of a chip command, chosen with no bus activity; CMD_IDLE is an "other"
(spec/42_command_engine.md section 2, step 1; that the rows CMD_IDLE, CMD_AUTHENT and CMD_TRANSCEIVE
run as instructions is the model's choice, notes/assumptions/4.md). -/
def Obligations.CommandSelectsMasks : Prop :=
  ∀ (s t : State) (i : Instr) (c : Byte), s.Admitted → i.wellFormed s.cfg = true →
    chipCommand s.cfg i = some c → exec i s = .next t →
    t.cmd = c ∧
    (c = s.cfg.cmdAuthent → t.irqEn = 0x12 ∧ t.waitIrq = 0x10) ∧
    (c ≠ s.cfg.cmdAuthent → c = s.cfg.cmdTransceive → t.irqEn = 0x77 ∧ t.waitIrq = 0x30) ∧
    (c ≠ s.cfg.cmdAuthent → c ≠ s.cfg.cmdTransceive → t.irqEn = 0x00 ∧ t.waitIrq = 0x00) ∧
    (s.cfg.CodesDistinct → c = s.cfg.cmdIdle → t.irqEn = 0x00 ∧ t.waitIrq = 0x00) ∧
    (s.beginCommand c).trace = s.trace

/-- R155: every byte of the send buffer goes into the FIFO data register, in order, and nothing
else is sent. -/
def Obligations.LoadSendsBufferInOrder : Prop :=
  ∀ (s t : State) (tx : List Byte), tx.length ≤ 16 → toCardLoad (s.loadTx tx) = .ok () t →
    ∃ events, t.trace = s.trace ++ events ∧ BusOnly events ∧
      framesOf events = tx.map fun b => writeFrame s.cfg.aFifoData b

/-- The poll loop makes between 1 and 2000 reads of the interrupt-request register and nothing
else; after p of them the counter is 2000 - p, and 0 exactly on the 2000th
(spec/42_command_engine.md, step 5). -/
def Obligations.PollCountsItsReads : Prop :=
  ∀ (s t : State), toCardPoll s = .ok () t →
    ∃ events p, t.trace = s.trace ++ events ∧ BusOnly events ∧ 1 ≤ p ∧ p ≤ 2000 ∧
      framesOf events = List.replicate p (readFrame s.cfg.aComIrq) ∧
      t.cnt.toNat = 2000 - p ∧ (t.cnt = 0 ↔ p = 2000)

/-- The poll loop goes on past a read exactly when that read shows neither the timer bit nor a bit
of the wait mask, and stops at the first that does; `irq` keeps the last value
(spec/42_command_engine.md, step 5; decisions D9 and D11). -/
def Obligations.PollStopsAtFirstSignal : Prop :=
  ∀ (s t : State), toCardPoll s = .ok () t →
    ∃ (before : List (List Byte)) (last : List Byte),
      t.trace = s.trace ++
        (before ++ [last]).map (fun rx => Event.bus (readFrame s.cfg.aComIrq) rx) ∧
      (∀ rx ∈ before, secondByte rx &&& 0x01 = 0 ∧ secondByte rx &&& s.waitIrq = 0) ∧
      t.irq = secondByte last ∧
      (t.cnt ≠ 0 → t.irq &&& 0x01 ≠ 0 ∨ t.irq &&& s.waitIrq ≠ 0)

/-- TO_CARD and the chip command codes complete: with the line high and no transport failure they
answer a next state whose result is a row of the outcome table (spec/42_command_engine.md section
4; decisions D10, D12 to D16; notes/assumptions/4.md for the code rows). -/
def Obligations.CommandEndsInOutcomeRow : Prop :=
  ∀ (s : State) (i : Instr) (c : Byte), s.Ready → s.env.NoFailure → i.wellFormed s.cfg = true →
    chipCommand s.cfg i = some c →
    ∃ t, exec i s = .next t ∧ t.fault = false ∧ t.pc = .idle ∧ t.cmd = c ∧
      t.ret = .result t.status t.respBytes t.bitlen ∧ CommandOutcome c t

/-- The number of frames of a TO_CARD that ends well: `6 + L + 1 + 2T + p + 2 + G + K*T*(2 + m)`
(spec/42_command_engine.md section 4, derived there). -/
def Obligations.CommandFrameCount : Prop :=
  ∀ (s t : State) (cmd : Byte) (tx : List Byte), s.Admitted → tx.length ≤ 16 →
    exec (.toCard cmd tx) s = .next t → t.fault = false →
    ∃ events, t.trace = s.trace ++ events ∧ BusOnly events ∧
      events.length = 6 + tx.length + 1 + (if cmd = s.cfg.cmdTransceive then 2 else 0) +
        (2000 - t.cnt.toNat) + 2 + (if t.cnt = 0 then 0 else 1) +
        (if t.cnt ≠ 0 ∧ t.err &&& 0x1B = 0 ∧ cmd = s.cfg.cmdTransceive then 2 + t.m.toNat else 0)

/-- A command on the scripted bus, whatever its code and however it ends (by a stop bit on any poll,
with the error bits clear or set, or by the 2000th poll): every frame in its order, the bytes it reads
and no more, and its result and cause (spec/42_command_engine.md section 3; decisions D6, D9 to D17;
the script is spec/20_memory.md section 6, decision D34; notes/assumptions/4.md for the code rows). -/
def Obligations.CommandSendsTheseFrames : Prop :=
  ∀ (s : State) (i : Instr) (cmd : Byte) (c : ChipAnswers) (rest : List Byte),
    s.Ready → s.cfg.CodesDistinct → i.wellFormed s.cfg = true → chipCommand s.cfg i = some cmd →
    c.Fits s.cfg cmd → s.env.bus = .script (c.reads s.cfg cmd ++ rest) →
    ∃ t, exec i s = .next t ∧
      t.ret = .result (c.status s.cfg cmd) (c.resp s.cfg cmd)
        (BitVec.ofInt 12 (c.bitlen s.cfg cmd)) ∧
      t.cause = c.cause s.cfg cmd ∧ t.fault = false ∧
      t.env = { s.env with bus := .script rest } ∧
      t.trace = s.trace ++ c.events s.cfg cmd (sendBytes s i)

/-- NO_TAG is reported exactly when the counter is not zero, the error bits are clear, and
`irq` ANDed with the enable mask has the timer bit; only TRANSCEIVE can report it
(spec/42_command_engine.md section 2, step 7; that `irq` is the last poll value is
PollStopsAtFirstSignal; that the chip command rows run as instructions is the model's choice,
notes/assumptions/4.md). -/
def Obligations.NoTagOverridesOkAlone : Prop :=
  ∀ (s t : State) (i : Instr) (c : Byte), s.Admitted → i.wellFormed s.cfg = true →
    chipCommand s.cfg i = some c → exec i s = .next t → t.fault = false →
    (t.status = .noTag ↔
      t.cnt ≠ 0 ∧ t.err &&& 0x1B = 0 ∧ t.irq &&& t.irqEn &&& 0x01 ≠ 0) ∧
    (t.status = .noTag → c = s.cfg.cmdTransceive ∧ t.cause = .noTag) ∧
    (s.cfg.CodesDistinct → c = s.cfg.cmdTransceive → t.cnt ≠ 0 → t.err &&& 0x1B = 0 →
      t.irq &&& 0x01 ≠ 0 → t.status = .noTag) ∧
    (t.cnt ≠ 0 → t.err &&& 0x1B ≠ 0 → t.status = .error)

/-- The bit length is the formula's integer on the whole range, with no overflow
(spec/42_command_engine.md, step 7; decision D15). -/
def Obligations.BitLengthIsExact : Prop :=
  ∀ (s : State) (control : Byte),
    (s.measure control).lastBits = control.setWidth 3 ∧
    (s.measure control).bitlen.toInt =
      (if control &&& 0x07 = 0 then (s.n.toNat : Int) * 8
       else ((s.n.toNat : Int) - 1) * 8 + (control &&& 0x07).toNat)

/-- R169: the number of bytes drained is the level clamped to 1..16, and the clamp does not change
the bit length. -/
def Obligations.DrainCountIsClamped : Prop :=
  ∀ (s : State) (control : Byte),
    (s.n = 0 → (s.measure control).m.toNat = 1) ∧
    (1 ≤ s.n.toNat → s.n.toNat ≤ 16 → (s.measure control).m.toNat = s.n.toNat) ∧
    (17 ≤ s.n.toNat → (s.measure control).m.toNat = 16) ∧
    (s.measure control).bitlen = bitLengthReg s.n (control.setWidth 3)

/-- The drain reads exactly the clamped count from the FIFO data register and nothing else; the first
byte read is the first entry of the response, which is never empty (spec/42_command_engine.md section
2, step 7).  On the scripted bus, whose form is decision D34 (spec/20_memory.md section 6), it
completes with the script's bytes. -/
def Obligations.DrainFillsResponseInOrder : Prop :=
  ∀ s : State, 1 ≤ s.m.toNat → s.m.toNat ≤ 16 →
    (∀ t, toCardDrain s = .ok () t →
      ∃ received : List (List Byte), received.length = s.m.toNat ∧
        t.trace = s.trace ++ received.map (fun rx => Event.bus (readFrame s.cfg.aFifoData) rx) ∧
        t.respBytes = received.map secondByte ∧ t.respLen = s.m ∧
        1 ≤ t.respLen.toNat ∧ t.respLen.toNat ≤ 16) ∧
    (∀ data rest : List Byte, s.rst = .high → data.length = s.m.toNat →
      s.env.bus = .script (data ++ rest) →
      ∃ t, toCardDrain s = .ok () t ∧ t.respBytes = data ∧
        t.env = { s.env with bus := .script rest })

/-- A command that ends outside FAULT: its last write is the one that clears the start-send bit, so
it does not leave the bit set by its own doing (spec/42_command_engine.md, step 6;
spec/70_reset_and_hazards.md section 2; decision D17; that the chip command codes run as instructions
is the model's choice, notes/assumptions/4.md). -/
def Obligations.StartSendAlwaysCleared : Prop :=
  ∀ (s t : State) (i : Instr) (c : Byte), s.Admitted → i.wellFormed s.cfg = true →
    chipCommand s.cfg i = some c → exec i s = .next t → t.fault = false →
    ∃ before v rx after, t.trace = s.trace ++ before ++
        [.bus (writeFrame s.cfg.aBitFraming v) rx] ++ after ∧
      v &&& s.cfg.startSend = 0 ∧
      ∀ e ∈ after, ∃ addr rx', e = .bus (readFrame addr) rx'

/-- A command's result is made afresh: two states with the same parameters, handle, line and
answers to come give the same result and send the same frames, whatever the working registers, the
buffers, the old result and the trace were (spec/42_command_engine.md section 4). -/
def Obligations.CommandKeepsNothingBetween : Prop :=
  ∀ (s u t v : State) (cmd : Byte) (tx : List Byte), s.Admitted → tx.length ≤ 16 →
    u.cfg = s.cfg → u.isOpen = s.isOpen → u.rst = s.rst → u.fault = s.fault → u.env = s.env →
    exec (.toCard cmd tx) s = .next t → exec (.toCard cmd tx) u = .next v →
    v.ret = t.ret ∧ v.cause = t.cause ∧ v.fault = t.fault ∧ v.env = t.env ∧
    (t.fault = false → v.status = t.status ∧ v.respBytes = t.respBytes ∧
      v.bitlen = t.bitlen) ∧
    ∃ events, t.trace = s.trace ++ events ∧ v.trace = u.trace ++ events

/-! ### Card protocol -/

/-- REQUEST and its card frame complete: OK only with 16 bits, which is two whole bytes, else
ERROR with the cause that says why; never NO_TAG; the response registers stay as TO_CARD left them.
On the scripted bus they write 0x07 to the bit-framing register, then send the frames of a TRANSCEIVE
of the mode, and report OK exactly when the chip answers 16 bits
(spec/43_card_protocol.md; decisions D20, D34, D40; notes/assumptions/4.md for the frame). -/
def Obligations.RequestReportsSixteenBitsOrError : Prop :=
  (∀ (s : State) (i : Instr), s.Ready → s.env.NoFailure →
    (i = .piccRequest ∨ ∃ mode, i = .request mode) →
    ∃ t, exec i s = .next t ∧ t.fault = false ∧ t.pc = .idle ∧ t.ret = .status t.status ∧
      ((t.status = .ok ∧ t.cause = .none ∧ t.bitlen = 16 ∧ t.respLen = 2 ∧ t.n = 2 ∧
          t.lastBits = 0) ∨
       (t.status = .error ∧ t.cause = .frameLengthError ∧ t.bitlen ≠ 16 ∧ t.respLen ≠ 0) ∨
       (t.status = .error ∧ t.cause = .protocolTimeout ∧ t.respLen = 0) ∨
       (t.status = .error ∧ t.cause = .readerErrorBits ∧ t.respLen = 0) ∨
       (t.status = .error ∧ t.cause = .noTag ∧ t.respLen ≠ 0))) ∧
  (∀ (s : State) (i : Instr) (mode : Byte) (c : ChipAnswers) (rest : List Byte),
    s.Ready → s.cfg.CodesDistinct →
    (i = .request mode ∨ (i = .piccRequest ∧ mode = s.cfg.piccReqidl)) →
    c.Fits s.cfg s.cfg.cmdTransceive →
    s.env.bus = .script (c.reads s.cfg s.cfg.cmdTransceive ++ rest) →
    ∃ t, exec i s = .next t ∧ t.fault = false ∧
      t.ret = .status (if c.sixteenBits then .ok else .error) ∧
      t.respBytes = c.resp s.cfg s.cfg.cmdTransceive ∧
      t.env = { s.env with bus := .script rest } ∧
      t.trace = s.trace ++
        wrote s.cfg.aBitFraming 0x07 :: c.events s.cfg s.cfg.cmdTransceive [mode])

/-- ANTICOLL and its card frame complete: OK only with five bytes whose checksum holds, and then
alone is the UID written; a status other than OK is passed through.  On the scripted bus they write
0x00 to the bit-framing register, then send the frames of a TRANSCEIVE of the anticollision frame, and
report the UID exactly when the chip answers five bytes whose XOR is zero
(spec/43_card_protocol.md; decisions D21, D34; notes/assumptions/4.md for the frame). -/
def Obligations.AnticollReportsValidUidOrNone : Prop :=
  (∀ (s : State) (i : Instr), s.Ready → s.env.NoFailure →
    (i = .anticoll ∨ i = .piccAnticoll) →
    ∃ t, exec i s = .next t ∧ t.fault = false ∧ t.pc = .idle ∧
      ((t.status = .ok ∧ t.cause = .none ∧ t.respLen = 5 ∧ t.uid.bytes = t.respBytes ∧
          t.uid.b0 ^^^ t.uid.b1 ^^^ t.uid.b2 ^^^ t.uid.b3 = t.uid.b4 ∧
          t.ret = .statusUid .ok (some t.uid)) ∨
       (t.status = .error ∧ t.uid = s.uid ∧ t.ret = .statusUid .error none ∧
          ((t.cause = .frameLengthError ∧ t.respLen ≠ 5) ∨
           (t.cause = .checksumError ∧ t.respLen = 5) ∨
           (t.cause = .protocolTimeout ∧ t.respLen = 0) ∨
           (t.cause = .readerErrorBits ∧ t.respLen = 0))) ∨
       (t.status = .noTag ∧ t.cause = .noTag ∧ t.uid = s.uid ∧
          t.ret = .statusUid .noTag none))) ∧
  (∀ (s : State) (i : Instr) (c : ChipAnswers) (rest : List Byte),
    s.Ready → s.cfg.CodesDistinct → (i = .anticoll ∨ i = .piccAnticoll) →
    c.Fits s.cfg s.cfg.cmdTransceive →
    s.env.bus = .script (c.reads s.cfg s.cfg.cmdTransceive ++ rest) →
    ∃ t, exec i s = .next t ∧ t.fault = false ∧
      (∀ u, t.ret = .statusUid .ok (some u) ↔ c.GivesUid u) ∧
      (∀ u, c.GivesUid u → t.uid = u) ∧
      t.env = { s.env with bus := .script rest } ∧
      t.trace = s.trace ++
        wrote s.cfg.aBitFraming 0x00 ::
          c.events s.cfg s.cfg.cmdTransceive [s.cfg.piccAnticoll, 0x20])

/-- R194: the checksum is the XOR of four bytes, a UID is valid exactly when it equals the fifth,
and on five bytes with status OK validation succeeds exactly when the XOR of all five is zero and
fails with ChecksumError otherwise. -/
def Obligations.ChecksumDecidesValidation : Prop :=
  (∀ u : Uid, (uidValid u = true ↔ bcc u.b0 u.b1 u.b2 u.b3 = u.b4) ∧
    bcc u.b0 u.b1 u.b2 u.b3 = u.b0 ^^^ u.b1 ^^^ u.b2 ^^^ u.b3 ∧
    (uidValid u = true ↔ u.b0 ^^^ u.b1 ^^^ u.b2 ^^^ u.b3 ^^^ u.b4 = 0)) ∧
  ∀ s : State, s.status = .ok → s.respLen = 5 →
    (s.resp[0] ^^^ s.resp[1] ^^^ s.resp[2] ^^^ s.resp[3] ^^^ s.resp[4] = 0 →
      s.judgeAnticoll = s.setUid ⟨s.resp[0], s.resp[1], s.resp[2], s.resp[3], s.resp[4]⟩) ∧
    (s.resp[0] ^^^ s.resp[1] ^^^ s.resp[2] ^^^ s.resp[3] ^^^ s.resp[4] ≠ 0 →
      s.judgeAnticoll = (s.setStatus .error).setCause .checksumError)

/-- SELECT_TAG reports OK for any operand and touches nothing else
(spec/43_card_protocol.md; decision D38). -/
def Obligations.SelectTagAlwaysSucceeds : Prop :=
  ∀ (s : State) (uid : Uid), s.Admitted →
    exec (.selectTag uid) s =
      .next { s with status := .ok, cause := .none, ret := .status .ok }

/-- No REQUEST, no ANTICOLL, whether the host gives them or the card frames do, and no block of SCAN
ever writes the AUTHENT code to the command register (spec/00_scope.md section 3;
notes/assumptions/4.md for the card frames). -/
def Obligations.AuthentNeverIssuedByProtocol : Prop :=
  (∀ (s t : State) (i : Instr), s.cfg.Legal →
    (i = .anticoll ∨ i = .piccAnticoll ∨ i = .piccRequest ∨ ∃ mode, i = .request mode) →
    exec i s = .next t →
    ∃ events, t.trace = s.trace ++ events ∧
      writeFrame s.cfg.aCommand s.cfg.cmdAuthent ∉ framesOf events) ∧
  (∀ (s t : State), s.cfg.Legal → s.scanning = true → step s = .next t →
    ∃ events, t.trace = s.trace ++ events ∧
      writeFrame s.cfg.aCommand s.cfg.cmdAuthent ∉ framesOf events)

/-! ### INIT and SHUTDOWN -/

/-- INIT completes: the handle is opened, the line raised, the register programme written, the
antenna's register read and, unless its two low bits read as set, written with both set; and
everything else stays as it was (spec/70_reset_and_hazards.md section 1; spec/41_register_access.md,
ANTENNA_ON; decisions D18 and D25). -/
def Obligations.InitOpensHandleAndRaisesLine : Prop :=
  ∀ (s : State) (e : Env), s.fault = false → s.isOpen = false →
    s.env.nextOpen = (true, e) → e.NoFailure →
    ∃ programme r0 v antenna e', BusOnly programme ∧
      framesOf programme = (s.cfg.initWrites.map fun w => writeFrame w.1 w.2) ∧
      (v &&& 0x03 = 0x03 → antenna = []) ∧
      (v &&& 0x03 ≠ 0x03 →
        ∃ rx, antenna = [Event.bus (writeFrame s.cfg.aTxControl (v ||| 0x03)) rx]) ∧
      exec .init s =
        .next { s with isOpen := true, rst := .high, env := e', ret := .nothing,
                       trace := s.trace ++ [.busOpen, .rst true] ++ programme ++
                         [.bus (readFrame s.cfg.aTxControl) [r0, v]] ++ antenna }

/-- INIT that cannot open a handle: TransportError, FAULT, `open` still 0, no event, the error
returned; and whatever failed later, the events already emitted stay
(spec/70_reset_and_hazards.md section 1; decision D22).  A failed exchange of the register programme or
of the antenna's transactions, where INIT reaches it, is such a failure: no later frame is sent, and
the handle stays open with the line high (notes/assumptions/6.md, 14.md). -/
def Obligations.InitFailureIsReported : Prop :=
  ∀ (s : State), s.fault = false → s.isOpen = false →
    (∀ e, s.env.nextOpen = (false, e) →
      ∃ t, exec .init s = .next t ∧ FaultedAfter s t .transportError [] ∧ t.env = e) ∧
    (∀ e t, s.env.nextOpen = (true, e) → exec .init s = .next t → t.fault = true →
      t.cause = .transportError ∧ t.ret = .faulted .transportError ∧
      ∃ events, BusOnly events ∧ t.trace = s.trace ++ [.busOpen, .rst true] ++ events) ∧
    (∀ (e : Env) (answers : List (List Byte)) (rest : List (Option (List Byte))),
      s.env.nextOpen = (true, e) → e.bus = .oracle (answers.map some ++ none :: rest) →
      ∃ t events, exec .init s = .next t ∧ BusOnly events ∧ t.isOpen = true ∧ t.rst = .high ∧
        t.trace = s.trace ++ [.busOpen, .rst true] ++ events ∧
        (answers.length ≤ s.cfg.initWrites.length → t.fault = true) ∧
        ((events.length ≤ answers.length ∧ t.fault = false ∧ t.ret = .nothing ∧
            t.env = e.failingAfter (answers.drop events.length) rest) ∨
         (events.length = answers.length ∧ t.fault = true ∧ t.cause = .transportError ∧
            t.ret = .faulted .transportError ∧ t.env = { e with bus := .oracle rest })))

/-- SHUTDOWN closes the bus, then releases the line (spec/70_reset_and_hazards.md section 1;
decision D26). -/
def Obligations.ShutdownClosesThenReleases : Prop :=
  ∀ s : State, s.Admitted →
    exec .shutdown s =
      .next { s with isOpen := false, rst := .released, ret := .nothing,
                     trace := s.trace ++ [.busClose, .rstRel] }

/-! ### SCAN -/

/-- SCAN is entered: the scan state is IDLE_SCAN and the loop runs, nothing else changes
(spec/44_scan_loop.md section 3; notes/assumptions/9.md). -/
def Obligations.ScanEntersTheLoop : Prop :=
  ∀ s : State, s.Admitted →
    exec .scan s = .next { s with scan := .idleScan, scanning := true, ret := .nothing }

/-- With `cancel` set, IDLE_SCAN goes to SHUTDOWN with OUTREL, then the SHUTDOWN operation, and
SCAN returns; it sends nothing on the bus (spec/44_scan_loop.md sections 1 and 3; decision D27; that
BUSCLOSE comes before RSTREL is decision D26; that one step performs the whole block and SCAN returns
in it is the model's choice, notes/assumptions/9.md). -/
def Obligations.CancelledScanShutsDown : Prop :=
  ∀ s : State, s.stalled = false → s.scanning = true → s.scan = .idleScan →
    s.tick.cancel = true →
    step s = .next { s.tick with
      scan := .shutdown, scanning := false, isOpen := false, rst := .released, ret := .nothing,
      trace := s.trace ++ [.outRel, .busClose, .rstRel] }

/-- The transition table of the scan loop: from each state a step that neither faults nor stalls
goes only where the table says, with the events the table lists; and the block of IDLE_SCAN is
REQUEST with the REQUEST-IDLE code, that of CARD_DETECTED is ANTICOLL, each as the host's operation
does it (spec/44_scan_loop.md section 3; the waits and the local log leave no mark; that a step is one
block, and that SCAN gives nothing back before it ends, is the model's choice,
notes/assumptions/9.md, 25.md; that AUTHORIZED and DENIED form the string of their events again from
`uid` is the model's choice, notes/assumptions/29.md; that a call that fails has its event too is
deduced, notes/assumptions/28.md). -/
def Obligations.ScanFollowsTransitionTable : Prop :=
  (∀ s t : State, s.stalled = false → s.scanning = true → step s = .next t →
    t.fault = false → t.stalled = false → s.tick.cancel = false ∨ s.scan ≠ .idleScan →
    (s.scan = .idleScan → ∃ events, t.trace = s.trace ++ events ∧ BusOnly events ∧
      t.scan = (if t.status = .ok then .cardDetected else .idleScan)) ∧
    (s.scan = .cardDetected → ∃ events, t.trace = s.trace ++ events ∧ BusOnly events ∧
      t.scan = (if t.status = .ok then .uidResolved else .idleScan)) ∧
    (s.scan = .uidResolved → ∃ answer, t.trace = s.trace ++ [.authQ (uidString s.uid) answer] ∧
      t.scan = (if answer then .authorized else .denied)) ∧
    (s.scan = .authorized → t.scan = .idleScan ∧
      t.trace = s.trace ++ [.out true, .out false, .audit (uidString s.uid) true]) ∧
    (s.scan = .denied → t.scan = .idleScan ∧
      t.trace = s.trace ++ .audit (uidString s.uid) false ::
        (if s.cfg.recordUnknown then [.unknown (uidString s.uid)] else [])) ∧
    (t.scanning = true ∨ s.scan = .shutdown)) ∧
  (∀ s : State, s.Admitted → s.stalled = false → s.scanning = true →
    (s.scan = .idleScan → s.tick.cancel = false →
      ∃ u, exec (.request s.cfg.piccReqidl) s.tick = .next u ∧
        step s = .next (if u.fault = true then u else
          { u with ret := s.ret,
                   scan := if u.status = .ok then .cardDetected else .idleScan })) ∧
    (s.scan = .cardDetected →
      ∃ u, exec .anticoll s.tick = .next u ∧
        step s = .next (if u.fault = true then u else
          { u with ret := s.ret,
                   scan := if u.status = .ok then .uidResolved else .idleScan })))

/-- The oracle is asked once, with the UID string; true authorizes, false and any failure deny, the
event carries the answer, and a failure is recorded as ExternalServiceError
(spec/44_scan_loop.md sections 1 to 3; that one step performs the whole block is the model's choice,
notes/assumptions/9.md). -/
def Obligations.AuthorizationFailsClosed : Prop :=
  ∀ (s : State) (a : AuthAnswer) (e : Env), s.stalled = false → s.scanning = true →
    s.scan = .uidResolved → s.env.nextAuth = (a, e) → a ≠ .never →
    step s = .next { s.tick with
      env := e,
      scan := (if a = .granted then .authorized else .denied),
      cause := (if a = .failed then .externalServiceError else s.cause),
      trace := s.trace ++ [.authQ (uidString s.uid) (decide (a = .granted))] }

/-- AUTHORIZED: the actuator on, then off, then the audit record, whatever of the three calls
fails (spec/44_scan_loop.md section 1; decision D28; the event of a failed call, and the cause
ExternalServiceError for set_output too, are notes/assumptions/28.md; that one step performs the whole
block is the model's choice, notes/assumptions/9.md, and so is that the string of the audit is formed
again from `uid`, notes/assumptions/29.md). -/
def Obligations.AuthorizedActuatesThenAudits : Prop :=
  ∀ (s : State) (a b c : CallAnswer) (rest : List CallAnswer), s.stalled = false →
    s.scanning = true → s.scan = .authorized → s.env.calls = a :: b :: c :: rest →
    a ≠ .never → b ≠ .never → c ≠ .never →
    step s = .next { s.tick with
      env := { s.env with calls := rest }, scan := .idleScan,
      cause := (if a = .failed ∨ b = .failed ∨ c = .failed then .externalServiceError
                else s.cause),
      trace := s.trace ++ [.out true, .out false, .audit (uidString s.uid) true] }

/-- DENIED audits, then records the unknown card where the parameter says so; the actuator is not
touched (spec/44_scan_loop.md section 1; that the audit comes first, under a Boolean parameter, is
decision D29; the event and the cause of a call that fails are notes/assumptions/28.md; that a step is one
block is the model's choice, notes/assumptions/9.md, and so is that the string of both calls is formed
again from `uid`, notes/assumptions/29.md). -/
def Obligations.DeniedAuditsThenRecords : Prop :=
  ∀ (s : State) (a b : CallAnswer) (rest : List CallAnswer), s.stalled = false →
    s.scanning = true → s.scan = .denied → s.env.calls = a :: b :: rest →
    a ≠ .never → b ≠ .never →
    (s.cfg.recordUnknown = true →
      step s = .next { s.tick with
        env := { s.env with calls := rest }, scan := .idleScan,
        cause := (if a = .failed ∨ b = .failed then .externalServiceError else s.cause),
        trace := s.trace ++ [.audit (uidString s.uid) false, .unknown (uidString s.uid)] }) ∧
    (s.cfg.recordUnknown = false →
      step s = .next { s.tick with
        env := { s.env with calls := b :: rest }, scan := .idleScan,
        cause := (if a = .failed then .externalServiceError else s.cause),
        trace := s.trace ++ [.audit (uidString s.uid) false] })

/-- An external call that never returns leaves the scan state for ever, be it to the authorization
oracle, the actuator, the audit log or the registry: the step answers a stalled state, with the events
of the calls that returned before, from which every further step is the fault that says so
(spec/44_scan_loop.md section 2; that the hang is a stalled state and then a fault, that a step is one
block, and that the string of DENIED's audit is formed again from `uid` are the model's choices,
notes/assumptions/11.md, 9.md, 29.md; the event of a call that failed before is deduced,
notes/assumptions/28.md). -/
def Obligations.NeverReturningCallStalls : Prop :=
  (∀ (s : State) (e : Env), s.stalled = false → s.scanning = true → s.scan = .uidResolved →
    s.env.nextAuth = (.never, e) →
    ∃ t, step s = .next t ∧ t.stalled = true ∧ t.scan = .uidResolved ∧ t.trace = s.trace ∧
      step t = .fault .externalCallNeverReturns) ∧
  (∀ (s : State) (ends rest : List CallAnswer), s.stalled = false → s.scanning = true →
    .never ∉ ends → s.env.calls = ends ++ .never :: rest →
    (s.scan = .authorized → ends.length ≤ 2 →
      ∃ t, step s = .next t ∧ t.stalled = true ∧ t.scan = .authorized ∧
        t.trace = s.trace ++ [.out true, .out false].take ends.length ∧
        step t = .fault .externalCallNeverReturns) ∧
    (s.scan = .denied → ends.length ≤ (if s.cfg.recordUnknown then 1 else 0) →
      ∃ t, step s = .next t ∧ t.stalled = true ∧ t.scan = .denied ∧
        t.trace = s.trace ++ [.audit (uidString s.uid) false].take ends.length ∧
        step t = .fault .externalCallNeverReturns))

/-- The cancel flag is looked at in IDLE_SCAN alone: in every other scan state a block does the
same whatever the flag, and so does every instruction (spec/44_scan_loop.md section 1;
spec/10_state.md section 4; decision D27; a step of SCAN is one block, notes/assumptions/9.md). -/
def Obligations.CancelReadInIdleScanAlone : Prop :=
  (∀ (s : State) (b : Bool), s.scan ≠ .idleScan →
    scanStep { s with cancel := b } = { scanStep s with cancel := b }) ∧
  (∀ (s t : State) (i : Instr) (b : Bool), exec i s = .next t →
    exec i { s with cancel := b } = .next { t with cancel := b })

/-- A running SCAN whose cancel flag is set comes to an end within four steps, at the model's grain of
one block of the loop a step (notes/assumptions/9.md, the model's choice): it returns, or an external
call stalls it (spec/44_scan_loop.md section 1; spec/70_reset_and_hazards.md section 3;
notes/assumptions/11.md). -/
def Obligations.CancelledScanEndsInFourSteps : Prop :=
  ∀ s : State, s.stalled = false → s.scanning = true → s.cancel = true →
    ∃ k t, k ≤ 4 ∧ Host.Core.run Sys2Proof.core k s = .next t ∧
      (t.scanning = false ∨ t.stalled = true)

/-- The UID string: the decimal numerals of the five bytes in buffer order, without leading zeros,
joined by four single commas; 9 to 19 characters; and no two UIDs share one
(spec/44_scan_loop.md section 1; decision D35). -/
def Obligations.UidStringIsExactAndStable : Prop :=
  ∀ u v : Uid,
    (∃ d0 d1 d2 d3 d4 : List Char,
      uidString u = d0 ++ [','] ++ d1 ++ [','] ++ d2 ++ [','] ++ d3 ++ [','] ++ d4 ∧
      IsNumeral d0 u.b0 ∧ IsNumeral d1 u.b1 ∧ IsNumeral d2 u.b2 ∧ IsNumeral d3 u.b3 ∧
      IsNumeral d4 u.b4) ∧
    9 ≤ (uidString u).length ∧ (uidString u).length ≤ 19 ∧
    (uidString u).countP (· == ',') = 4 ∧
    (∀ ch ∈ uidString u, ch = ',' ∨ ('0' ≤ ch ∧ ch ≤ '9')) ∧
    (uidString u = uidString v → u = v)

/-! ### Frames and invariants of the whole machine -/

/-- The frame of the register operations, bus frames, TRANSFER among them: nothing but the trace,
the answers to come and the host's result changes; on entering FAULT also `fault`, `cause` and
`scanning`, and nothing is said of the result registers, which are not valid then
(spec/41_register_access.md; spec/60_exceptions.md section 1; that the bus frames run as instructions
is the model's choice, notes/assumptions/4.md). -/
def Obligations.RegisterOperationsFrame : Prop :=
  ∀ (s t : State) (i : Instr), exec i s = .next t →
    (touchesRegister i = true ∨ ∃ bytes, i = .transfer bytes) →
    ∃ events e, BusOnly events ∧ e.opens = s.env.opens ∧ e.auths = s.env.auths ∧
      e.calls = s.env.calls ∧
      t = { s with trace := s.trace ++ events, env := e, ret := t.ret, fault := t.fault,
                   cause := t.cause, scanning := t.scanning, status := t.status, resp := t.resp,
                   bitlen := t.bitlen, uid := t.uid } ∧
      (t.fault = s.fault → t.cause = s.cause ∧ t.scanning = s.scanning ∧ t.status = s.status ∧
        t.resp = s.resp ∧ t.bitlen = s.bitlen ∧ t.uid = s.uid)

/-- The frame of the Command Engine and of what is built on it: the handle, the line, the scan
state, the cancel flag, the parameters and the host's queue stay; the UID changes in ANTICOLL
alone; only bus events are added (spec/42_command_engine.md; spec/43_card_protocol.md; that the chip
command codes and the card frames run as instructions is the model's choice,
notes/assumptions/4.md). -/
def Obligations.CommandEngineFrame : Prop :=
  ∀ (s t : State) (i : Instr), exec i s = .next t → runsCommand i = true →
    t.cfg = s.cfg ∧ t.isOpen = s.isOpen ∧ t.rst = s.rst ∧ t.scan = s.scan ∧
    t.cancel = s.cancel ∧ t.stalled = s.stalled ∧ t.requests = s.requests ∧
    t.termIn = s.termIn ∧ t.env.opens = s.env.opens ∧ t.env.auths = s.env.auths ∧
    t.env.calls = s.env.calls ∧
    (t.fault = false → t.scanning = s.scanning) ∧
    (t.fault = s.fault → i ≠ .anticoll → i ≠ .piccAnticoll → t.uid = s.uid) ∧
    ∃ events, BusOnly events ∧ t.trace = s.trace ++ events

/-- Every bus frame of every instruction but TRANSFER, and of every step of a running SCAN, has two
bytes, byte 0 bit 0 clear, and byte 1 zero in a read; the bytes received are as many as those sent
(spec/30_encoding.md sections 4 and 5; notes/assumptions/4.md for the rows that are frames or
command codes, 9.md for a step of SCAN). -/
def Obligations.EngineFramesAreTwoBytes : Prop :=
  ∀ s t : State,
    ((∃ i : Instr, exec i s = .next t ∧ ∀ bytes, i ≠ .transfer bytes) ∨
      (s.scanning = true ∧ step s = .next t)) →
    ∃ events, t.trace = s.trace ++ events ∧
      ∀ tx rx, .bus tx rx ∈ events → EngineFrame tx ∧ rx.length = tx.length

/-- Every step keeps the invariant of the machine. -/
def Obligations.EveryStepKeepsInvariant : Prop :=
  ∀ s t : State, s.Inv → step s = .next t → t.Inv

/-- The invariant holds after power-on. -/
def Obligations.PowerOnMeetsInvariant : Prop := State.reset.Inv
end

