-- ==== Sys2Proof/Laws/State.lean ====
section
/-! SUPPORT. One lemma per field per update of State, true by rfl: no proof unfolds an update. -/

namespace Sys2Proof.Machine

variable (s : State)

/-! ### emit -/

@[simp] theorem emit_cfg (e : Event) : (s.emit e).cfg = s.cfg := rfl
@[simp] theorem emit_isOpen (e : Event) : (s.emit e).isOpen = s.isOpen := rfl
@[simp] theorem emit_rst (e : Event) : (s.emit e).rst = s.rst := rfl
@[simp] theorem emit_fault (e : Event) : (s.emit e).fault = s.fault := rfl
@[simp] theorem emit_cmd (e : Event) : (s.emit e).cmd = s.cmd := rfl
@[simp] theorem emit_irqEn (e : Event) : (s.emit e).irqEn = s.irqEn := rfl
@[simp] theorem emit_waitIrq (e : Event) : (s.emit e).waitIrq = s.waitIrq := rfl
@[simp] theorem emit_cnt (e : Event) : (s.emit e).cnt = s.cnt := rfl
@[simp] theorem emit_irq (e : Event) : (s.emit e).irq = s.irq := rfl
@[simp] theorem emit_err (e : Event) : (s.emit e).err = s.err := rfl
@[simp] theorem emit_n (e : Event) : (s.emit e).n = s.n := rfl
@[simp] theorem emit_lastBits (e : Event) : (s.emit e).lastBits = s.lastBits := rfl
@[simp] theorem emit_m (e : Event) : (s.emit e).m = s.m := rfl
@[simp] theorem emit_i (e : Event) : (s.emit e).i = s.i := rfl
@[simp] theorem emit_status (e : Event) : (s.emit e).status = s.status := rfl
@[simp] theorem emit_respLen (e : Event) : (s.emit e).respLen = s.respLen := rfl
@[simp] theorem emit_bitlen (e : Event) : (s.emit e).bitlen = s.bitlen := rfl
@[simp] theorem emit_cause (e : Event) : (s.emit e).cause = s.cause := rfl
@[simp] theorem emit_pc (e : Event) : (s.emit e).pc = s.pc := rfl
@[simp] theorem emit_scan (e : Event) : (s.emit e).scan = s.scan := rfl
@[simp] theorem emit_cancel (e : Event) : (s.emit e).cancel = s.cancel := rfl
@[simp] theorem emit_tx (e : Event) : (s.emit e).tx = s.tx := rfl
@[simp] theorem emit_txLen (e : Event) : (s.emit e).txLen = s.txLen := rfl
@[simp] theorem emit_resp (e : Event) : (s.emit e).resp = s.resp := rfl
@[simp] theorem emit_uid (e : Event) : (s.emit e).uid = s.uid := rfl
@[simp] theorem emit_trace (e : Event) : (s.emit e).trace = s.trace ++ [e] := rfl
@[simp] theorem emit_scanning (e : Event) : (s.emit e).scanning = s.scanning := rfl
@[simp] theorem emit_stalled (e : Event) : (s.emit e).stalled = s.stalled := rfl
@[simp] theorem emit_requests (e : Event) : (s.emit e).requests = s.requests := rfl
@[simp] theorem emit_termIn (e : Event) : (s.emit e).termIn = s.termIn := rfl
@[simp] theorem emit_ret (e : Event) : (s.emit e).ret = s.ret := rfl
@[simp] theorem emit_env (e : Event) : (s.emit e).env = s.env := rfl

/-! ### withEnv -/

@[simp] theorem withEnv_cfg (e : Env) : (s.withEnv e).cfg = s.cfg := rfl
@[simp] theorem withEnv_isOpen (e : Env) : (s.withEnv e).isOpen = s.isOpen := rfl
@[simp] theorem withEnv_rst (e : Env) : (s.withEnv e).rst = s.rst := rfl
@[simp] theorem withEnv_fault (e : Env) : (s.withEnv e).fault = s.fault := rfl
@[simp] theorem withEnv_cmd (e : Env) : (s.withEnv e).cmd = s.cmd := rfl
@[simp] theorem withEnv_irqEn (e : Env) : (s.withEnv e).irqEn = s.irqEn := rfl
@[simp] theorem withEnv_waitIrq (e : Env) : (s.withEnv e).waitIrq = s.waitIrq := rfl
@[simp] theorem withEnv_cnt (e : Env) : (s.withEnv e).cnt = s.cnt := rfl
@[simp] theorem withEnv_irq (e : Env) : (s.withEnv e).irq = s.irq := rfl
@[simp] theorem withEnv_err (e : Env) : (s.withEnv e).err = s.err := rfl
@[simp] theorem withEnv_n (e : Env) : (s.withEnv e).n = s.n := rfl
@[simp] theorem withEnv_lastBits (e : Env) : (s.withEnv e).lastBits = s.lastBits := rfl
@[simp] theorem withEnv_m (e : Env) : (s.withEnv e).m = s.m := rfl
@[simp] theorem withEnv_i (e : Env) : (s.withEnv e).i = s.i := rfl
@[simp] theorem withEnv_status (e : Env) : (s.withEnv e).status = s.status := rfl
@[simp] theorem withEnv_respLen (e : Env) : (s.withEnv e).respLen = s.respLen := rfl
@[simp] theorem withEnv_bitlen (e : Env) : (s.withEnv e).bitlen = s.bitlen := rfl
@[simp] theorem withEnv_cause (e : Env) : (s.withEnv e).cause = s.cause := rfl
@[simp] theorem withEnv_pc (e : Env) : (s.withEnv e).pc = s.pc := rfl
@[simp] theorem withEnv_scan (e : Env) : (s.withEnv e).scan = s.scan := rfl
@[simp] theorem withEnv_cancel (e : Env) : (s.withEnv e).cancel = s.cancel := rfl
@[simp] theorem withEnv_tx (e : Env) : (s.withEnv e).tx = s.tx := rfl
@[simp] theorem withEnv_txLen (e : Env) : (s.withEnv e).txLen = s.txLen := rfl
@[simp] theorem withEnv_resp (e : Env) : (s.withEnv e).resp = s.resp := rfl
@[simp] theorem withEnv_uid (e : Env) : (s.withEnv e).uid = s.uid := rfl
@[simp] theorem withEnv_trace (e : Env) : (s.withEnv e).trace = s.trace := rfl
@[simp] theorem withEnv_scanning (e : Env) : (s.withEnv e).scanning = s.scanning := rfl
@[simp] theorem withEnv_stalled (e : Env) : (s.withEnv e).stalled = s.stalled := rfl
@[simp] theorem withEnv_requests (e : Env) : (s.withEnv e).requests = s.requests := rfl
@[simp] theorem withEnv_termIn (e : Env) : (s.withEnv e).termIn = s.termIn := rfl
@[simp] theorem withEnv_ret (e : Env) : (s.withEnv e).ret = s.ret := rfl
@[simp] theorem withEnv_env (e : Env) : (s.withEnv e).env = e := rfl

/-! ### withRet -/

@[simp] theorem withRet_cfg (r : Ret) : (s.withRet r).cfg = s.cfg := rfl
@[simp] theorem withRet_isOpen (r : Ret) : (s.withRet r).isOpen = s.isOpen := rfl
@[simp] theorem withRet_rst (r : Ret) : (s.withRet r).rst = s.rst := rfl
@[simp] theorem withRet_fault (r : Ret) : (s.withRet r).fault = s.fault := rfl
@[simp] theorem withRet_cmd (r : Ret) : (s.withRet r).cmd = s.cmd := rfl
@[simp] theorem withRet_irqEn (r : Ret) : (s.withRet r).irqEn = s.irqEn := rfl
@[simp] theorem withRet_waitIrq (r : Ret) : (s.withRet r).waitIrq = s.waitIrq := rfl
@[simp] theorem withRet_cnt (r : Ret) : (s.withRet r).cnt = s.cnt := rfl
@[simp] theorem withRet_irq (r : Ret) : (s.withRet r).irq = s.irq := rfl
@[simp] theorem withRet_err (r : Ret) : (s.withRet r).err = s.err := rfl
@[simp] theorem withRet_n (r : Ret) : (s.withRet r).n = s.n := rfl
@[simp] theorem withRet_lastBits (r : Ret) : (s.withRet r).lastBits = s.lastBits := rfl
@[simp] theorem withRet_m (r : Ret) : (s.withRet r).m = s.m := rfl
@[simp] theorem withRet_i (r : Ret) : (s.withRet r).i = s.i := rfl
@[simp] theorem withRet_status (r : Ret) : (s.withRet r).status = s.status := rfl
@[simp] theorem withRet_respLen (r : Ret) : (s.withRet r).respLen = s.respLen := rfl
@[simp] theorem withRet_bitlen (r : Ret) : (s.withRet r).bitlen = s.bitlen := rfl
@[simp] theorem withRet_cause (r : Ret) : (s.withRet r).cause = s.cause := rfl
@[simp] theorem withRet_pc (r : Ret) : (s.withRet r).pc = s.pc := rfl
@[simp] theorem withRet_scan (r : Ret) : (s.withRet r).scan = s.scan := rfl
@[simp] theorem withRet_cancel (r : Ret) : (s.withRet r).cancel = s.cancel := rfl
@[simp] theorem withRet_tx (r : Ret) : (s.withRet r).tx = s.tx := rfl
@[simp] theorem withRet_txLen (r : Ret) : (s.withRet r).txLen = s.txLen := rfl
@[simp] theorem withRet_resp (r : Ret) : (s.withRet r).resp = s.resp := rfl
@[simp] theorem withRet_uid (r : Ret) : (s.withRet r).uid = s.uid := rfl
@[simp] theorem withRet_trace (r : Ret) : (s.withRet r).trace = s.trace := rfl
@[simp] theorem withRet_scanning (r : Ret) : (s.withRet r).scanning = s.scanning := rfl
@[simp] theorem withRet_stalled (r : Ret) : (s.withRet r).stalled = s.stalled := rfl
@[simp] theorem withRet_requests (r : Ret) : (s.withRet r).requests = s.requests := rfl
@[simp] theorem withRet_termIn (r : Ret) : (s.withRet r).termIn = s.termIn := rfl
@[simp] theorem withRet_ret (r : Ret) : (s.withRet r).ret = r := rfl
@[simp] theorem withRet_env (r : Ret) : (s.withRet r).env = s.env := rfl

/-! ### enterFault -/

@[simp] theorem enterFault_cfg (c : Cause) : (s.enterFault c).cfg = s.cfg := rfl
@[simp] theorem enterFault_isOpen (c : Cause) : (s.enterFault c).isOpen = s.isOpen := rfl
@[simp] theorem enterFault_rst (c : Cause) : (s.enterFault c).rst = s.rst := rfl
@[simp] theorem enterFault_fault (c : Cause) : (s.enterFault c).fault = true := rfl
@[simp] theorem enterFault_cmd (c : Cause) : (s.enterFault c).cmd = s.cmd := rfl
@[simp] theorem enterFault_irqEn (c : Cause) : (s.enterFault c).irqEn = s.irqEn := rfl
@[simp] theorem enterFault_waitIrq (c : Cause) : (s.enterFault c).waitIrq = s.waitIrq := rfl
@[simp] theorem enterFault_cnt (c : Cause) : (s.enterFault c).cnt = s.cnt := rfl
@[simp] theorem enterFault_irq (c : Cause) : (s.enterFault c).irq = s.irq := rfl
@[simp] theorem enterFault_err (c : Cause) : (s.enterFault c).err = s.err := rfl
@[simp] theorem enterFault_n (c : Cause) : (s.enterFault c).n = s.n := rfl
@[simp] theorem enterFault_lastBits (c : Cause) : (s.enterFault c).lastBits = s.lastBits := rfl
@[simp] theorem enterFault_m (c : Cause) : (s.enterFault c).m = s.m := rfl
@[simp] theorem enterFault_i (c : Cause) : (s.enterFault c).i = s.i := rfl
@[simp] theorem enterFault_status (c : Cause) : (s.enterFault c).status = s.status := rfl
@[simp] theorem enterFault_respLen (c : Cause) : (s.enterFault c).respLen = s.respLen := rfl
@[simp] theorem enterFault_bitlen (c : Cause) : (s.enterFault c).bitlen = s.bitlen := rfl
@[simp] theorem enterFault_cause (c : Cause) : (s.enterFault c).cause = c := rfl
@[simp] theorem enterFault_pc (c : Cause) : (s.enterFault c).pc = s.pc := rfl
@[simp] theorem enterFault_scan (c : Cause) : (s.enterFault c).scan = s.scan := rfl
@[simp] theorem enterFault_cancel (c : Cause) : (s.enterFault c).cancel = s.cancel := rfl
@[simp] theorem enterFault_tx (c : Cause) : (s.enterFault c).tx = s.tx := rfl
@[simp] theorem enterFault_txLen (c : Cause) : (s.enterFault c).txLen = s.txLen := rfl
@[simp] theorem enterFault_resp (c : Cause) : (s.enterFault c).resp = s.resp := rfl
@[simp] theorem enterFault_uid (c : Cause) : (s.enterFault c).uid = s.uid := rfl
@[simp] theorem enterFault_trace (c : Cause) : (s.enterFault c).trace = s.trace := rfl
@[simp] theorem enterFault_scanning (c : Cause) : (s.enterFault c).scanning = false := rfl
@[simp] theorem enterFault_stalled (c : Cause) : (s.enterFault c).stalled = s.stalled := rfl
@[simp] theorem enterFault_requests (c : Cause) : (s.enterFault c).requests = s.requests := rfl
@[simp] theorem enterFault_termIn (c : Cause) : (s.enterFault c).termIn = s.termIn := rfl
@[simp] theorem enterFault_ret (c : Cause) : (s.enterFault c).ret = s.ret := rfl
@[simp] theorem enterFault_env (c : Cause) : (s.enterFault c).env = s.env := rfl

/-! ### stall -/

@[simp] theorem stall_cfg : (s.stall).cfg = s.cfg := rfl
@[simp] theorem stall_isOpen : (s.stall).isOpen = s.isOpen := rfl
@[simp] theorem stall_rst : (s.stall).rst = s.rst := rfl
@[simp] theorem stall_fault : (s.stall).fault = s.fault := rfl
@[simp] theorem stall_cmd : (s.stall).cmd = s.cmd := rfl
@[simp] theorem stall_irqEn : (s.stall).irqEn = s.irqEn := rfl
@[simp] theorem stall_waitIrq : (s.stall).waitIrq = s.waitIrq := rfl
@[simp] theorem stall_cnt : (s.stall).cnt = s.cnt := rfl
@[simp] theorem stall_irq : (s.stall).irq = s.irq := rfl
@[simp] theorem stall_err : (s.stall).err = s.err := rfl
@[simp] theorem stall_n : (s.stall).n = s.n := rfl
@[simp] theorem stall_lastBits : (s.stall).lastBits = s.lastBits := rfl
@[simp] theorem stall_m : (s.stall).m = s.m := rfl
@[simp] theorem stall_i : (s.stall).i = s.i := rfl
@[simp] theorem stall_status : (s.stall).status = s.status := rfl
@[simp] theorem stall_respLen : (s.stall).respLen = s.respLen := rfl
@[simp] theorem stall_bitlen : (s.stall).bitlen = s.bitlen := rfl
@[simp] theorem stall_cause : (s.stall).cause = s.cause := rfl
@[simp] theorem stall_pc : (s.stall).pc = s.pc := rfl
@[simp] theorem stall_scan : (s.stall).scan = s.scan := rfl
@[simp] theorem stall_cancel : (s.stall).cancel = s.cancel := rfl
@[simp] theorem stall_tx : (s.stall).tx = s.tx := rfl
@[simp] theorem stall_txLen : (s.stall).txLen = s.txLen := rfl
@[simp] theorem stall_resp : (s.stall).resp = s.resp := rfl
@[simp] theorem stall_uid : (s.stall).uid = s.uid := rfl
@[simp] theorem stall_trace : (s.stall).trace = s.trace := rfl
@[simp] theorem stall_scanning : (s.stall).scanning = s.scanning := rfl
@[simp] theorem stall_stalled : (s.stall).stalled = true := rfl
@[simp] theorem stall_requests : (s.stall).requests = s.requests := rfl
@[simp] theorem stall_termIn : (s.stall).termIn = s.termIn := rfl
@[simp] theorem stall_ret : (s.stall).ret = s.ret := rfl
@[simp] theorem stall_env : (s.stall).env = s.env := rfl

/-! ### setPhase -/

@[simp] theorem setPhase_cfg (p : Phase) : (s.setPhase p).cfg = s.cfg := rfl
@[simp] theorem setPhase_isOpen (p : Phase) : (s.setPhase p).isOpen = s.isOpen := rfl
@[simp] theorem setPhase_rst (p : Phase) : (s.setPhase p).rst = s.rst := rfl
@[simp] theorem setPhase_fault (p : Phase) : (s.setPhase p).fault = s.fault := rfl
@[simp] theorem setPhase_cmd (p : Phase) : (s.setPhase p).cmd = s.cmd := rfl
@[simp] theorem setPhase_irqEn (p : Phase) : (s.setPhase p).irqEn = s.irqEn := rfl
@[simp] theorem setPhase_waitIrq (p : Phase) : (s.setPhase p).waitIrq = s.waitIrq := rfl
@[simp] theorem setPhase_cnt (p : Phase) : (s.setPhase p).cnt = s.cnt := rfl
@[simp] theorem setPhase_irq (p : Phase) : (s.setPhase p).irq = s.irq := rfl
@[simp] theorem setPhase_err (p : Phase) : (s.setPhase p).err = s.err := rfl
@[simp] theorem setPhase_n (p : Phase) : (s.setPhase p).n = s.n := rfl
@[simp] theorem setPhase_lastBits (p : Phase) : (s.setPhase p).lastBits = s.lastBits := rfl
@[simp] theorem setPhase_m (p : Phase) : (s.setPhase p).m = s.m := rfl
@[simp] theorem setPhase_i (p : Phase) : (s.setPhase p).i = s.i := rfl
@[simp] theorem setPhase_status (p : Phase) : (s.setPhase p).status = s.status := rfl
@[simp] theorem setPhase_respLen (p : Phase) : (s.setPhase p).respLen = s.respLen := rfl
@[simp] theorem setPhase_bitlen (p : Phase) : (s.setPhase p).bitlen = s.bitlen := rfl
@[simp] theorem setPhase_cause (p : Phase) : (s.setPhase p).cause = s.cause := rfl
@[simp] theorem setPhase_pc (p : Phase) : (s.setPhase p).pc = p := rfl
@[simp] theorem setPhase_scan (p : Phase) : (s.setPhase p).scan = s.scan := rfl
@[simp] theorem setPhase_cancel (p : Phase) : (s.setPhase p).cancel = s.cancel := rfl
@[simp] theorem setPhase_tx (p : Phase) : (s.setPhase p).tx = s.tx := rfl
@[simp] theorem setPhase_txLen (p : Phase) : (s.setPhase p).txLen = s.txLen := rfl
@[simp] theorem setPhase_resp (p : Phase) : (s.setPhase p).resp = s.resp := rfl
@[simp] theorem setPhase_uid (p : Phase) : (s.setPhase p).uid = s.uid := rfl
@[simp] theorem setPhase_trace (p : Phase) : (s.setPhase p).trace = s.trace := rfl
@[simp] theorem setPhase_scanning (p : Phase) : (s.setPhase p).scanning = s.scanning := rfl
@[simp] theorem setPhase_stalled (p : Phase) : (s.setPhase p).stalled = s.stalled := rfl
@[simp] theorem setPhase_requests (p : Phase) : (s.setPhase p).requests = s.requests := rfl
@[simp] theorem setPhase_termIn (p : Phase) : (s.setPhase p).termIn = s.termIn := rfl
@[simp] theorem setPhase_ret (p : Phase) : (s.setPhase p).ret = s.ret := rfl
@[simp] theorem setPhase_env (p : Phase) : (s.setPhase p).env = s.env := rfl

/-! ### setIndex -/

@[simp] theorem setIndex_cfg (k : BitVec 5) : (s.setIndex k).cfg = s.cfg := rfl
@[simp] theorem setIndex_isOpen (k : BitVec 5) : (s.setIndex k).isOpen = s.isOpen := rfl
@[simp] theorem setIndex_rst (k : BitVec 5) : (s.setIndex k).rst = s.rst := rfl
@[simp] theorem setIndex_fault (k : BitVec 5) : (s.setIndex k).fault = s.fault := rfl
@[simp] theorem setIndex_cmd (k : BitVec 5) : (s.setIndex k).cmd = s.cmd := rfl
@[simp] theorem setIndex_irqEn (k : BitVec 5) : (s.setIndex k).irqEn = s.irqEn := rfl
@[simp] theorem setIndex_waitIrq (k : BitVec 5) : (s.setIndex k).waitIrq = s.waitIrq := rfl
@[simp] theorem setIndex_cnt (k : BitVec 5) : (s.setIndex k).cnt = s.cnt := rfl
@[simp] theorem setIndex_irq (k : BitVec 5) : (s.setIndex k).irq = s.irq := rfl
@[simp] theorem setIndex_err (k : BitVec 5) : (s.setIndex k).err = s.err := rfl
@[simp] theorem setIndex_n (k : BitVec 5) : (s.setIndex k).n = s.n := rfl
@[simp] theorem setIndex_lastBits (k : BitVec 5) : (s.setIndex k).lastBits = s.lastBits := rfl
@[simp] theorem setIndex_m (k : BitVec 5) : (s.setIndex k).m = s.m := rfl
@[simp] theorem setIndex_i (k : BitVec 5) : (s.setIndex k).i = k := rfl
@[simp] theorem setIndex_status (k : BitVec 5) : (s.setIndex k).status = s.status := rfl
@[simp] theorem setIndex_respLen (k : BitVec 5) : (s.setIndex k).respLen = s.respLen := rfl
@[simp] theorem setIndex_bitlen (k : BitVec 5) : (s.setIndex k).bitlen = s.bitlen := rfl
@[simp] theorem setIndex_cause (k : BitVec 5) : (s.setIndex k).cause = s.cause := rfl
@[simp] theorem setIndex_pc (k : BitVec 5) : (s.setIndex k).pc = s.pc := rfl
@[simp] theorem setIndex_scan (k : BitVec 5) : (s.setIndex k).scan = s.scan := rfl
@[simp] theorem setIndex_cancel (k : BitVec 5) : (s.setIndex k).cancel = s.cancel := rfl
@[simp] theorem setIndex_tx (k : BitVec 5) : (s.setIndex k).tx = s.tx := rfl
@[simp] theorem setIndex_txLen (k : BitVec 5) : (s.setIndex k).txLen = s.txLen := rfl
@[simp] theorem setIndex_resp (k : BitVec 5) : (s.setIndex k).resp = s.resp := rfl
@[simp] theorem setIndex_uid (k : BitVec 5) : (s.setIndex k).uid = s.uid := rfl
@[simp] theorem setIndex_trace (k : BitVec 5) : (s.setIndex k).trace = s.trace := rfl
@[simp] theorem setIndex_scanning (k : BitVec 5) : (s.setIndex k).scanning = s.scanning := rfl
@[simp] theorem setIndex_stalled (k : BitVec 5) : (s.setIndex k).stalled = s.stalled := rfl
@[simp] theorem setIndex_requests (k : BitVec 5) : (s.setIndex k).requests = s.requests := rfl
@[simp] theorem setIndex_termIn (k : BitVec 5) : (s.setIndex k).termIn = s.termIn := rfl
@[simp] theorem setIndex_ret (k : BitVec 5) : (s.setIndex k).ret = s.ret := rfl
@[simp] theorem setIndex_env (k : BitVec 5) : (s.setIndex k).env = s.env := rfl

/-! ### loadTx -/

@[simp] theorem loadTx_cfg (b : List Byte) : (s.loadTx b).cfg = s.cfg := rfl
@[simp] theorem loadTx_isOpen (b : List Byte) : (s.loadTx b).isOpen = s.isOpen := rfl
@[simp] theorem loadTx_rst (b : List Byte) : (s.loadTx b).rst = s.rst := rfl
@[simp] theorem loadTx_fault (b : List Byte) : (s.loadTx b).fault = s.fault := rfl
@[simp] theorem loadTx_cmd (b : List Byte) : (s.loadTx b).cmd = s.cmd := rfl
@[simp] theorem loadTx_irqEn (b : List Byte) : (s.loadTx b).irqEn = s.irqEn := rfl
@[simp] theorem loadTx_waitIrq (b : List Byte) : (s.loadTx b).waitIrq = s.waitIrq := rfl
@[simp] theorem loadTx_cnt (b : List Byte) : (s.loadTx b).cnt = s.cnt := rfl
@[simp] theorem loadTx_irq (b : List Byte) : (s.loadTx b).irq = s.irq := rfl
@[simp] theorem loadTx_err (b : List Byte) : (s.loadTx b).err = s.err := rfl
@[simp] theorem loadTx_n (b : List Byte) : (s.loadTx b).n = s.n := rfl
@[simp] theorem loadTx_lastBits (b : List Byte) : (s.loadTx b).lastBits = s.lastBits := rfl
@[simp] theorem loadTx_m (b : List Byte) : (s.loadTx b).m = s.m := rfl
@[simp] theorem loadTx_i (b : List Byte) : (s.loadTx b).i = s.i := rfl
@[simp] theorem loadTx_status (b : List Byte) : (s.loadTx b).status = s.status := rfl
@[simp] theorem loadTx_respLen (b : List Byte) : (s.loadTx b).respLen = s.respLen := rfl
@[simp] theorem loadTx_bitlen (b : List Byte) : (s.loadTx b).bitlen = s.bitlen := rfl
@[simp] theorem loadTx_cause (b : List Byte) : (s.loadTx b).cause = s.cause := rfl
@[simp] theorem loadTx_pc (b : List Byte) : (s.loadTx b).pc = s.pc := rfl
@[simp] theorem loadTx_scan (b : List Byte) : (s.loadTx b).scan = s.scan := rfl
@[simp] theorem loadTx_cancel (b : List Byte) : (s.loadTx b).cancel = s.cancel := rfl
@[simp] theorem loadTx_tx (b : List Byte) : (s.loadTx b).tx = fillFrom s.tx 0 b := rfl
@[simp] theorem loadTx_txLen (b : List Byte) : (s.loadTx b).txLen = BitVec.ofNat 5 b.length := rfl
@[simp] theorem loadTx_resp (b : List Byte) : (s.loadTx b).resp = s.resp := rfl
@[simp] theorem loadTx_uid (b : List Byte) : (s.loadTx b).uid = s.uid := rfl
@[simp] theorem loadTx_trace (b : List Byte) : (s.loadTx b).trace = s.trace := rfl
@[simp] theorem loadTx_scanning (b : List Byte) : (s.loadTx b).scanning = s.scanning := rfl
@[simp] theorem loadTx_stalled (b : List Byte) : (s.loadTx b).stalled = s.stalled := rfl
@[simp] theorem loadTx_requests (b : List Byte) : (s.loadTx b).requests = s.requests := rfl
@[simp] theorem loadTx_termIn (b : List Byte) : (s.loadTx b).termIn = s.termIn := rfl
@[simp] theorem loadTx_ret (b : List Byte) : (s.loadTx b).ret = s.ret := rfl
@[simp] theorem loadTx_env (b : List Byte) : (s.loadTx b).env = s.env := rfl

/-! ### beginCommand -/

@[simp] theorem beginCommand_cfg (c : Byte) : (s.beginCommand c).cfg = s.cfg := rfl
@[simp] theorem beginCommand_isOpen (c : Byte) : (s.beginCommand c).isOpen = s.isOpen := rfl
@[simp] theorem beginCommand_rst (c : Byte) : (s.beginCommand c).rst = s.rst := rfl
@[simp] theorem beginCommand_fault (c : Byte) : (s.beginCommand c).fault = s.fault := rfl
@[simp] theorem beginCommand_cmd (c : Byte) : (s.beginCommand c).cmd = c := rfl
@[simp] theorem beginCommand_irqEn (c : Byte) : (s.beginCommand c).irqEn = enableMask s.cfg c := rfl
@[simp] theorem beginCommand_waitIrq (c : Byte) : (s.beginCommand c).waitIrq = waitMask s.cfg c := rfl
@[simp] theorem beginCommand_cnt (c : Byte) : (s.beginCommand c).cnt = s.cnt := rfl
@[simp] theorem beginCommand_irq (c : Byte) : (s.beginCommand c).irq = s.irq := rfl
@[simp] theorem beginCommand_err (c : Byte) : (s.beginCommand c).err = s.err := rfl
@[simp] theorem beginCommand_n (c : Byte) : (s.beginCommand c).n = s.n := rfl
@[simp] theorem beginCommand_lastBits (c : Byte) : (s.beginCommand c).lastBits = s.lastBits := rfl
@[simp] theorem beginCommand_m (c : Byte) : (s.beginCommand c).m = s.m := rfl
@[simp] theorem beginCommand_i (c : Byte) : (s.beginCommand c).i = s.i := rfl
@[simp] theorem beginCommand_status (c : Byte) : (s.beginCommand c).status = .error := rfl
@[simp] theorem beginCommand_respLen (c : Byte) : (s.beginCommand c).respLen = 0 := rfl
@[simp] theorem beginCommand_bitlen (c : Byte) : (s.beginCommand c).bitlen = 0 := rfl
@[simp] theorem beginCommand_cause (c : Byte) : (s.beginCommand c).cause = .none := rfl
@[simp] theorem beginCommand_pc (c : Byte) : (s.beginCommand c).pc = s.pc := rfl
@[simp] theorem beginCommand_scan (c : Byte) : (s.beginCommand c).scan = s.scan := rfl
@[simp] theorem beginCommand_cancel (c : Byte) : (s.beginCommand c).cancel = s.cancel := rfl
@[simp] theorem beginCommand_tx (c : Byte) : (s.beginCommand c).tx = s.tx := rfl
@[simp] theorem beginCommand_txLen (c : Byte) : (s.beginCommand c).txLen = s.txLen := rfl
@[simp] theorem beginCommand_resp (c : Byte) : (s.beginCommand c).resp = s.resp := rfl
@[simp] theorem beginCommand_uid (c : Byte) : (s.beginCommand c).uid = s.uid := rfl
@[simp] theorem beginCommand_trace (c : Byte) : (s.beginCommand c).trace = s.trace := rfl
@[simp] theorem beginCommand_scanning (c : Byte) : (s.beginCommand c).scanning = s.scanning := rfl
@[simp] theorem beginCommand_stalled (c : Byte) : (s.beginCommand c).stalled = s.stalled := rfl
@[simp] theorem beginCommand_requests (c : Byte) : (s.beginCommand c).requests = s.requests := rfl
@[simp] theorem beginCommand_termIn (c : Byte) : (s.beginCommand c).termIn = s.termIn := rfl
@[simp] theorem beginCommand_ret (c : Byte) : (s.beginCommand c).ret = s.ret := rfl
@[simp] theorem beginCommand_env (c : Byte) : (s.beginCommand c).env = s.env := rfl

/-! ### setCount -/

@[simp] theorem setCount_cfg (k : Nat) : (s.setCount k).cfg = s.cfg := rfl
@[simp] theorem setCount_isOpen (k : Nat) : (s.setCount k).isOpen = s.isOpen := rfl
@[simp] theorem setCount_rst (k : Nat) : (s.setCount k).rst = s.rst := rfl
@[simp] theorem setCount_fault (k : Nat) : (s.setCount k).fault = s.fault := rfl
@[simp] theorem setCount_cmd (k : Nat) : (s.setCount k).cmd = s.cmd := rfl
@[simp] theorem setCount_irqEn (k : Nat) : (s.setCount k).irqEn = s.irqEn := rfl
@[simp] theorem setCount_waitIrq (k : Nat) : (s.setCount k).waitIrq = s.waitIrq := rfl
@[simp] theorem setCount_cnt (k : Nat) : (s.setCount k).cnt = BitVec.ofNat 11 k := rfl
@[simp] theorem setCount_irq (k : Nat) : (s.setCount k).irq = s.irq := rfl
@[simp] theorem setCount_err (k : Nat) : (s.setCount k).err = s.err := rfl
@[simp] theorem setCount_n (k : Nat) : (s.setCount k).n = s.n := rfl
@[simp] theorem setCount_lastBits (k : Nat) : (s.setCount k).lastBits = s.lastBits := rfl
@[simp] theorem setCount_m (k : Nat) : (s.setCount k).m = s.m := rfl
@[simp] theorem setCount_i (k : Nat) : (s.setCount k).i = s.i := rfl
@[simp] theorem setCount_status (k : Nat) : (s.setCount k).status = s.status := rfl
@[simp] theorem setCount_respLen (k : Nat) : (s.setCount k).respLen = s.respLen := rfl
@[simp] theorem setCount_bitlen (k : Nat) : (s.setCount k).bitlen = s.bitlen := rfl
@[simp] theorem setCount_cause (k : Nat) : (s.setCount k).cause = s.cause := rfl
@[simp] theorem setCount_pc (k : Nat) : (s.setCount k).pc = s.pc := rfl
@[simp] theorem setCount_scan (k : Nat) : (s.setCount k).scan = s.scan := rfl
@[simp] theorem setCount_cancel (k : Nat) : (s.setCount k).cancel = s.cancel := rfl
@[simp] theorem setCount_tx (k : Nat) : (s.setCount k).tx = s.tx := rfl
@[simp] theorem setCount_txLen (k : Nat) : (s.setCount k).txLen = s.txLen := rfl
@[simp] theorem setCount_resp (k : Nat) : (s.setCount k).resp = s.resp := rfl
@[simp] theorem setCount_uid (k : Nat) : (s.setCount k).uid = s.uid := rfl
@[simp] theorem setCount_trace (k : Nat) : (s.setCount k).trace = s.trace := rfl
@[simp] theorem setCount_scanning (k : Nat) : (s.setCount k).scanning = s.scanning := rfl
@[simp] theorem setCount_stalled (k : Nat) : (s.setCount k).stalled = s.stalled := rfl
@[simp] theorem setCount_requests (k : Nat) : (s.setCount k).requests = s.requests := rfl
@[simp] theorem setCount_termIn (k : Nat) : (s.setCount k).termIn = s.termIn := rfl
@[simp] theorem setCount_ret (k : Nat) : (s.setCount k).ret = s.ret := rfl
@[simp] theorem setCount_env (k : Nat) : (s.setCount k).env = s.env := rfl

/-! ### polled -/

@[simp] theorem polled_cfg (v : Byte) (k : Nat) : (s.polled v k).cfg = s.cfg := rfl
@[simp] theorem polled_isOpen (v : Byte) (k : Nat) : (s.polled v k).isOpen = s.isOpen := rfl
@[simp] theorem polled_rst (v : Byte) (k : Nat) : (s.polled v k).rst = s.rst := rfl
@[simp] theorem polled_fault (v : Byte) (k : Nat) : (s.polled v k).fault = s.fault := rfl
@[simp] theorem polled_cmd (v : Byte) (k : Nat) : (s.polled v k).cmd = s.cmd := rfl
@[simp] theorem polled_irqEn (v : Byte) (k : Nat) : (s.polled v k).irqEn = s.irqEn := rfl
@[simp] theorem polled_waitIrq (v : Byte) (k : Nat) : (s.polled v k).waitIrq = s.waitIrq := rfl
@[simp] theorem polled_cnt (v : Byte) (k : Nat) : (s.polled v k).cnt = BitVec.ofNat 11 k := rfl
@[simp] theorem polled_irq (v : Byte) (k : Nat) : (s.polled v k).irq = v := rfl
@[simp] theorem polled_err (v : Byte) (k : Nat) : (s.polled v k).err = s.err := rfl
@[simp] theorem polled_n (v : Byte) (k : Nat) : (s.polled v k).n = s.n := rfl
@[simp] theorem polled_lastBits (v : Byte) (k : Nat) : (s.polled v k).lastBits = s.lastBits := rfl
@[simp] theorem polled_m (v : Byte) (k : Nat) : (s.polled v k).m = s.m := rfl
@[simp] theorem polled_i (v : Byte) (k : Nat) : (s.polled v k).i = s.i := rfl
@[simp] theorem polled_status (v : Byte) (k : Nat) : (s.polled v k).status = s.status := rfl
@[simp] theorem polled_respLen (v : Byte) (k : Nat) : (s.polled v k).respLen = s.respLen := rfl
@[simp] theorem polled_bitlen (v : Byte) (k : Nat) : (s.polled v k).bitlen = s.bitlen := rfl
@[simp] theorem polled_cause (v : Byte) (k : Nat) : (s.polled v k).cause = s.cause := rfl
@[simp] theorem polled_pc (v : Byte) (k : Nat) : (s.polled v k).pc = s.pc := rfl
@[simp] theorem polled_scan (v : Byte) (k : Nat) : (s.polled v k).scan = s.scan := rfl
@[simp] theorem polled_cancel (v : Byte) (k : Nat) : (s.polled v k).cancel = s.cancel := rfl
@[simp] theorem polled_tx (v : Byte) (k : Nat) : (s.polled v k).tx = s.tx := rfl
@[simp] theorem polled_txLen (v : Byte) (k : Nat) : (s.polled v k).txLen = s.txLen := rfl
@[simp] theorem polled_resp (v : Byte) (k : Nat) : (s.polled v k).resp = s.resp := rfl
@[simp] theorem polled_uid (v : Byte) (k : Nat) : (s.polled v k).uid = s.uid := rfl
@[simp] theorem polled_trace (v : Byte) (k : Nat) : (s.polled v k).trace = s.trace := rfl
@[simp] theorem polled_scanning (v : Byte) (k : Nat) : (s.polled v k).scanning = s.scanning := rfl
@[simp] theorem polled_stalled (v : Byte) (k : Nat) : (s.polled v k).stalled = s.stalled := rfl
@[simp] theorem polled_requests (v : Byte) (k : Nat) : (s.polled v k).requests = s.requests := rfl
@[simp] theorem polled_termIn (v : Byte) (k : Nat) : (s.polled v k).termIn = s.termIn := rfl
@[simp] theorem polled_ret (v : Byte) (k : Nat) : (s.polled v k).ret = s.ret := rfl
@[simp] theorem polled_env (v : Byte) (k : Nat) : (s.polled v k).env = s.env := rfl

/-! ### setErr -/

@[simp] theorem setErr_cfg (v : Byte) : (s.setErr v).cfg = s.cfg := rfl
@[simp] theorem setErr_isOpen (v : Byte) : (s.setErr v).isOpen = s.isOpen := rfl
@[simp] theorem setErr_rst (v : Byte) : (s.setErr v).rst = s.rst := rfl
@[simp] theorem setErr_fault (v : Byte) : (s.setErr v).fault = s.fault := rfl
@[simp] theorem setErr_cmd (v : Byte) : (s.setErr v).cmd = s.cmd := rfl
@[simp] theorem setErr_irqEn (v : Byte) : (s.setErr v).irqEn = s.irqEn := rfl
@[simp] theorem setErr_waitIrq (v : Byte) : (s.setErr v).waitIrq = s.waitIrq := rfl
@[simp] theorem setErr_cnt (v : Byte) : (s.setErr v).cnt = s.cnt := rfl
@[simp] theorem setErr_irq (v : Byte) : (s.setErr v).irq = s.irq := rfl
@[simp] theorem setErr_err (v : Byte) : (s.setErr v).err = v := rfl
@[simp] theorem setErr_n (v : Byte) : (s.setErr v).n = s.n := rfl
@[simp] theorem setErr_lastBits (v : Byte) : (s.setErr v).lastBits = s.lastBits := rfl
@[simp] theorem setErr_m (v : Byte) : (s.setErr v).m = s.m := rfl
@[simp] theorem setErr_i (v : Byte) : (s.setErr v).i = s.i := rfl
@[simp] theorem setErr_status (v : Byte) : (s.setErr v).status = s.status := rfl
@[simp] theorem setErr_respLen (v : Byte) : (s.setErr v).respLen = s.respLen := rfl
@[simp] theorem setErr_bitlen (v : Byte) : (s.setErr v).bitlen = s.bitlen := rfl
@[simp] theorem setErr_cause (v : Byte) : (s.setErr v).cause = s.cause := rfl
@[simp] theorem setErr_pc (v : Byte) : (s.setErr v).pc = s.pc := rfl
@[simp] theorem setErr_scan (v : Byte) : (s.setErr v).scan = s.scan := rfl
@[simp] theorem setErr_cancel (v : Byte) : (s.setErr v).cancel = s.cancel := rfl
@[simp] theorem setErr_tx (v : Byte) : (s.setErr v).tx = s.tx := rfl
@[simp] theorem setErr_txLen (v : Byte) : (s.setErr v).txLen = s.txLen := rfl
@[simp] theorem setErr_resp (v : Byte) : (s.setErr v).resp = s.resp := rfl
@[simp] theorem setErr_uid (v : Byte) : (s.setErr v).uid = s.uid := rfl
@[simp] theorem setErr_trace (v : Byte) : (s.setErr v).trace = s.trace := rfl
@[simp] theorem setErr_scanning (v : Byte) : (s.setErr v).scanning = s.scanning := rfl
@[simp] theorem setErr_stalled (v : Byte) : (s.setErr v).stalled = s.stalled := rfl
@[simp] theorem setErr_requests (v : Byte) : (s.setErr v).requests = s.requests := rfl
@[simp] theorem setErr_termIn (v : Byte) : (s.setErr v).termIn = s.termIn := rfl
@[simp] theorem setErr_ret (v : Byte) : (s.setErr v).ret = s.ret := rfl
@[simp] theorem setErr_env (v : Byte) : (s.setErr v).env = s.env := rfl

/-! ### setStatus -/

@[simp] theorem setStatus_cfg (st : Status) : (s.setStatus st).cfg = s.cfg := rfl
@[simp] theorem setStatus_isOpen (st : Status) : (s.setStatus st).isOpen = s.isOpen := rfl
@[simp] theorem setStatus_rst (st : Status) : (s.setStatus st).rst = s.rst := rfl
@[simp] theorem setStatus_fault (st : Status) : (s.setStatus st).fault = s.fault := rfl
@[simp] theorem setStatus_cmd (st : Status) : (s.setStatus st).cmd = s.cmd := rfl
@[simp] theorem setStatus_irqEn (st : Status) : (s.setStatus st).irqEn = s.irqEn := rfl
@[simp] theorem setStatus_waitIrq (st : Status) : (s.setStatus st).waitIrq = s.waitIrq := rfl
@[simp] theorem setStatus_cnt (st : Status) : (s.setStatus st).cnt = s.cnt := rfl
@[simp] theorem setStatus_irq (st : Status) : (s.setStatus st).irq = s.irq := rfl
@[simp] theorem setStatus_err (st : Status) : (s.setStatus st).err = s.err := rfl
@[simp] theorem setStatus_n (st : Status) : (s.setStatus st).n = s.n := rfl
@[simp] theorem setStatus_lastBits (st : Status) : (s.setStatus st).lastBits = s.lastBits := rfl
@[simp] theorem setStatus_m (st : Status) : (s.setStatus st).m = s.m := rfl
@[simp] theorem setStatus_i (st : Status) : (s.setStatus st).i = s.i := rfl
@[simp] theorem setStatus_status (st : Status) : (s.setStatus st).status = st := rfl
@[simp] theorem setStatus_respLen (st : Status) : (s.setStatus st).respLen = s.respLen := rfl
@[simp] theorem setStatus_bitlen (st : Status) : (s.setStatus st).bitlen = s.bitlen := rfl
@[simp] theorem setStatus_cause (st : Status) : (s.setStatus st).cause = s.cause := rfl
@[simp] theorem setStatus_pc (st : Status) : (s.setStatus st).pc = s.pc := rfl
@[simp] theorem setStatus_scan (st : Status) : (s.setStatus st).scan = s.scan := rfl
@[simp] theorem setStatus_cancel (st : Status) : (s.setStatus st).cancel = s.cancel := rfl
@[simp] theorem setStatus_tx (st : Status) : (s.setStatus st).tx = s.tx := rfl
@[simp] theorem setStatus_txLen (st : Status) : (s.setStatus st).txLen = s.txLen := rfl
@[simp] theorem setStatus_resp (st : Status) : (s.setStatus st).resp = s.resp := rfl
@[simp] theorem setStatus_uid (st : Status) : (s.setStatus st).uid = s.uid := rfl
@[simp] theorem setStatus_trace (st : Status) : (s.setStatus st).trace = s.trace := rfl
@[simp] theorem setStatus_scanning (st : Status) : (s.setStatus st).scanning = s.scanning := rfl
@[simp] theorem setStatus_stalled (st : Status) : (s.setStatus st).stalled = s.stalled := rfl
@[simp] theorem setStatus_requests (st : Status) : (s.setStatus st).requests = s.requests := rfl
@[simp] theorem setStatus_termIn (st : Status) : (s.setStatus st).termIn = s.termIn := rfl
@[simp] theorem setStatus_ret (st : Status) : (s.setStatus st).ret = s.ret := rfl
@[simp] theorem setStatus_env (st : Status) : (s.setStatus st).env = s.env := rfl

/-! ### setCause -/

@[simp] theorem setCause_cfg (c : Cause) : (s.setCause c).cfg = s.cfg := rfl
@[simp] theorem setCause_isOpen (c : Cause) : (s.setCause c).isOpen = s.isOpen := rfl
@[simp] theorem setCause_rst (c : Cause) : (s.setCause c).rst = s.rst := rfl
@[simp] theorem setCause_fault (c : Cause) : (s.setCause c).fault = s.fault := rfl
@[simp] theorem setCause_cmd (c : Cause) : (s.setCause c).cmd = s.cmd := rfl
@[simp] theorem setCause_irqEn (c : Cause) : (s.setCause c).irqEn = s.irqEn := rfl
@[simp] theorem setCause_waitIrq (c : Cause) : (s.setCause c).waitIrq = s.waitIrq := rfl
@[simp] theorem setCause_cnt (c : Cause) : (s.setCause c).cnt = s.cnt := rfl
@[simp] theorem setCause_irq (c : Cause) : (s.setCause c).irq = s.irq := rfl
@[simp] theorem setCause_err (c : Cause) : (s.setCause c).err = s.err := rfl
@[simp] theorem setCause_n (c : Cause) : (s.setCause c).n = s.n := rfl
@[simp] theorem setCause_lastBits (c : Cause) : (s.setCause c).lastBits = s.lastBits := rfl
@[simp] theorem setCause_m (c : Cause) : (s.setCause c).m = s.m := rfl
@[simp] theorem setCause_i (c : Cause) : (s.setCause c).i = s.i := rfl
@[simp] theorem setCause_status (c : Cause) : (s.setCause c).status = s.status := rfl
@[simp] theorem setCause_respLen (c : Cause) : (s.setCause c).respLen = s.respLen := rfl
@[simp] theorem setCause_bitlen (c : Cause) : (s.setCause c).bitlen = s.bitlen := rfl
@[simp] theorem setCause_cause (c : Cause) : (s.setCause c).cause = c := rfl
@[simp] theorem setCause_pc (c : Cause) : (s.setCause c).pc = s.pc := rfl
@[simp] theorem setCause_scan (c : Cause) : (s.setCause c).scan = s.scan := rfl
@[simp] theorem setCause_cancel (c : Cause) : (s.setCause c).cancel = s.cancel := rfl
@[simp] theorem setCause_tx (c : Cause) : (s.setCause c).tx = s.tx := rfl
@[simp] theorem setCause_txLen (c : Cause) : (s.setCause c).txLen = s.txLen := rfl
@[simp] theorem setCause_resp (c : Cause) : (s.setCause c).resp = s.resp := rfl
@[simp] theorem setCause_uid (c : Cause) : (s.setCause c).uid = s.uid := rfl
@[simp] theorem setCause_trace (c : Cause) : (s.setCause c).trace = s.trace := rfl
@[simp] theorem setCause_scanning (c : Cause) : (s.setCause c).scanning = s.scanning := rfl
@[simp] theorem setCause_stalled (c : Cause) : (s.setCause c).stalled = s.stalled := rfl
@[simp] theorem setCause_requests (c : Cause) : (s.setCause c).requests = s.requests := rfl
@[simp] theorem setCause_termIn (c : Cause) : (s.setCause c).termIn = s.termIn := rfl
@[simp] theorem setCause_ret (c : Cause) : (s.setCause c).ret = s.ret := rfl
@[simp] theorem setCause_env (c : Cause) : (s.setCause c).env = s.env := rfl

/-! ### setLevel -/

@[simp] theorem setLevel_cfg (v : Byte) : (s.setLevel v).cfg = s.cfg := rfl
@[simp] theorem setLevel_isOpen (v : Byte) : (s.setLevel v).isOpen = s.isOpen := rfl
@[simp] theorem setLevel_rst (v : Byte) : (s.setLevel v).rst = s.rst := rfl
@[simp] theorem setLevel_fault (v : Byte) : (s.setLevel v).fault = s.fault := rfl
@[simp] theorem setLevel_cmd (v : Byte) : (s.setLevel v).cmd = s.cmd := rfl
@[simp] theorem setLevel_irqEn (v : Byte) : (s.setLevel v).irqEn = s.irqEn := rfl
@[simp] theorem setLevel_waitIrq (v : Byte) : (s.setLevel v).waitIrq = s.waitIrq := rfl
@[simp] theorem setLevel_cnt (v : Byte) : (s.setLevel v).cnt = s.cnt := rfl
@[simp] theorem setLevel_irq (v : Byte) : (s.setLevel v).irq = s.irq := rfl
@[simp] theorem setLevel_err (v : Byte) : (s.setLevel v).err = s.err := rfl
@[simp] theorem setLevel_n (v : Byte) : (s.setLevel v).n = v := rfl
@[simp] theorem setLevel_lastBits (v : Byte) : (s.setLevel v).lastBits = s.lastBits := rfl
@[simp] theorem setLevel_m (v : Byte) : (s.setLevel v).m = s.m := rfl
@[simp] theorem setLevel_i (v : Byte) : (s.setLevel v).i = s.i := rfl
@[simp] theorem setLevel_status (v : Byte) : (s.setLevel v).status = s.status := rfl
@[simp] theorem setLevel_respLen (v : Byte) : (s.setLevel v).respLen = s.respLen := rfl
@[simp] theorem setLevel_bitlen (v : Byte) : (s.setLevel v).bitlen = s.bitlen := rfl
@[simp] theorem setLevel_cause (v : Byte) : (s.setLevel v).cause = s.cause := rfl
@[simp] theorem setLevel_pc (v : Byte) : (s.setLevel v).pc = s.pc := rfl
@[simp] theorem setLevel_scan (v : Byte) : (s.setLevel v).scan = s.scan := rfl
@[simp] theorem setLevel_cancel (v : Byte) : (s.setLevel v).cancel = s.cancel := rfl
@[simp] theorem setLevel_tx (v : Byte) : (s.setLevel v).tx = s.tx := rfl
@[simp] theorem setLevel_txLen (v : Byte) : (s.setLevel v).txLen = s.txLen := rfl
@[simp] theorem setLevel_resp (v : Byte) : (s.setLevel v).resp = s.resp := rfl
@[simp] theorem setLevel_uid (v : Byte) : (s.setLevel v).uid = s.uid := rfl
@[simp] theorem setLevel_trace (v : Byte) : (s.setLevel v).trace = s.trace := rfl
@[simp] theorem setLevel_scanning (v : Byte) : (s.setLevel v).scanning = s.scanning := rfl
@[simp] theorem setLevel_stalled (v : Byte) : (s.setLevel v).stalled = s.stalled := rfl
@[simp] theorem setLevel_requests (v : Byte) : (s.setLevel v).requests = s.requests := rfl
@[simp] theorem setLevel_termIn (v : Byte) : (s.setLevel v).termIn = s.termIn := rfl
@[simp] theorem setLevel_ret (v : Byte) : (s.setLevel v).ret = s.ret := rfl
@[simp] theorem setLevel_env (v : Byte) : (s.setLevel v).env = s.env := rfl

/-! ### measure -/

@[simp] theorem measure_cfg (v : Byte) : (s.measure v).cfg = s.cfg := rfl
@[simp] theorem measure_isOpen (v : Byte) : (s.measure v).isOpen = s.isOpen := rfl
@[simp] theorem measure_rst (v : Byte) : (s.measure v).rst = s.rst := rfl
@[simp] theorem measure_fault (v : Byte) : (s.measure v).fault = s.fault := rfl
@[simp] theorem measure_cmd (v : Byte) : (s.measure v).cmd = s.cmd := rfl
@[simp] theorem measure_irqEn (v : Byte) : (s.measure v).irqEn = s.irqEn := rfl
@[simp] theorem measure_waitIrq (v : Byte) : (s.measure v).waitIrq = s.waitIrq := rfl
@[simp] theorem measure_cnt (v : Byte) : (s.measure v).cnt = s.cnt := rfl
@[simp] theorem measure_irq (v : Byte) : (s.measure v).irq = s.irq := rfl
@[simp] theorem measure_err (v : Byte) : (s.measure v).err = s.err := rfl
@[simp] theorem measure_n (v : Byte) : (s.measure v).n = s.n := rfl
@[simp] theorem measure_lastBits (v : Byte) : (s.measure v).lastBits = lastBitsOf v := rfl
@[simp] theorem measure_m (v : Byte) : (s.measure v).m = BitVec.ofNat 5 (drainCount s.n) := rfl
@[simp] theorem measure_i (v : Byte) : (s.measure v).i = s.i := rfl
@[simp] theorem measure_status (v : Byte) : (s.measure v).status = s.status := rfl
@[simp] theorem measure_respLen (v : Byte) : (s.measure v).respLen = s.respLen := rfl
@[simp] theorem measure_bitlen (v : Byte) : (s.measure v).bitlen = bitLengthReg s.n (lastBitsOf v) := rfl
@[simp] theorem measure_cause (v : Byte) : (s.measure v).cause = s.cause := rfl
@[simp] theorem measure_pc (v : Byte) : (s.measure v).pc = s.pc := rfl
@[simp] theorem measure_scan (v : Byte) : (s.measure v).scan = s.scan := rfl
@[simp] theorem measure_cancel (v : Byte) : (s.measure v).cancel = s.cancel := rfl
@[simp] theorem measure_tx (v : Byte) : (s.measure v).tx = s.tx := rfl
@[simp] theorem measure_txLen (v : Byte) : (s.measure v).txLen = s.txLen := rfl
@[simp] theorem measure_resp (v : Byte) : (s.measure v).resp = s.resp := rfl
@[simp] theorem measure_uid (v : Byte) : (s.measure v).uid = s.uid := rfl
@[simp] theorem measure_trace (v : Byte) : (s.measure v).trace = s.trace := rfl
@[simp] theorem measure_scanning (v : Byte) : (s.measure v).scanning = s.scanning := rfl
@[simp] theorem measure_stalled (v : Byte) : (s.measure v).stalled = s.stalled := rfl
@[simp] theorem measure_requests (v : Byte) : (s.measure v).requests = s.requests := rfl
@[simp] theorem measure_termIn (v : Byte) : (s.measure v).termIn = s.termIn := rfl
@[simp] theorem measure_ret (v : Byte) : (s.measure v).ret = s.ret := rfl
@[simp] theorem measure_env (v : Byte) : (s.measure v).env = s.env := rfl

/-! ### pushResp -/

@[simp] theorem pushResp_cfg (v : Byte) : (s.pushResp v).cfg = s.cfg := rfl
@[simp] theorem pushResp_isOpen (v : Byte) : (s.pushResp v).isOpen = s.isOpen := rfl
@[simp] theorem pushResp_rst (v : Byte) : (s.pushResp v).rst = s.rst := rfl
@[simp] theorem pushResp_fault (v : Byte) : (s.pushResp v).fault = s.fault := rfl
@[simp] theorem pushResp_cmd (v : Byte) : (s.pushResp v).cmd = s.cmd := rfl
@[simp] theorem pushResp_irqEn (v : Byte) : (s.pushResp v).irqEn = s.irqEn := rfl
@[simp] theorem pushResp_waitIrq (v : Byte) : (s.pushResp v).waitIrq = s.waitIrq := rfl
@[simp] theorem pushResp_cnt (v : Byte) : (s.pushResp v).cnt = s.cnt := rfl
@[simp] theorem pushResp_irq (v : Byte) : (s.pushResp v).irq = s.irq := rfl
@[simp] theorem pushResp_err (v : Byte) : (s.pushResp v).err = s.err := rfl
@[simp] theorem pushResp_n (v : Byte) : (s.pushResp v).n = s.n := rfl
@[simp] theorem pushResp_lastBits (v : Byte) : (s.pushResp v).lastBits = s.lastBits := rfl
@[simp] theorem pushResp_m (v : Byte) : (s.pushResp v).m = s.m := rfl
@[simp] theorem pushResp_i (v : Byte) : (s.pushResp v).i = s.i + 1 := rfl
@[simp] theorem pushResp_status (v : Byte) : (s.pushResp v).status = s.status := rfl
@[simp] theorem pushResp_respLen (v : Byte) : (s.pushResp v).respLen = s.respLen := rfl
@[simp] theorem pushResp_bitlen (v : Byte) : (s.pushResp v).bitlen = s.bitlen := rfl
@[simp] theorem pushResp_cause (v : Byte) : (s.pushResp v).cause = s.cause := rfl
@[simp] theorem pushResp_pc (v : Byte) : (s.pushResp v).pc = s.pc := rfl
@[simp] theorem pushResp_scan (v : Byte) : (s.pushResp v).scan = s.scan := rfl
@[simp] theorem pushResp_cancel (v : Byte) : (s.pushResp v).cancel = s.cancel := rfl
@[simp] theorem pushResp_tx (v : Byte) : (s.pushResp v).tx = s.tx := rfl
@[simp] theorem pushResp_txLen (v : Byte) : (s.pushResp v).txLen = s.txLen := rfl
@[simp] theorem pushResp_resp (v : Byte) : (s.pushResp v).resp = s.resp.setIfInBounds s.i.toNat v := rfl
@[simp] theorem pushResp_uid (v : Byte) : (s.pushResp v).uid = s.uid := rfl
@[simp] theorem pushResp_trace (v : Byte) : (s.pushResp v).trace = s.trace := rfl
@[simp] theorem pushResp_scanning (v : Byte) : (s.pushResp v).scanning = s.scanning := rfl
@[simp] theorem pushResp_stalled (v : Byte) : (s.pushResp v).stalled = s.stalled := rfl
@[simp] theorem pushResp_requests (v : Byte) : (s.pushResp v).requests = s.requests := rfl
@[simp] theorem pushResp_termIn (v : Byte) : (s.pushResp v).termIn = s.termIn := rfl
@[simp] theorem pushResp_ret (v : Byte) : (s.pushResp v).ret = s.ret := rfl
@[simp] theorem pushResp_env (v : Byte) : (s.pushResp v).env = s.env := rfl

/-! ### closeResp -/

@[simp] theorem closeResp_cfg : (s.closeResp).cfg = s.cfg := rfl
@[simp] theorem closeResp_isOpen : (s.closeResp).isOpen = s.isOpen := rfl
@[simp] theorem closeResp_rst : (s.closeResp).rst = s.rst := rfl
@[simp] theorem closeResp_fault : (s.closeResp).fault = s.fault := rfl
@[simp] theorem closeResp_cmd : (s.closeResp).cmd = s.cmd := rfl
@[simp] theorem closeResp_irqEn : (s.closeResp).irqEn = s.irqEn := rfl
@[simp] theorem closeResp_waitIrq : (s.closeResp).waitIrq = s.waitIrq := rfl
@[simp] theorem closeResp_cnt : (s.closeResp).cnt = s.cnt := rfl
@[simp] theorem closeResp_irq : (s.closeResp).irq = s.irq := rfl
@[simp] theorem closeResp_err : (s.closeResp).err = s.err := rfl
@[simp] theorem closeResp_n : (s.closeResp).n = s.n := rfl
@[simp] theorem closeResp_lastBits : (s.closeResp).lastBits = s.lastBits := rfl
@[simp] theorem closeResp_m : (s.closeResp).m = s.m := rfl
@[simp] theorem closeResp_i : (s.closeResp).i = s.i := rfl
@[simp] theorem closeResp_status : (s.closeResp).status = s.status := rfl
@[simp] theorem closeResp_respLen : (s.closeResp).respLen = s.m := rfl
@[simp] theorem closeResp_bitlen : (s.closeResp).bitlen = s.bitlen := rfl
@[simp] theorem closeResp_cause : (s.closeResp).cause = s.cause := rfl
@[simp] theorem closeResp_pc : (s.closeResp).pc = s.pc := rfl
@[simp] theorem closeResp_scan : (s.closeResp).scan = s.scan := rfl
@[simp] theorem closeResp_cancel : (s.closeResp).cancel = s.cancel := rfl
@[simp] theorem closeResp_tx : (s.closeResp).tx = s.tx := rfl
@[simp] theorem closeResp_txLen : (s.closeResp).txLen = s.txLen := rfl
@[simp] theorem closeResp_resp : (s.closeResp).resp = s.resp := rfl
@[simp] theorem closeResp_uid : (s.closeResp).uid = s.uid := rfl
@[simp] theorem closeResp_trace : (s.closeResp).trace = s.trace := rfl
@[simp] theorem closeResp_scanning : (s.closeResp).scanning = s.scanning := rfl
@[simp] theorem closeResp_stalled : (s.closeResp).stalled = s.stalled := rfl
@[simp] theorem closeResp_requests : (s.closeResp).requests = s.requests := rfl
@[simp] theorem closeResp_termIn : (s.closeResp).termIn = s.termIn := rfl
@[simp] theorem closeResp_ret : (s.closeResp).ret = s.ret := rfl
@[simp] theorem closeResp_env : (s.closeResp).env = s.env := rfl

/-! ### setUid -/

@[simp] theorem setUid_cfg (u : Uid) : (s.setUid u).cfg = s.cfg := rfl
@[simp] theorem setUid_isOpen (u : Uid) : (s.setUid u).isOpen = s.isOpen := rfl
@[simp] theorem setUid_rst (u : Uid) : (s.setUid u).rst = s.rst := rfl
@[simp] theorem setUid_fault (u : Uid) : (s.setUid u).fault = s.fault := rfl
@[simp] theorem setUid_cmd (u : Uid) : (s.setUid u).cmd = s.cmd := rfl
@[simp] theorem setUid_irqEn (u : Uid) : (s.setUid u).irqEn = s.irqEn := rfl
@[simp] theorem setUid_waitIrq (u : Uid) : (s.setUid u).waitIrq = s.waitIrq := rfl
@[simp] theorem setUid_cnt (u : Uid) : (s.setUid u).cnt = s.cnt := rfl
@[simp] theorem setUid_irq (u : Uid) : (s.setUid u).irq = s.irq := rfl
@[simp] theorem setUid_err (u : Uid) : (s.setUid u).err = s.err := rfl
@[simp] theorem setUid_n (u : Uid) : (s.setUid u).n = s.n := rfl
@[simp] theorem setUid_lastBits (u : Uid) : (s.setUid u).lastBits = s.lastBits := rfl
@[simp] theorem setUid_m (u : Uid) : (s.setUid u).m = s.m := rfl
@[simp] theorem setUid_i (u : Uid) : (s.setUid u).i = s.i := rfl
@[simp] theorem setUid_status (u : Uid) : (s.setUid u).status = s.status := rfl
@[simp] theorem setUid_respLen (u : Uid) : (s.setUid u).respLen = s.respLen := rfl
@[simp] theorem setUid_bitlen (u : Uid) : (s.setUid u).bitlen = s.bitlen := rfl
@[simp] theorem setUid_cause (u : Uid) : (s.setUid u).cause = s.cause := rfl
@[simp] theorem setUid_pc (u : Uid) : (s.setUid u).pc = s.pc := rfl
@[simp] theorem setUid_scan (u : Uid) : (s.setUid u).scan = s.scan := rfl
@[simp] theorem setUid_cancel (u : Uid) : (s.setUid u).cancel = s.cancel := rfl
@[simp] theorem setUid_tx (u : Uid) : (s.setUid u).tx = s.tx := rfl
@[simp] theorem setUid_txLen (u : Uid) : (s.setUid u).txLen = s.txLen := rfl
@[simp] theorem setUid_resp (u : Uid) : (s.setUid u).resp = s.resp := rfl
@[simp] theorem setUid_uid (u : Uid) : (s.setUid u).uid = u := rfl
@[simp] theorem setUid_trace (u : Uid) : (s.setUid u).trace = s.trace := rfl
@[simp] theorem setUid_scanning (u : Uid) : (s.setUid u).scanning = s.scanning := rfl
@[simp] theorem setUid_stalled (u : Uid) : (s.setUid u).stalled = s.stalled := rfl
@[simp] theorem setUid_requests (u : Uid) : (s.setUid u).requests = s.requests := rfl
@[simp] theorem setUid_termIn (u : Uid) : (s.setUid u).termIn = s.termIn := rfl
@[simp] theorem setUid_ret (u : Uid) : (s.setUid u).ret = s.ret := rfl
@[simp] theorem setUid_env (u : Uid) : (s.setUid u).env = s.env := rfl

/-! ### setScan -/

@[simp] theorem setScan_cfg (c : ScanState) : (s.setScan c).cfg = s.cfg := rfl
@[simp] theorem setScan_isOpen (c : ScanState) : (s.setScan c).isOpen = s.isOpen := rfl
@[simp] theorem setScan_rst (c : ScanState) : (s.setScan c).rst = s.rst := rfl
@[simp] theorem setScan_fault (c : ScanState) : (s.setScan c).fault = s.fault := rfl
@[simp] theorem setScan_cmd (c : ScanState) : (s.setScan c).cmd = s.cmd := rfl
@[simp] theorem setScan_irqEn (c : ScanState) : (s.setScan c).irqEn = s.irqEn := rfl
@[simp] theorem setScan_waitIrq (c : ScanState) : (s.setScan c).waitIrq = s.waitIrq := rfl
@[simp] theorem setScan_cnt (c : ScanState) : (s.setScan c).cnt = s.cnt := rfl
@[simp] theorem setScan_irq (c : ScanState) : (s.setScan c).irq = s.irq := rfl
@[simp] theorem setScan_err (c : ScanState) : (s.setScan c).err = s.err := rfl
@[simp] theorem setScan_n (c : ScanState) : (s.setScan c).n = s.n := rfl
@[simp] theorem setScan_lastBits (c : ScanState) : (s.setScan c).lastBits = s.lastBits := rfl
@[simp] theorem setScan_m (c : ScanState) : (s.setScan c).m = s.m := rfl
@[simp] theorem setScan_i (c : ScanState) : (s.setScan c).i = s.i := rfl
@[simp] theorem setScan_status (c : ScanState) : (s.setScan c).status = s.status := rfl
@[simp] theorem setScan_respLen (c : ScanState) : (s.setScan c).respLen = s.respLen := rfl
@[simp] theorem setScan_bitlen (c : ScanState) : (s.setScan c).bitlen = s.bitlen := rfl
@[simp] theorem setScan_cause (c : ScanState) : (s.setScan c).cause = s.cause := rfl
@[simp] theorem setScan_pc (c : ScanState) : (s.setScan c).pc = s.pc := rfl
@[simp] theorem setScan_scan (c : ScanState) : (s.setScan c).scan = c := rfl
@[simp] theorem setScan_cancel (c : ScanState) : (s.setScan c).cancel = s.cancel := rfl
@[simp] theorem setScan_tx (c : ScanState) : (s.setScan c).tx = s.tx := rfl
@[simp] theorem setScan_txLen (c : ScanState) : (s.setScan c).txLen = s.txLen := rfl
@[simp] theorem setScan_resp (c : ScanState) : (s.setScan c).resp = s.resp := rfl
@[simp] theorem setScan_uid (c : ScanState) : (s.setScan c).uid = s.uid := rfl
@[simp] theorem setScan_trace (c : ScanState) : (s.setScan c).trace = s.trace := rfl
@[simp] theorem setScan_scanning (c : ScanState) : (s.setScan c).scanning = s.scanning := rfl
@[simp] theorem setScan_stalled (c : ScanState) : (s.setScan c).stalled = s.stalled := rfl
@[simp] theorem setScan_requests (c : ScanState) : (s.setScan c).requests = s.requests := rfl
@[simp] theorem setScan_termIn (c : ScanState) : (s.setScan c).termIn = s.termIn := rfl
@[simp] theorem setScan_ret (c : ScanState) : (s.setScan c).ret = s.ret := rfl
@[simp] theorem setScan_env (c : ScanState) : (s.setScan c).env = s.env := rfl

/-! ### setScanning -/

@[simp] theorem setScanning_cfg (b : Bool) : (s.setScanning b).cfg = s.cfg := rfl
@[simp] theorem setScanning_isOpen (b : Bool) : (s.setScanning b).isOpen = s.isOpen := rfl
@[simp] theorem setScanning_rst (b : Bool) : (s.setScanning b).rst = s.rst := rfl
@[simp] theorem setScanning_fault (b : Bool) : (s.setScanning b).fault = s.fault := rfl
@[simp] theorem setScanning_cmd (b : Bool) : (s.setScanning b).cmd = s.cmd := rfl
@[simp] theorem setScanning_irqEn (b : Bool) : (s.setScanning b).irqEn = s.irqEn := rfl
@[simp] theorem setScanning_waitIrq (b : Bool) : (s.setScanning b).waitIrq = s.waitIrq := rfl
@[simp] theorem setScanning_cnt (b : Bool) : (s.setScanning b).cnt = s.cnt := rfl
@[simp] theorem setScanning_irq (b : Bool) : (s.setScanning b).irq = s.irq := rfl
@[simp] theorem setScanning_err (b : Bool) : (s.setScanning b).err = s.err := rfl
@[simp] theorem setScanning_n (b : Bool) : (s.setScanning b).n = s.n := rfl
@[simp] theorem setScanning_lastBits (b : Bool) : (s.setScanning b).lastBits = s.lastBits := rfl
@[simp] theorem setScanning_m (b : Bool) : (s.setScanning b).m = s.m := rfl
@[simp] theorem setScanning_i (b : Bool) : (s.setScanning b).i = s.i := rfl
@[simp] theorem setScanning_status (b : Bool) : (s.setScanning b).status = s.status := rfl
@[simp] theorem setScanning_respLen (b : Bool) : (s.setScanning b).respLen = s.respLen := rfl
@[simp] theorem setScanning_bitlen (b : Bool) : (s.setScanning b).bitlen = s.bitlen := rfl
@[simp] theorem setScanning_cause (b : Bool) : (s.setScanning b).cause = s.cause := rfl
@[simp] theorem setScanning_pc (b : Bool) : (s.setScanning b).pc = s.pc := rfl
@[simp] theorem setScanning_scan (b : Bool) : (s.setScanning b).scan = s.scan := rfl
@[simp] theorem setScanning_cancel (b : Bool) : (s.setScanning b).cancel = s.cancel := rfl
@[simp] theorem setScanning_tx (b : Bool) : (s.setScanning b).tx = s.tx := rfl
@[simp] theorem setScanning_txLen (b : Bool) : (s.setScanning b).txLen = s.txLen := rfl
@[simp] theorem setScanning_resp (b : Bool) : (s.setScanning b).resp = s.resp := rfl
@[simp] theorem setScanning_uid (b : Bool) : (s.setScanning b).uid = s.uid := rfl
@[simp] theorem setScanning_trace (b : Bool) : (s.setScanning b).trace = s.trace := rfl
@[simp] theorem setScanning_scanning (b : Bool) : (s.setScanning b).scanning = b := rfl
@[simp] theorem setScanning_stalled (b : Bool) : (s.setScanning b).stalled = s.stalled := rfl
@[simp] theorem setScanning_requests (b : Bool) : (s.setScanning b).requests = s.requests := rfl
@[simp] theorem setScanning_termIn (b : Bool) : (s.setScanning b).termIn = s.termIn := rfl
@[simp] theorem setScanning_ret (b : Bool) : (s.setScanning b).ret = s.ret := rfl
@[simp] theorem setScanning_env (b : Bool) : (s.setScanning b).env = s.env := rfl

/-! ### setRst -/

@[simp] theorem setRst_cfg (r : RstLevel) : (s.setRst r).cfg = s.cfg := rfl
@[simp] theorem setRst_isOpen (r : RstLevel) : (s.setRst r).isOpen = s.isOpen := rfl
@[simp] theorem setRst_rst (r : RstLevel) : (s.setRst r).rst = r := rfl
@[simp] theorem setRst_fault (r : RstLevel) : (s.setRst r).fault = s.fault := rfl
@[simp] theorem setRst_cmd (r : RstLevel) : (s.setRst r).cmd = s.cmd := rfl
@[simp] theorem setRst_irqEn (r : RstLevel) : (s.setRst r).irqEn = s.irqEn := rfl
@[simp] theorem setRst_waitIrq (r : RstLevel) : (s.setRst r).waitIrq = s.waitIrq := rfl
@[simp] theorem setRst_cnt (r : RstLevel) : (s.setRst r).cnt = s.cnt := rfl
@[simp] theorem setRst_irq (r : RstLevel) : (s.setRst r).irq = s.irq := rfl
@[simp] theorem setRst_err (r : RstLevel) : (s.setRst r).err = s.err := rfl
@[simp] theorem setRst_n (r : RstLevel) : (s.setRst r).n = s.n := rfl
@[simp] theorem setRst_lastBits (r : RstLevel) : (s.setRst r).lastBits = s.lastBits := rfl
@[simp] theorem setRst_m (r : RstLevel) : (s.setRst r).m = s.m := rfl
@[simp] theorem setRst_i (r : RstLevel) : (s.setRst r).i = s.i := rfl
@[simp] theorem setRst_status (r : RstLevel) : (s.setRst r).status = s.status := rfl
@[simp] theorem setRst_respLen (r : RstLevel) : (s.setRst r).respLen = s.respLen := rfl
@[simp] theorem setRst_bitlen (r : RstLevel) : (s.setRst r).bitlen = s.bitlen := rfl
@[simp] theorem setRst_cause (r : RstLevel) : (s.setRst r).cause = s.cause := rfl
@[simp] theorem setRst_pc (r : RstLevel) : (s.setRst r).pc = s.pc := rfl
@[simp] theorem setRst_scan (r : RstLevel) : (s.setRst r).scan = s.scan := rfl
@[simp] theorem setRst_cancel (r : RstLevel) : (s.setRst r).cancel = s.cancel := rfl
@[simp] theorem setRst_tx (r : RstLevel) : (s.setRst r).tx = s.tx := rfl
@[simp] theorem setRst_txLen (r : RstLevel) : (s.setRst r).txLen = s.txLen := rfl
@[simp] theorem setRst_resp (r : RstLevel) : (s.setRst r).resp = s.resp := rfl
@[simp] theorem setRst_uid (r : RstLevel) : (s.setRst r).uid = s.uid := rfl
@[simp] theorem setRst_trace (r : RstLevel) : (s.setRst r).trace = s.trace := rfl
@[simp] theorem setRst_scanning (r : RstLevel) : (s.setRst r).scanning = s.scanning := rfl
@[simp] theorem setRst_stalled (r : RstLevel) : (s.setRst r).stalled = s.stalled := rfl
@[simp] theorem setRst_requests (r : RstLevel) : (s.setRst r).requests = s.requests := rfl
@[simp] theorem setRst_termIn (r : RstLevel) : (s.setRst r).termIn = s.termIn := rfl
@[simp] theorem setRst_ret (r : RstLevel) : (s.setRst r).ret = s.ret := rfl
@[simp] theorem setRst_env (r : RstLevel) : (s.setRst r).env = s.env := rfl

/-! ### setOpen -/

@[simp] theorem setOpen_cfg (b : Bool) : (s.setOpen b).cfg = s.cfg := rfl
@[simp] theorem setOpen_isOpen (b : Bool) : (s.setOpen b).isOpen = b := rfl
@[simp] theorem setOpen_rst (b : Bool) : (s.setOpen b).rst = s.rst := rfl
@[simp] theorem setOpen_fault (b : Bool) : (s.setOpen b).fault = s.fault := rfl
@[simp] theorem setOpen_cmd (b : Bool) : (s.setOpen b).cmd = s.cmd := rfl
@[simp] theorem setOpen_irqEn (b : Bool) : (s.setOpen b).irqEn = s.irqEn := rfl
@[simp] theorem setOpen_waitIrq (b : Bool) : (s.setOpen b).waitIrq = s.waitIrq := rfl
@[simp] theorem setOpen_cnt (b : Bool) : (s.setOpen b).cnt = s.cnt := rfl
@[simp] theorem setOpen_irq (b : Bool) : (s.setOpen b).irq = s.irq := rfl
@[simp] theorem setOpen_err (b : Bool) : (s.setOpen b).err = s.err := rfl
@[simp] theorem setOpen_n (b : Bool) : (s.setOpen b).n = s.n := rfl
@[simp] theorem setOpen_lastBits (b : Bool) : (s.setOpen b).lastBits = s.lastBits := rfl
@[simp] theorem setOpen_m (b : Bool) : (s.setOpen b).m = s.m := rfl
@[simp] theorem setOpen_i (b : Bool) : (s.setOpen b).i = s.i := rfl
@[simp] theorem setOpen_status (b : Bool) : (s.setOpen b).status = s.status := rfl
@[simp] theorem setOpen_respLen (b : Bool) : (s.setOpen b).respLen = s.respLen := rfl
@[simp] theorem setOpen_bitlen (b : Bool) : (s.setOpen b).bitlen = s.bitlen := rfl
@[simp] theorem setOpen_cause (b : Bool) : (s.setOpen b).cause = s.cause := rfl
@[simp] theorem setOpen_pc (b : Bool) : (s.setOpen b).pc = s.pc := rfl
@[simp] theorem setOpen_scan (b : Bool) : (s.setOpen b).scan = s.scan := rfl
@[simp] theorem setOpen_cancel (b : Bool) : (s.setOpen b).cancel = s.cancel := rfl
@[simp] theorem setOpen_tx (b : Bool) : (s.setOpen b).tx = s.tx := rfl
@[simp] theorem setOpen_txLen (b : Bool) : (s.setOpen b).txLen = s.txLen := rfl
@[simp] theorem setOpen_resp (b : Bool) : (s.setOpen b).resp = s.resp := rfl
@[simp] theorem setOpen_uid (b : Bool) : (s.setOpen b).uid = s.uid := rfl
@[simp] theorem setOpen_trace (b : Bool) : (s.setOpen b).trace = s.trace := rfl
@[simp] theorem setOpen_scanning (b : Bool) : (s.setOpen b).scanning = s.scanning := rfl
@[simp] theorem setOpen_stalled (b : Bool) : (s.setOpen b).stalled = s.stalled := rfl
@[simp] theorem setOpen_requests (b : Bool) : (s.setOpen b).requests = s.requests := rfl
@[simp] theorem setOpen_termIn (b : Bool) : (s.setOpen b).termIn = s.termIn := rfl
@[simp] theorem setOpen_ret (b : Bool) : (s.setOpen b).ret = s.ret := rfl
@[simp] theorem setOpen_env (b : Bool) : (s.setOpen b).env = s.env := rfl

/-! ### closeHandle -/

@[simp] theorem closeHandle_cfg : (s.closeHandle).cfg = s.cfg := rfl
@[simp] theorem closeHandle_isOpen : (s.closeHandle).isOpen = false := rfl
@[simp] theorem closeHandle_rst : (s.closeHandle).rst = .released := rfl
@[simp] theorem closeHandle_fault : (s.closeHandle).fault = s.fault := rfl
@[simp] theorem closeHandle_cmd : (s.closeHandle).cmd = s.cmd := rfl
@[simp] theorem closeHandle_irqEn : (s.closeHandle).irqEn = s.irqEn := rfl
@[simp] theorem closeHandle_waitIrq : (s.closeHandle).waitIrq = s.waitIrq := rfl
@[simp] theorem closeHandle_cnt : (s.closeHandle).cnt = s.cnt := rfl
@[simp] theorem closeHandle_irq : (s.closeHandle).irq = s.irq := rfl
@[simp] theorem closeHandle_err : (s.closeHandle).err = s.err := rfl
@[simp] theorem closeHandle_n : (s.closeHandle).n = s.n := rfl
@[simp] theorem closeHandle_lastBits : (s.closeHandle).lastBits = s.lastBits := rfl
@[simp] theorem closeHandle_m : (s.closeHandle).m = s.m := rfl
@[simp] theorem closeHandle_i : (s.closeHandle).i = s.i := rfl
@[simp] theorem closeHandle_status : (s.closeHandle).status = s.status := rfl
@[simp] theorem closeHandle_respLen : (s.closeHandle).respLen = s.respLen := rfl
@[simp] theorem closeHandle_bitlen : (s.closeHandle).bitlen = s.bitlen := rfl
@[simp] theorem closeHandle_cause : (s.closeHandle).cause = s.cause := rfl
@[simp] theorem closeHandle_pc : (s.closeHandle).pc = s.pc := rfl
@[simp] theorem closeHandle_scan : (s.closeHandle).scan = s.scan := rfl
@[simp] theorem closeHandle_cancel : (s.closeHandle).cancel = s.cancel := rfl
@[simp] theorem closeHandle_tx : (s.closeHandle).tx = s.tx := rfl
@[simp] theorem closeHandle_txLen : (s.closeHandle).txLen = s.txLen := rfl
@[simp] theorem closeHandle_resp : (s.closeHandle).resp = s.resp := rfl
@[simp] theorem closeHandle_uid : (s.closeHandle).uid = s.uid := rfl
@[simp] theorem closeHandle_trace : (s.closeHandle).trace = s.trace ++ [.busClose] ++ [.rstRel] := rfl
@[simp] theorem closeHandle_scanning : (s.closeHandle).scanning = s.scanning := rfl
@[simp] theorem closeHandle_stalled : (s.closeHandle).stalled = s.stalled := rfl
@[simp] theorem closeHandle_requests : (s.closeHandle).requests = s.requests := rfl
@[simp] theorem closeHandle_termIn : (s.closeHandle).termIn = s.termIn := rfl
@[simp] theorem closeHandle_ret : (s.closeHandle).ret = s.ret := rfl
@[simp] theorem closeHandle_env : (s.closeHandle).env = s.env := rfl

/-! ### endScan -/

@[simp] theorem endScan_cfg : (s.endScan).cfg = s.cfg := rfl
@[simp] theorem endScan_isOpen : (s.endScan).isOpen = false := rfl
@[simp] theorem endScan_rst : (s.endScan).rst = .released := rfl
@[simp] theorem endScan_fault : (s.endScan).fault = s.fault := rfl
@[simp] theorem endScan_cmd : (s.endScan).cmd = s.cmd := rfl
@[simp] theorem endScan_irqEn : (s.endScan).irqEn = s.irqEn := rfl
@[simp] theorem endScan_waitIrq : (s.endScan).waitIrq = s.waitIrq := rfl
@[simp] theorem endScan_cnt : (s.endScan).cnt = s.cnt := rfl
@[simp] theorem endScan_irq : (s.endScan).irq = s.irq := rfl
@[simp] theorem endScan_err : (s.endScan).err = s.err := rfl
@[simp] theorem endScan_n : (s.endScan).n = s.n := rfl
@[simp] theorem endScan_lastBits : (s.endScan).lastBits = s.lastBits := rfl
@[simp] theorem endScan_m : (s.endScan).m = s.m := rfl
@[simp] theorem endScan_i : (s.endScan).i = s.i := rfl
@[simp] theorem endScan_status : (s.endScan).status = s.status := rfl
@[simp] theorem endScan_respLen : (s.endScan).respLen = s.respLen := rfl
@[simp] theorem endScan_bitlen : (s.endScan).bitlen = s.bitlen := rfl
@[simp] theorem endScan_cause : (s.endScan).cause = s.cause := rfl
@[simp] theorem endScan_pc : (s.endScan).pc = s.pc := rfl
@[simp] theorem endScan_scan : (s.endScan).scan = .shutdown := rfl
@[simp] theorem endScan_cancel : (s.endScan).cancel = s.cancel := rfl
@[simp] theorem endScan_tx : (s.endScan).tx = s.tx := rfl
@[simp] theorem endScan_txLen : (s.endScan).txLen = s.txLen := rfl
@[simp] theorem endScan_resp : (s.endScan).resp = s.resp := rfl
@[simp] theorem endScan_uid : (s.endScan).uid = s.uid := rfl
@[simp] theorem endScan_trace : (s.endScan).trace = s.trace ++ [.outRel] ++ [.busClose] ++ [.rstRel] := rfl
@[simp] theorem endScan_scanning : (s.endScan).scanning = false := rfl
@[simp] theorem endScan_stalled : (s.endScan).stalled = s.stalled := rfl
@[simp] theorem endScan_requests : (s.endScan).requests = s.requests := rfl
@[simp] theorem endScan_termIn : (s.endScan).termIn = s.termIn := rfl
@[simp] theorem endScan_ret : (s.endScan).ret = .nothing := rfl
@[simp] theorem endScan_env : (s.endScan).env = s.env := rfl

/-! ### withRequests -/

@[simp] theorem withRequests_cfg (rs : List Request) : (s.withRequests rs).cfg = s.cfg := rfl
@[simp] theorem withRequests_isOpen (rs : List Request) : (s.withRequests rs).isOpen = s.isOpen := rfl
@[simp] theorem withRequests_rst (rs : List Request) : (s.withRequests rs).rst = s.rst := rfl
@[simp] theorem withRequests_fault (rs : List Request) : (s.withRequests rs).fault = s.fault := rfl
@[simp] theorem withRequests_cmd (rs : List Request) : (s.withRequests rs).cmd = s.cmd := rfl
@[simp] theorem withRequests_irqEn (rs : List Request) : (s.withRequests rs).irqEn = s.irqEn := rfl
@[simp] theorem withRequests_waitIrq (rs : List Request) : (s.withRequests rs).waitIrq = s.waitIrq := rfl
@[simp] theorem withRequests_cnt (rs : List Request) : (s.withRequests rs).cnt = s.cnt := rfl
@[simp] theorem withRequests_irq (rs : List Request) : (s.withRequests rs).irq = s.irq := rfl
@[simp] theorem withRequests_err (rs : List Request) : (s.withRequests rs).err = s.err := rfl
@[simp] theorem withRequests_n (rs : List Request) : (s.withRequests rs).n = s.n := rfl
@[simp] theorem withRequests_lastBits (rs : List Request) : (s.withRequests rs).lastBits = s.lastBits := rfl
@[simp] theorem withRequests_m (rs : List Request) : (s.withRequests rs).m = s.m := rfl
@[simp] theorem withRequests_i (rs : List Request) : (s.withRequests rs).i = s.i := rfl
@[simp] theorem withRequests_status (rs : List Request) : (s.withRequests rs).status = s.status := rfl
@[simp] theorem withRequests_respLen (rs : List Request) : (s.withRequests rs).respLen = s.respLen := rfl
@[simp] theorem withRequests_bitlen (rs : List Request) : (s.withRequests rs).bitlen = s.bitlen := rfl
@[simp] theorem withRequests_cause (rs : List Request) : (s.withRequests rs).cause = s.cause := rfl
@[simp] theorem withRequests_pc (rs : List Request) : (s.withRequests rs).pc = s.pc := rfl
@[simp] theorem withRequests_scan (rs : List Request) : (s.withRequests rs).scan = s.scan := rfl
@[simp] theorem withRequests_cancel (rs : List Request) : (s.withRequests rs).cancel = s.cancel := rfl
@[simp] theorem withRequests_tx (rs : List Request) : (s.withRequests rs).tx = s.tx := rfl
@[simp] theorem withRequests_txLen (rs : List Request) : (s.withRequests rs).txLen = s.txLen := rfl
@[simp] theorem withRequests_resp (rs : List Request) : (s.withRequests rs).resp = s.resp := rfl
@[simp] theorem withRequests_uid (rs : List Request) : (s.withRequests rs).uid = s.uid := rfl
@[simp] theorem withRequests_trace (rs : List Request) : (s.withRequests rs).trace = s.trace := rfl
@[simp] theorem withRequests_scanning (rs : List Request) : (s.withRequests rs).scanning = s.scanning := rfl
@[simp] theorem withRequests_stalled (rs : List Request) : (s.withRequests rs).stalled = s.stalled := rfl
@[simp] theorem withRequests_requests (rs : List Request) : (s.withRequests rs).requests = rs := rfl
@[simp] theorem withRequests_termIn (rs : List Request) : (s.withRequests rs).termIn = s.termIn := rfl
@[simp] theorem withRequests_ret (rs : List Request) : (s.withRequests rs).ret = s.ret := rfl
@[simp] theorem withRequests_env (rs : List Request) : (s.withRequests rs).env = s.env := rfl

/-! ### placeRequest -/

@[simp] theorem placeRequest_cfg (r : Request) : (s.placeRequest r).cfg = s.cfg := rfl
@[simp] theorem placeRequest_isOpen (r : Request) : (s.placeRequest r).isOpen = s.isOpen := rfl
@[simp] theorem placeRequest_rst (r : Request) : (s.placeRequest r).rst = s.rst := rfl
@[simp] theorem placeRequest_fault (r : Request) : (s.placeRequest r).fault = s.fault := rfl
@[simp] theorem placeRequest_cmd (r : Request) : (s.placeRequest r).cmd = s.cmd := rfl
@[simp] theorem placeRequest_irqEn (r : Request) : (s.placeRequest r).irqEn = s.irqEn := rfl
@[simp] theorem placeRequest_waitIrq (r : Request) : (s.placeRequest r).waitIrq = s.waitIrq := rfl
@[simp] theorem placeRequest_cnt (r : Request) : (s.placeRequest r).cnt = s.cnt := rfl
@[simp] theorem placeRequest_irq (r : Request) : (s.placeRequest r).irq = s.irq := rfl
@[simp] theorem placeRequest_err (r : Request) : (s.placeRequest r).err = s.err := rfl
@[simp] theorem placeRequest_n (r : Request) : (s.placeRequest r).n = s.n := rfl
@[simp] theorem placeRequest_lastBits (r : Request) : (s.placeRequest r).lastBits = s.lastBits := rfl
@[simp] theorem placeRequest_m (r : Request) : (s.placeRequest r).m = s.m := rfl
@[simp] theorem placeRequest_i (r : Request) : (s.placeRequest r).i = s.i := rfl
@[simp] theorem placeRequest_status (r : Request) : (s.placeRequest r).status = s.status := rfl
@[simp] theorem placeRequest_respLen (r : Request) : (s.placeRequest r).respLen = s.respLen := rfl
@[simp] theorem placeRequest_bitlen (r : Request) : (s.placeRequest r).bitlen = s.bitlen := rfl
@[simp] theorem placeRequest_cause (r : Request) : (s.placeRequest r).cause = s.cause := rfl
@[simp] theorem placeRequest_pc (r : Request) : (s.placeRequest r).pc = s.pc := rfl
@[simp] theorem placeRequest_scan (r : Request) : (s.placeRequest r).scan = s.scan := rfl
@[simp] theorem placeRequest_cancel (r : Request) : (s.placeRequest r).cancel = s.cancel := rfl
@[simp] theorem placeRequest_tx (r : Request) : (s.placeRequest r).tx = s.tx := rfl
@[simp] theorem placeRequest_txLen (r : Request) : (s.placeRequest r).txLen = s.txLen := rfl
@[simp] theorem placeRequest_resp (r : Request) : (s.placeRequest r).resp = s.resp := rfl
@[simp] theorem placeRequest_uid (r : Request) : (s.placeRequest r).uid = s.uid := rfl
@[simp] theorem placeRequest_trace (r : Request) : (s.placeRequest r).trace = s.trace := rfl
@[simp] theorem placeRequest_scanning (r : Request) : (s.placeRequest r).scanning = false := rfl
@[simp] theorem placeRequest_stalled (r : Request) : (s.placeRequest r).stalled = false := rfl
@[simp] theorem placeRequest_requests (r : Request) : (s.placeRequest r).requests = r :: s.requests := rfl
@[simp] theorem placeRequest_termIn (r : Request) : (s.placeRequest r).termIn = s.termIn := rfl
@[simp] theorem placeRequest_ret (r : Request) : (s.placeRequest r).ret = s.ret := rfl
@[simp] theorem placeRequest_env (r : Request) : (s.placeRequest r).env = s.env := rfl

end Sys2Proof.Machine
end

