-- ==== Sys2Proof/Laws/Ops.lean ====
section
/-! SUPPORT. What each shared operation can do, said once: how operations run, what the
environment answers, and the cases of a bus exchange and of a register transaction. -/

namespace Sys2Proof.Machine

/-! ### How operations run -/

@[simp] theorem pure_run {α : Type} (a : α) (s : State) : (pure a : Op α) s = .ok a s := rfl

@[simp] theorem current_run (s : State) : current s = .ok s s := rfl

@[simp] theorem update_run (g : State → State) (s : State) : update g s = .ok () (g s) := rfl

@[simp] theorem bind_current {α : Type} (f : State → Op α) (s : State) :
    (current >>= f) s = f s s := rfl

@[simp] theorem bind_update {α : Type} (g : State → State) (f : Unit → Op α) (s : State) :
    (update g >>= f) s = f () (g s) := rfl

@[simp] theorem bind_pure_run {α β : Type} (a : α) (f : α → Op β) (s : State) :
    ((pure a : Op α) >>= f) s = f a s := rfl

theorem bind_run {α β : Type} (x : Op α) (f : α → Op β) (s : State) :
    (x >>= f) s = match x s with
      | .ok a t => f a t
      | .error h t => .error h t := by
  change EStateM.bind x f s = _
  unfold EStateM.bind
  cases x s <;> rfl

theorem map_run {α β : Type} (f : α → β) (x : Op α) (s : State) :
    (f <$> x) s = match x s with
      | .ok a t => .ok (f a) t
      | .error h t => .error h t := by
  change EStateM.map f x s = _
  unfold EStateM.map
  cases x s <;> rfl

/-- A bind that goes on. -/
theorem bind_of_ok {α β : Type} {x : Op α} {f : α → Op β} {s t : State} {a : α}
    (h : x s = .ok a t) : (x >>= f) s = f a t := by rw [bind_run, h]

/-- A bind that stops. -/
theorem bind_of_error {α β : Type} {x : Op α} {f : α → Op β} {s t : State} {e : Halt}
    (h : x s = .error e t) : (x >>= f) s = .error e t := by rw [bind_run, h]

/-- Where a bind ends well, both parts do. -/
theorem bind_ok_iff {α β : Type} {x : Op α} {f : α → Op β} {s t : State} {b : β} :
    (x >>= f) s = .ok b t ↔ ∃ a u, x s = .ok a u ∧ f a u = .ok b t := by
  rw [bind_run]
  cases x s <;> simp

/-- Where a bind stops, one of its parts does. -/
theorem bind_error_iff {α β : Type} {x : Op α} {f : α → Op β} {s t : State} {h : Halt} :
    (x >>= f) s = .error h t ↔
      x s = .error h t ∨ ∃ a u, x s = .ok a u ∧ f a u = .error h t := by
  rw [bind_run]
  cases x s <;> simp

/-- The state a run leaves, whether it ended or stopped. -/
def resultState {α : Type} : EStateM.Result Halt State α → State
  | .ok _ t => t
  | .error _ t => t

@[simp] theorem resultState_ok {α : Type} (a : α) (t : State) :
    resultState (.ok a t : EStateM.Result Halt State α) = t := rfl

@[simp] theorem resultState_error {α : Type} (h : Halt) (t : State) :
    resultState (.error h t : EStateM.Result Halt State α) = t := rfl

/-- A relation between the state before and after that an operation always meets. -/
def Keeps {α : Type} (R : State → State → Prop) (x : Op α) : Prop := ∀ s, R s (resultState (x s))

/-- Sequencing keeps what both parts keep. -/
theorem keeps_bind {α β : Type} {R : State → State → Prop}
    (trans : ∀ a b c, R a b → R b c → R a c) {x : Op α} {f : α → Op β}
    (hx : Keeps R x) (hf : ∀ a, Keeps R (f a)) : Keeps R (x >>= f) := by
  intro s
  have h := hx s
  rw [bind_run]
  cases hr : x s with
  | ok a t => rw [hr] at h; exact trans _ _ _ h (hf a t)
  | error e t => rw [hr] at h; exact h

theorem keeps_pure {α : Type} {R : State → State → Prop} (refl : ∀ s, R s s) (a : α) :
    Keeps R (pure a : Op α) := fun s => refl s

theorem keeps_current {R : State → State → Prop} (refl : ∀ s, R s s) : Keeps R current :=
  fun s => refl s

theorem keeps_update {R : State → State → Prop} {g : State → State} (h : ∀ s, R s (g s)) :
    Keeps R (update g) := h

/-- Reading the state first: the rest may use what was read. -/
theorem keeps_bind_current {α : Type} {R : State → State → Prop} {f : State → Op α}
    (h : ∀ s, R s (resultState (f s s))) : Keeps R (current >>= f) := h

/-! ### The environment -/

/-- A received sequence has the length of the one sent (spec/40_bus_transport.md R120). -/
theorem exchange_length {e e' : Env} {tx rx : List Byte} (h : e.exchange tx = (some rx, e')) :
    rx.length = tx.length := by
  unfold Env.exchange at h
  split at h
  · split at h
    · have hl : tx.length = 2 := by
        match tx with
        | [_, _] => rfl
        | [] => simp [isReadFrame] at *
        | [_] => simp [isReadFrame] at *
        | _ :: _ :: _ :: _ => simp [isReadFrame] at *
      split at h <;> simp only [Prod.mk.injEq, Option.some.injEq] at h <;> rw [← h.1, hl] <;> rfl
    · simp only [Prod.mk.injEq, Option.some.injEq] at h
      rw [← h.1, List.length_replicate]
  · rename_i a rest _
    cases a with
    | none => simp at h
    | some r =>
      simp only [Option.map_some, Prod.mk.injEq, Option.some.injEq] at h
      rw [← h.1]
      simp [fitLength]
  · split at h
    · simp at h
    · simp only [Prod.mk.injEq, Option.some.injEq] at h
      rw [← h.1]
      simp

/-- An exchange asks nothing of the other ports. -/
theorem exchange_ports (e : Env) (tx : List Byte) :
    (e.exchange tx).2.opens = e.opens ∧ (e.exchange tx).2.auths = e.auths ∧
      (e.exchange tx).2.calls = e.calls := by
  unfold Env.exchange
  split
  · split
    · split <;> simp
    · simp
  · simp
  · simp

/-- Without failures to come, an exchange succeeds and leaves none to come. -/
theorem exchange_of_noFailure {e : Env} (h : e.NoFailure) (tx : List Byte) :
    ∃ rx e', e.exchange tx = (some rx, e') ∧ e'.NoFailure := by
  unfold Env.exchange Env.NoFailure at *
  split
  · rename_i hb
    split
    · split <;> simp [hb]
    · simp [hb]
  · rename_i a rest hb
    rw [hb] at h
    obtain ⟨hall, hfree⟩ := h
    obtain ⟨r, hr⟩ := Option.isSome_iff_exists.mp (hall a (by simp))
    refine ⟨fitLength tx.length r, { e with bus := .oracle rest }, by simp [hr], ?_, hfree⟩
    intro b hb'
    exact hall b (by simp [hb'])
  · rename_i hb
    rw [hb] at h
    have hf := h.2 e.draws (Nat.le_refl _)
    refine ⟨(List.range tx.length).map (Config.busByte e.draws),
      { e with draws := e.draws + 1 }, by simp [hf], ?_⟩
    simp only [hb, List.not_mem_nil, false_imp_iff, implies_true, true_and]
    intro k hk
    exact h.2 k (Nat.le_of_succ_le hk)

/-- A read frame consumes one byte of the script (spec/20_memory.md R71). -/
theorem script_read {e : Env} {b : Byte} {rest : List Byte} (h : e.bus = .script (b :: rest))
    (addr : Addr) :
    e.exchange (readFrame addr) = (some [0, b], { e with bus := .script rest }) := by
  have hr : isReadFrame (readFrame addr) = true := by
    simp only [readFrame, isReadFrame]
    revert addr
    decide +kernel
  simp [Env.exchange, h, hr]

/-- A write frame consumes nothing (spec/20_memory.md R71). -/
theorem script_write {e : Env} {reads : List Byte} (h : e.bus = .script reads) (addr : Addr)
    (value : Byte) : e.exchange (writeFrame addr value) = (some [0, 0], e) := by
  have hr : isReadFrame (writeFrame addr value) = false := by
    simp only [writeFrame, isReadFrame]
    revert addr
    decide +kernel
  simp only [Env.exchange, h, hr]
  rfl

/-! ### Exchanges and register transactions -/

/-- Everything an exchange can do. -/
theorem xfer_cases (tx : List Byte) (s : State) :
    (∃ rx e, s.env.exchange tx = (some rx, e) ∧
      xfer tx s = .ok rx ((s.withEnv e).emit (.bus tx rx))) ∨
    (∃ e, s.env.exchange tx = (none, e) ∧
      xfer tx s = .error .fault ((s.withEnv e).enterFault .transportError)) := by
  unfold xfer
  split <;> rename_i h
  · exact .inl ⟨_, _, h, rfl⟩
  · exact .inr ⟨_, h, rfl⟩

theorem registerXfer_low {s : State} (h : s.rst ≠ .high) (tx : List Byte) :
    registerXfer tx s = .error .fault (s.enterFault .resetLow) := by simp [registerXfer, h]

theorem registerXfer_high {s : State} (h : s.rst = .high) (tx : List Byte) :
    registerXfer tx s = xfer tx s := by simp [registerXfer, h]

/-- A register write whose exchange succeeds (spec/41_register_access.md R130). -/
theorem writeReg_ok {s : State} {addr : Addr} {value : Byte} {rx : List Byte} {e : Env}
    (hr : s.rst = .high) (h : s.env.exchange (writeFrame addr value) = (some rx, e)) :
    writeReg addr value s = .ok () ((s.withEnv e).emit (.bus (writeFrame addr value) rx)) := by
  simp [writeReg, bind_run, registerXfer, hr, xfer, h]

/-- A register write whose exchange fails. -/
theorem writeReg_fail {s : State} {addr : Addr} {value : Byte} {e : Env}
    (hr : s.rst = .high) (h : s.env.exchange (writeFrame addr value) = (none, e)) :
    writeReg addr value s = .error .fault ((s.withEnv e).enterFault .transportError) := by
  simp [writeReg, bind_run, registerXfer, hr, xfer, h]

/-- A register write with the reset line not high (spec/60_exceptions.md R250). -/
theorem writeReg_low {s : State} (addr : Addr) (value : Byte) (hr : s.rst ≠ .high) :
    writeReg addr value s = .error .fault (s.enterFault .resetLow) := by
  simp [writeReg, bind_run, registerXfer, hr]

/-- A register read whose exchange succeeds (spec/41_register_access.md R131). -/
theorem readReg_ok {s : State} {addr : Addr} {rx : List Byte} {e : Env}
    (hr : s.rst = .high) (h : s.env.exchange (readFrame addr) = (some rx, e)) :
    readReg addr s = .ok (secondByte rx) ((s.withEnv e).emit (.bus (readFrame addr) rx)) := by
  simp [readReg, bind_run, registerXfer, hr, xfer, h]

/-- A register read whose exchange fails. -/
theorem readReg_fail {s : State} {addr : Addr} {e : Env}
    (hr : s.rst = .high) (h : s.env.exchange (readFrame addr) = (none, e)) :
    readReg addr s = .error .fault ((s.withEnv e).enterFault .transportError) := by
  simp [readReg, bind_run, registerXfer, hr, xfer, h]

/-- A register read with the reset line not high (spec/60_exceptions.md R250). -/
theorem readReg_low {s : State} (addr : Addr) (hr : s.rst ≠ .high) :
    readReg addr s = .error .fault (s.enterFault .resetLow) := by
  simp [readReg, bind_run, registerXfer, hr]

/-- Everything a register write can do. -/
theorem writeReg_cases (addr : Addr) (value : Byte) (s : State) :
    (s.rst = .high ∧ ∃ rx e, s.env.exchange (writeFrame addr value) = (some rx, e) ∧
      writeReg addr value s = .ok () ((s.withEnv e).emit (.bus (writeFrame addr value) rx))) ∨
    (s.rst = .high ∧ ∃ e, s.env.exchange (writeFrame addr value) = (none, e) ∧
      writeReg addr value s = .error .fault ((s.withEnv e).enterFault .transportError)) ∨
    (s.rst ≠ .high ∧ writeReg addr value s = .error .fault (s.enterFault .resetLow)) := by
  by_cases hr : s.rst = .high
  · rcases h : s.env.exchange (writeFrame addr value) with ⟨o, e⟩
    cases o with
    | some rx => exact .inl ⟨hr, rx, e, rfl, writeReg_ok hr h⟩
    | none => exact .inr (.inl ⟨hr, e, rfl, writeReg_fail hr h⟩)
  · exact .inr (.inr ⟨hr, writeReg_low addr value hr⟩)

/-- Everything a register read can do. -/
theorem readReg_cases (addr : Addr) (s : State) :
    (s.rst = .high ∧ ∃ rx e, s.env.exchange (readFrame addr) = (some rx, e) ∧
      readReg addr s = .ok (secondByte rx) ((s.withEnv e).emit (.bus (readFrame addr) rx))) ∨
    (s.rst = .high ∧ ∃ e, s.env.exchange (readFrame addr) = (none, e) ∧
      readReg addr s = .error .fault ((s.withEnv e).enterFault .transportError)) ∨
    (s.rst ≠ .high ∧ readReg addr s = .error .fault (s.enterFault .resetLow)) := by
  by_cases hr : s.rst = .high
  · rcases h : s.env.exchange (readFrame addr) with ⟨o, e⟩
    cases o with
    | some rx => exact .inl ⟨hr, rx, e, rfl, readReg_ok hr h⟩
    | none => exact .inr (.inl ⟨hr, e, rfl, readReg_fail hr h⟩)
  · exact .inr (.inr ⟨hr, readReg_low addr hr⟩)

/-- A relation that one successful exchange and both ways into FAULT meet is kept by a register
write. -/
theorem keeps_writeReg {R : State → State → Prop} (addr : Addr) (value : Byte)
    (hx : ∀ s rx, s.rst = .high →
      R s ((s.withEnv (s.env.exchange (writeFrame addr value)).2).emit
        (.bus (writeFrame addr value) rx)))
    (hf : ∀ s, s.rst = .high → R s
      ((s.withEnv (s.env.exchange (writeFrame addr value)).2).enterFault .transportError))
    (hl : ∀ s, R s (s.enterFault .resetLow)) : Keeps R (writeReg addr value) := by
  intro s
  rcases writeReg_cases addr value s with ⟨hr, rx, e, he, h⟩ | ⟨hr, e, he, h⟩ | ⟨-, h⟩ <;> rw [h]
  · have := hx s rx hr
    rwa [he] at this
  · have := hf s hr
    rwa [he] at this
  · exact hl s

/-- The same for a register read. -/
theorem keeps_readReg {R : State → State → Prop} (addr : Addr)
    (hx : ∀ s rx, s.rst = .high →
      R s ((s.withEnv (s.env.exchange (readFrame addr)).2).emit (.bus (readFrame addr) rx)))
    (hf : ∀ s, s.rst = .high → R s
      ((s.withEnv (s.env.exchange (readFrame addr)).2).enterFault .transportError))
    (hl : ∀ s, R s (s.enterFault .resetLow)) : Keeps R (readReg addr) := by
  intro s
  rcases readReg_cases addr s with ⟨hr, rx, e, he, h⟩ | ⟨hr, e, he, h⟩ | ⟨-, h⟩ <;> rw [h]
  · have := hx s rx hr
    rwa [he] at this
  · have := hf s hr
    rwa [he] at this
  · exact hl s

/-! ### Admission -/

@[simp] theorem admission_none {s : State} : s.admission = none ↔ s.Admitted := by
  unfold State.admission State.Admitted
  cases s.fault <;> cases s.isOpen <;> simp

/-- An admitted operation runs. -/
theorem operate_admitted {s : State} (h : s.Admitted) (x : Op Ret) :
    operate x s = .next (settle (x s)) := by
  have := admission_none.mpr h
  simp [operate, this]

/-- In FAULT an operation is turned away. -/
theorem operate_inFault {s : State} (h : s.fault = true) (x : Op Ret) :
    operate x s = .next (s.withRet (.denied .inFault)) := by
  simp [operate, State.admission, h]

/-- With the handle closed an operation is turned away. -/
theorem operate_notOpen {s : State} (hf : s.fault = false) (h : s.isOpen = false) (x : Op Ret) :
    operate x s = .next (s.withRet (.denied .notOpen)) := by
  simp [operate, State.admission, hf, h]

@[simp] theorem settle_ok (r : Ret) (s : State) : settle (.ok r s) = s.withRet r := rfl

@[simp] theorem settle_fault (s : State) :
    settle (.error .fault s) = s.withRet (.faulted s.cause) := rfl

@[simp] theorem settle_stalled (s : State) : settle (.error .stalled s) = s := rfl

end Sys2Proof.Machine
end

