-- ==== Sys2Proof/Laws/Command.lean ====
section
/-! SUPPORT. What the Command Engine and the card protocol can do to the state, said once per
shared operation (spec/42_command_engine.md; spec/43_card_protocol.md). -/

namespace Sys2Proof.Machine

/-- What a stretch of register transactions and TO_CARD bookkeeping leaves alone, and how it can
end in FAULT. -/
structure EngineChange (s t : State) : Prop where
  cfg : t.cfg = s.cfg
  isOpen : t.isOpen = s.isOpen
  rst : t.rst = s.rst
  scan : t.scan = s.scan
  cancel : t.cancel = s.cancel
  uid : t.uid = s.uid
  stalled : t.stalled = s.stalled
  requests : t.requests = s.requests
  termIn : t.termIn = s.termIn
  ret : t.ret = s.ret
  opens : t.env.opens = s.env.opens
  auths : t.env.auths = s.env.auths
  calls : t.env.calls = s.env.calls
  faultStays : s.fault = true → t.fault = true
  scanning : t.fault = false → t.scanning = s.scanning
  scanningStops : s.scanning = false → t.scanning = false
  faultScanning : s.fault = false → t.fault = true → t.scanning = false
  events : ∃ events, BusOnly events ∧
    (∀ tx rx, Event.bus tx rx ∈ events → EngineFrame tx ∧ rx.length = tx.length) ∧
    t.trace = s.trace ++ events

theorem EngineChange.refl (s : State) : EngineChange s s := by
  constructor <;> simp_all
  simp [BusOnly]

theorem EngineChange.trans {s t u : State} (a : EngineChange s t) (b : EngineChange t u) :
    EngineChange s u where
  cfg := b.cfg.trans a.cfg
  isOpen := b.isOpen.trans a.isOpen
  rst := b.rst.trans a.rst
  scan := b.scan.trans a.scan
  cancel := b.cancel.trans a.cancel
  uid := b.uid.trans a.uid
  stalled := b.stalled.trans a.stalled
  requests := b.requests.trans a.requests
  termIn := b.termIn.trans a.termIn
  ret := b.ret.trans a.ret
  opens := b.opens.trans a.opens
  auths := b.auths.trans a.auths
  calls := b.calls.trans a.calls
  faultStays h := b.faultStays (a.faultStays h)
  scanning h := by
    have ht : t.fault = false := by
      cases hf : t.fault with
      | false => rfl
      | true => have := b.faultStays hf; simp_all
    exact (b.scanning h).trans (a.scanning ht)
  scanningStops h := b.scanningStops (a.scanningStops h)
  faultScanning hs hu := by
    cases hf : t.fault with
    | false => exact b.faultScanning hf hu
    | true => exact b.scanningStops (a.faultScanning hs hf)
  events := by
    obtain ⟨x, hx, fx, ex⟩ := a.events
    obtain ⟨y, hy, fy, ey⟩ := b.events
    refine ⟨x ++ y, ?_, ?_, by rw [ey, ex, List.append_assoc]⟩
    · intro e he
      rcases List.mem_append.mp he with h | h
      · exact hx e h
      · exact hy e h
    · intro tx rx he
      rcases List.mem_append.mp he with h | h
      · exact fx tx rx h
      · exact fy tx rx h

/-- A change of the working and result registers alone. -/
theorem EngineChange.of_registers {s t : State} (ht : t.trace = s.trace) (hc : t.cfg = s.cfg)
    (ho : t.isOpen = s.isOpen) (hr : t.rst = s.rst) (hs : t.scan = s.scan)
    (hk : t.cancel = s.cancel) (hu : t.uid = s.uid) (hst : t.stalled = s.stalled)
    (hq : t.requests = s.requests) (hti : t.termIn = s.termIn) (hret : t.ret = s.ret)
    (he : t.env = s.env) (hf : t.fault = s.fault) (hsc : t.scanning = s.scanning) :
    EngineChange s t := by
  constructor <;> first | assumption | simp_all
  simp [BusOnly]

/-! ### Frames -/

/-- A write frame is a frame of the engine (spec/30_encoding.md R91). -/
theorem engineFrame_write (addr : Addr) (value : Byte) : EngineFrame (writeFrame addr value) := by
  refine ⟨addressByteWrite addr, value, rfl, ?_, ?_⟩
  · simp [addressByteWrite]
  · intro h
    simp [addressByteWrite] at h

/-- A read frame is a frame of the engine (spec/30_encoding.md R92). -/
theorem engineFrame_read (addr : Addr) : EngineFrame (readFrame addr) := by
  refine ⟨addressByteRead addr, 0, rfl, ?_, fun _ => rfl⟩
  simp [addressByteRead]

theorem EngineChange.exchange {s : State} {tx rx : List Byte} {e : Env}
    (h : s.env.exchange tx = (some rx, e)) (hf : EngineFrame tx) :
    EngineChange s ((s.withEnv e).emit (.bus tx rx)) := by
  have hp := exchange_ports s.env tx
  rw [h] at hp
  constructor <;> simp_all
  exact ⟨by simp [BusOnly], exchange_length h⟩

theorem EngineChange.failure {s : State} {tx : List Byte} {e : Env}
    (h : s.env.exchange tx = (none, e)) :
    EngineChange s ((s.withEnv e).enterFault .transportError) := by
  have hp := exchange_ports s.env tx
  rw [h] at hp
  constructor <;> simp_all
  simp [BusOnly]

theorem EngineChange.resetLow (s : State) : EngineChange s (s.enterFault .resetLow) := by
  constructor <;> simp
  simp [BusOnly]

theorem writeReg_change (addr : Addr) (value : Byte) : Keeps EngineChange (writeReg addr value) := by
  intro s
  rcases writeReg_cases addr value s with ⟨-, rx, e, he, h⟩ | ⟨-, e, he, h⟩ | ⟨-, h⟩ <;> rw [h]
  · exact .exchange he (engineFrame_write addr value)
  · exact .failure he
  · exact .resetLow s

theorem readReg_change (addr : Addr) : Keeps EngineChange (readReg addr) := by
  intro s
  rcases readReg_cases addr s with ⟨-, rx, e, he, h⟩ | ⟨-, e, he, h⟩ | ⟨-, h⟩ <;> rw [h]
  · exact .exchange he (engineFrame_read addr)
  · exact .failure he
  · exact .resetLow s

/-! ### The operations built on them -/

theorem change_bind {α β : Type} {x : Op α} {f : α → Op β} (hx : Keeps EngineChange x)
    (hf : ∀ a, Keeps EngineChange (f a)) : Keeps EngineChange (x >>= f) :=
  keeps_bind (R := EngineChange) (fun _ _ _ => EngineChange.trans) hx hf

theorem change_current {α : Type} {f : State → Op α} (h : ∀ s, Keeps EngineChange (f s)) :
    Keeps EngineChange (current >>= f) := fun s => h s s

theorem change_update {α : Type} {g : State → State} {f : Unit → Op α}
    (hg : ∀ s, EngineChange s (g s)) (hf : Keeps EngineChange (f ())) :
    Keeps EngineChange (update g >>= f) := fun s => (hg s).trans (hf (g s))

theorem change_pure {α : Type} (a : α) : Keeps EngineChange (pure a : Op α) :=
  keeps_pure EngineChange.refl a

theorem change_update_last {g : State → State} (hg : ∀ s, EngineChange s (g s)) :
    Keeps EngineChange (update g) := hg

theorem change_ite {α : Type} {c : Prop} [Decidable c] {x y : Op α} (hx : Keeps EngineChange x)
    (hy : Keeps EngineChange y) : Keeps EngineChange (if c then x else y) := by
  split <;> assumption

theorem setBits_change (addr : Addr) (mask : Byte) : Keeps EngineChange (setBits addr mask) :=
  change_bind (readReg_change addr) fun _ => writeReg_change addr _

theorem clearBits_change (addr : Addr) (mask : Byte) : Keeps EngineChange (clearBits addr mask) :=
  change_bind (readReg_change addr) fun _ => writeReg_change addr _

theorem antennaOn_change : Keeps EngineChange antennaOn :=
  change_current fun _ => change_bind (readReg_change _) fun _ =>
    change_ite (change_pure ()) (writeReg_change _ _)

theorem setPhase_change (p : Phase) (s : State) : EngineChange s (s.setPhase p) := by
  apply EngineChange.of_registers <;> simp

theorem toCardArm_change : Keeps EngineChange toCardArm :=
  change_update (setPhase_change _) <| change_current fun _ =>
    change_bind (writeReg_change _ _) fun _ => change_bind (clearBits_change _ _) fun _ =>
      change_bind (setBits_change _ _) fun _ => writeReg_change _ _

theorem loadBytes_change (bytes : List Byte) : Keeps EngineChange (loadBytes bytes) := by
  induction bytes with
  | nil => exact change_pure ()
  | cons b rest ih =>
    refine change_current fun _ => change_bind (writeReg_change _ _) fun _ => change_update ?_ ih
    intro s
    apply EngineChange.of_registers <;> simp

theorem toCardLoad_change : Keeps EngineChange toCardLoad := by
  refine change_update (setPhase_change _) <| change_update ?_ <| change_current fun _ =>
    loadBytes_change _
  intro s
  apply EngineChange.of_registers <;> simp

theorem toCardStart_change : Keeps EngineChange toCardStart :=
  change_update (setPhase_change _) <| change_current fun _ =>
    change_bind (writeReg_change _ _) fun _ => change_ite (setBits_change _ _) (change_pure ())

theorem pollLoop_change (k : Nat) : Keeps EngineChange (pollLoop k) := by
  induction k with
  | zero => exact change_pure ()
  | succ k ih =>
    refine change_current fun _ => change_bind (readReg_change _) fun _ => change_update ?_ ?_
    · intro s
      apply EngineChange.of_registers <;> simp
    · exact change_ite (change_pure ()) ih

theorem toCardPoll_change : Keeps EngineChange toCardPoll := by
  refine change_update (setPhase_change _) <| change_update ?_ (pollLoop_change _)
  intro s
  apply EngineChange.of_registers <;> simp

theorem toCardStop_change : Keeps EngineChange toCardStop :=
  change_update (setPhase_change _) <| change_current fun _ => clearBits_change _ _

theorem toCardLen_change : Keeps EngineChange toCardLen := by
  refine change_update (setPhase_change _) <| change_current fun _ =>
    change_bind (readReg_change _) fun _ => change_update ?_ <|
      change_bind (readReg_change _) fun _ => change_update_last ?_
  all_goals
    intro s
    apply EngineChange.of_registers <;> simp

theorem drainBytes_change (k : Nat) : Keeps EngineChange (drainBytes k) := by
  induction k with
  | zero => exact change_pure ()
  | succ k ih =>
    refine change_current fun _ => change_bind (readReg_change _) fun _ => change_update ?_ ih
    intro s
    apply EngineChange.of_registers <;> simp

theorem toCardDrain_change : Keeps EngineChange toCardDrain := by
  refine change_update (setPhase_change _) <| change_update ?_ <| change_current fun _ =>
    change_bind (drainBytes_change _) fun _ => change_update_last ?_
  all_goals
    intro s
    apply EngineChange.of_registers <;> simp

theorem judgeClear_change (s : State) : EngineChange s s.judgeClear := by
  unfold State.judgeClear
  split <;> apply EngineChange.of_registers <;> simp

theorem toCardClear_change : Keeps EngineChange toCardClear :=
  change_update judgeClear_change <| change_current fun _ =>
    change_ite (change_bind toCardLen_change fun _ => toCardDrain_change) (change_pure ())

theorem toCardCheck_change : Keeps EngineChange toCardCheck := by
  refine change_update (setPhase_change _) <| change_current fun _ => change_ite
    (change_update_last ?_) <| change_bind (readReg_change _) fun _ => change_update ?_ <|
      change_ite toCardClear_change (change_update_last ?_)
  all_goals
    intro s
    apply EngineChange.of_registers <;> simp

/-- Everything the eight steps leave alone (spec/42_command_engine.md R173). -/
theorem runCommand_change (c : Byte) : Keeps EngineChange (runCommand c) := by
  refine change_update ?_ <| change_bind toCardArm_change fun _ =>
    change_bind toCardLoad_change fun _ => change_bind toCardStart_change fun _ =>
      change_bind toCardPoll_change fun _ => change_bind toCardStop_change fun _ =>
        change_bind toCardCheck_change fun _ => change_update (setPhase_change _) <|
          change_update_last (setPhase_change _)
  intro s
  apply EngineChange.of_registers <;> simp

/-- Everything TO_CARD leaves alone. -/
theorem toCard_change (c : Byte) (tx : List Byte) : Keeps EngineChange (toCard c tx) := by
  refine change_update ?_ (runCommand_change c)
  intro s
  apply EngineChange.of_registers <;> simp

theorem judgeRequest_change (s : State) : EngineChange s s.judgeRequest := by
  unfold State.judgeRequest
  split
  · apply EngineChange.of_registers <;> simp
  · split <;> apply EngineChange.of_registers <;> simp

/-- Everything REQUEST leaves alone (spec/43_card_protocol.md R190). -/
theorem request_change (mode : Byte) : Keeps EngineChange (request mode) := by
  refine change_update ?_ <| change_current fun _ => change_bind (writeReg_change _ _) fun _ =>
    change_bind (toCard_change _ _) fun _ => change_update judgeRequest_change <|
      change_current fun _ => change_pure _
  intro s
  apply EngineChange.of_registers <;> simp

end Sys2Proof.Machine
end

