-- ==== Sys2Proof/Laws/Phases.lean ====
section
/-! SUPPORT. What each phase of TO_CARD leaves when it ends well, and that it ends well on an
environment without failures (spec/42_command_engine.md R154 to R173). -/

namespace Sys2Proof.Machine

/-- The state after exchanges alone: their events in the trace, and the environment they leave. -/
def State.sent (s : State) (events : List Event) (e : Env) : State :=
  { s with trace := s.trace ++ events, env := e }

@[simp] theorem sent_trace (s : State) (x : List Event) (e : Env) :
    (s.sent x e).trace = s.trace ++ x := rfl

@[simp] theorem sent_env (s : State) (x : List Event) (e : Env) : (s.sent x e).env = e := rfl

@[simp] theorem sent_cfg (s : State) (x : List Event) (e : Env) : (s.sent x e).cfg = s.cfg := rfl

@[simp] theorem sent_rst (s : State) (x : List Event) (e : Env) : (s.sent x e).rst = s.rst := rfl

@[simp] theorem sent_isOpen (s : State) (x : List Event) (e : Env) :
    (s.sent x e).isOpen = s.isOpen := rfl

@[simp] theorem sent_fault (s : State) (x : List Event) (e : Env) :
    (s.sent x e).fault = s.fault := rfl

@[simp] theorem sent_cmd (s : State) (x : List Event) (e : Env) :
    (s.sent x e).cmd = s.cmd := rfl

@[simp] theorem sent_irqEn (s : State) (x : List Event) (e : Env) :
    (s.sent x e).irqEn = s.irqEn := rfl

@[simp] theorem sent_waitIrq (s : State) (x : List Event) (e : Env) :
    (s.sent x e).waitIrq = s.waitIrq := rfl

@[simp] theorem sent_cnt (s : State) (x : List Event) (e : Env) :
    (s.sent x e).cnt = s.cnt := rfl

@[simp] theorem sent_irq (s : State) (x : List Event) (e : Env) :
    (s.sent x e).irq = s.irq := rfl

@[simp] theorem sent_err (s : State) (x : List Event) (e : Env) :
    (s.sent x e).err = s.err := rfl

@[simp] theorem sent_n (s : State) (x : List Event) (e : Env) :
    (s.sent x e).n = s.n := rfl

@[simp] theorem sent_lastBits (s : State) (x : List Event) (e : Env) :
    (s.sent x e).lastBits = s.lastBits := rfl

@[simp] theorem sent_m (s : State) (x : List Event) (e : Env) :
    (s.sent x e).m = s.m := rfl

@[simp] theorem sent_i (s : State) (x : List Event) (e : Env) :
    (s.sent x e).i = s.i := rfl

@[simp] theorem sent_status (s : State) (x : List Event) (e : Env) :
    (s.sent x e).status = s.status := rfl

@[simp] theorem sent_respLen (s : State) (x : List Event) (e : Env) :
    (s.sent x e).respLen = s.respLen := rfl

@[simp] theorem sent_bitlen (s : State) (x : List Event) (e : Env) :
    (s.sent x e).bitlen = s.bitlen := rfl

@[simp] theorem sent_cause (s : State) (x : List Event) (e : Env) :
    (s.sent x e).cause = s.cause := rfl

@[simp] theorem sent_pc (s : State) (x : List Event) (e : Env) :
    (s.sent x e).pc = s.pc := rfl

@[simp] theorem sent_scan (s : State) (x : List Event) (e : Env) :
    (s.sent x e).scan = s.scan := rfl

@[simp] theorem sent_cancel (s : State) (x : List Event) (e : Env) :
    (s.sent x e).cancel = s.cancel := rfl

@[simp] theorem sent_tx (s : State) (x : List Event) (e : Env) :
    (s.sent x e).tx = s.tx := rfl

@[simp] theorem sent_txLen (s : State) (x : List Event) (e : Env) :
    (s.sent x e).txLen = s.txLen := rfl

@[simp] theorem sent_resp (s : State) (x : List Event) (e : Env) :
    (s.sent x e).resp = s.resp := rfl

@[simp] theorem sent_uid (s : State) (x : List Event) (e : Env) :
    (s.sent x e).uid = s.uid := rfl

@[simp] theorem sent_scanning (s : State) (x : List Event) (e : Env) :
    (s.sent x e).scanning = s.scanning := rfl

@[simp] theorem sent_stalled (s : State) (x : List Event) (e : Env) :
    (s.sent x e).stalled = s.stalled := rfl

@[simp] theorem sent_requests (s : State) (x : List Event) (e : Env) :
    (s.sent x e).requests = s.requests := rfl

@[simp] theorem sent_termIn (s : State) (x : List Event) (e : Env) :
    (s.sent x e).termIn = s.termIn := rfl

@[simp] theorem sent_ret (s : State) (x : List Event) (e : Env) :
    (s.sent x e).ret = s.ret := rfl

@[simp] theorem sent_sent (s : State) (x y : List Event) (e f : Env) :
    (s.sent x e).sent y f = s.sent (x ++ y) f := by simp [State.sent]

@[simp] theorem emit_bus_sent (s : State) (e : Env) (ev : Event) :
    (s.withEnv e).emit ev = s.sent [ev] e := rfl

/-- A register write ends well exactly when its exchange is made and succeeds. -/
theorem writeReg_ok_iff {addr : Addr} {value : Byte} {s t : State} {u : Unit} :
    writeReg addr value s = .ok u t ↔ s.rst = .high ∧ ∃ rx e,
      s.env.exchange (writeFrame addr value) = (some rx, e) ∧
        t = s.sent [.bus (writeFrame addr value) rx] e := by
  rcases writeReg_cases addr value s with ⟨hr, rx, e, he, h⟩ | ⟨hr, e, he, h⟩ | ⟨hr, h⟩ <;> rw [h]
  · simp [hr, he, eq_comm]
  · simp [he]
  · simp [hr]

/-- A register read ends well exactly when its exchange is made and succeeds. -/
theorem readReg_ok_iff {addr : Addr} {s t : State} {v : Byte} :
    readReg addr s = .ok v t ↔ s.rst = .high ∧ ∃ rx e,
      s.env.exchange (readFrame addr) = (some rx, e) ∧ v = secondByte rx ∧
        t = s.sent [.bus (readFrame addr) rx] e := by
  rcases readReg_cases addr s with ⟨hr, rx, e, he, h⟩ | ⟨hr, e, he, h⟩ | ⟨hr, h⟩ <;> rw [h]
  · simp [hr, he, eq_comm]
  · simp [he]
  · simp [hr]

/-- A read and a write of the value `f` makes of what was read. -/
theorem readWrite_ok_iff {addr : Addr} {f : Byte → Byte} {s t : State} {u : Unit} :
    (readReg addr >>= fun v => writeReg addr (f v)) s = .ok u t ↔ s.rst = .high ∧
      ∃ r e w e', s.env.exchange (readFrame addr) = (some r, e) ∧
        e.exchange (writeFrame addr (f (secondByte r))) = (some w, e') ∧
        t = s.sent [.bus (readFrame addr) r, .bus (writeFrame addr (f (secondByte r))) w] e' := by
  rw [bind_ok_iff]
  constructor
  · rintro ⟨v, m, h1, h2⟩
    obtain ⟨hr, r, e, he, rfl, rfl⟩ := readReg_ok_iff.mp h1
    obtain ⟨-, w, e', he', rfl⟩ := writeReg_ok_iff.mp h2
    exact ⟨hr, r, e, w, e', he, he', by simp⟩
  · rintro ⟨hr, r, e, w, e', he, he', rfl⟩
    exact ⟨_, _, readReg_ok_iff.mpr ⟨hr, r, e, he, rfl, rfl⟩,
      writeReg_ok_iff.mpr ⟨hr, w, e', he', by simp⟩⟩

theorem setBits_ok_iff {addr : Addr} {mask : Byte} {s t : State} {u : Unit} :
    setBits addr mask s = .ok u t ↔ s.rst = .high ∧
      ∃ r e w e', s.env.exchange (readFrame addr) = (some r, e) ∧
        e.exchange (writeFrame addr (orMask (secondByte r) mask)) = (some w, e') ∧
        t = s.sent [.bus (readFrame addr) r,
          .bus (writeFrame addr (orMask (secondByte r) mask)) w] e' := readWrite_ok_iff

theorem clearBits_ok_iff {addr : Addr} {mask : Byte} {s t : State} {u : Unit} :
    clearBits addr mask s = .ok u t ↔ s.rst = .high ∧
      ∃ r e w e', s.env.exchange (readFrame addr) = (some r, e) ∧
        e.exchange (writeFrame addr (andNotMask (secondByte r) mask)) = (some w, e') ∧
        t = s.sent [.bus (readFrame addr) r,
          .bus (writeFrame addr (andNotMask (secondByte r) mask)) w] e' := readWrite_ok_iff

/-- Arm: six frames (R154). -/
theorem toCardArm_ok {s t : State} (h : toCardArm s = .ok () t) :
    ∃ a r b q c d e, t = (s.setPhase .arm).sent
      [.bus (writeFrame s.cfg.aComIen (orMask s.irqEn ienTop)) a,
       .bus (readFrame s.cfg.aComIrq) r,
       .bus (writeFrame s.cfg.aComIrq (andNotMask (secondByte r) irqTop)) b,
       .bus (readFrame s.cfg.aFifoLevel) q,
       .bus (writeFrame s.cfg.aFifoLevel (orMask (secondByte q) fifoFlush)) c,
       .bus (writeFrame s.cfg.aCommand s.cfg.cmdIdle) d] e := by
  simp only [toCardArm, bind_update, bind_current, bind_ok_iff] at h
  obtain ⟨_, _, h1, _, _, h2, _, _, h3, h4⟩ := h
  obtain ⟨-, a, e1, -, rfl⟩ := writeReg_ok_iff.mp h1
  obtain ⟨-, r, e2, b, e3, -, -, rfl⟩ := clearBits_ok_iff.mp h2
  obtain ⟨-, q, e4, c, e5, -, -, rfl⟩ := setBits_ok_iff.mp h3
  obtain ⟨-, d, e6, -, rfl⟩ := writeReg_ok_iff.mp h4
  exact ⟨a, r, b, q, c, d, e6, by simp⟩

/-- Start: one frame, or three for TRANSCEIVE (R156, R157). -/
theorem toCardStart_ok {s t : State} (h : toCardStart s = .ok () t) :
    ∃ a e, (s.cmd ≠ s.cfg.cmdTransceive ∧
        t = (s.setPhase .start).sent [.bus (writeFrame s.cfg.aCommand s.cmd) a] e) ∨
      (s.cmd = s.cfg.cmdTransceive ∧ ∃ r w,
        t = (s.setPhase .start).sent
          [.bus (writeFrame s.cfg.aCommand s.cmd) a, .bus (readFrame s.cfg.aBitFraming) r,
           .bus (writeFrame s.cfg.aBitFraming (orMask (secondByte r) s.cfg.startSend)) w] e) := by
  simp only [toCardStart, bind_update, bind_current, bind_ok_iff] at h
  obtain ⟨_, _, h1, h2⟩ := h
  obtain ⟨-, a, e1, -, rfl⟩ := writeReg_ok_iff.mp h1
  by_cases hc : s.cmd = s.cfg.cmdTransceive
  · rw [if_pos (show (s.setPhase .start).cmd = (s.setPhase .start).cfg.cmdTransceive from hc)] at h2
    obtain ⟨-, r, e2, w, e3, -, -, rfl⟩ := setBits_ok_iff.mp h2
    exact ⟨a, e3, .inr ⟨hc, r, w, by simp [hc]⟩⟩
  · simp [hc] at h2
    exact ⟨a, e1, .inl ⟨hc, by simp [← h2]⟩⟩

/-- Stop: the start-send bit read and written cleared (R161). -/
theorem toCardStop_ok {s t : State} (h : toCardStop s = .ok () t) :
    ∃ r w e, t = (s.setPhase .stop).sent
      [.bus (readFrame s.cfg.aBitFraming) r,
       .bus (writeFrame s.cfg.aBitFraming (andNotMask (secondByte r) s.cfg.startSend)) w] e := by
  simp only [toCardStop, bind_update, bind_current] at h
  obtain ⟨-, r, e2, w, e3, -, -, rfl⟩ := clearBits_ok_iff.mp h
  exact ⟨r, w, e3, by simp⟩

/-- The load loop: one frame for each byte, and the index behind the last (R155). -/
theorem loadBytes_ok (bytes : List Byte) : ∀ {s t : State}, loadBytes bytes s = .ok () t →
    ∃ rs e, rs.length = bytes.length ∧
      t = (s.setIndex (s.i + BitVec.ofNat 5 bytes.length)).sent
        (List.zipWith (fun b r => .bus (writeFrame s.cfg.aFifoData b) r) bytes rs) e := by
  induction bytes with
  | nil =>
    intro s t h
    simp only [loadBytes, pure_run, EStateM.Result.ok.injEq, true_and] at h
    exact ⟨[], s.env, rfl, by simp [← h, State.sent, State.setIndex]⟩
  | cons b rest ih =>
    intro s t h
    simp only [loadBytes, bind_current, bind_ok_iff] at h
    obtain ⟨_, _, h1, _, _, h2, h3⟩ := h
    obtain ⟨-, a, e1, -, rfl⟩ := writeReg_ok_iff.mp h1
    simp only [update_run, EStateM.Result.ok.injEq, true_and] at h2
    subst h2
    obtain ⟨rs, e, hl, rfl⟩ := ih h3
    refine ⟨a :: rs, e, by simp [hl], ?_⟩
    simp only [State.sent, State.setIndex, List.zipWith_cons_cons, List.length_cons,
      List.append_assoc, List.singleton_append]
    congr 1
    rw [BitVec.add_assoc]
    congr 1
    rw [BitVec.ofNat_add, BitVec.add_comm]
    rfl

/-- Load (R155). -/
theorem toCardLoad_ok {s t : State} (h : toCardLoad s = .ok () t) :
    ∃ rs e, rs.length = s.txBytes.length ∧
      t = ((s.setPhase .load).setIndex (BitVec.ofNat 5 s.txBytes.length)).sent
        (List.zipWith (fun b r => .bus (writeFrame s.cfg.aFifoData b) r) s.txBytes rs) e := by
  simp only [toCardLoad, bind_update, bind_current] at h
  obtain ⟨rs, e, hl, rfl⟩ := loadBytes_ok _ h
  refine ⟨rs, e, hl, ?_⟩
  simp [State.sent, State.setIndex, State.setPhase, State.txBytes]

/-- The poll loop: reads without a signal, then the last, which shows one or meets the zero of the
counter (R159). -/
theorem pollLoop_ok (k : Nat) : ∀ {s t : State}, 0 < k → pollLoop k s = .ok () t →
    ∃ (before : List (List Byte)) (last : List Byte) (e : Env), before.length < k ∧
      t = (s.polled (secondByte last) (k - (before.length + 1))).sent
        ((before ++ [last]).map fun rx => .bus (readFrame s.cfg.aComIrq) rx) e ∧
      (∀ rx ∈ before, secondByte rx &&& 0x01 = 0 ∧ secondByte rx &&& s.waitIrq = 0) ∧
      pollStops (k - (before.length + 1)) (secondByte last) s.waitIrq = true := by
  induction k with
  | zero => intro s t hk; omega
  | succ k ih =>
    intro s t _ h
    simp only [pollLoop, bind_current, bind_ok_iff] at h
    obtain ⟨v, _, h1, _, _, h2, h3⟩ := h
    obtain ⟨-, r, e1, -, rfl, rfl⟩ := readReg_ok_iff.mp h1
    simp only [update_run, EStateM.Result.ok.injEq, true_and] at h2
    subst h2
    by_cases hp : pollStops k (secondByte r) s.waitIrq = true
    · rw [if_pos hp] at h3
      simp only [pure_run, EStateM.Result.ok.injEq, true_and] at h3
      exact ⟨[], r, e1, by simp, by simp [← h3, State.sent, State.polled], by simp, by simpa⟩
    · rw [if_neg hp] at h3
      simp only [pollStops, Bool.or_eq_true, beq_iff_eq, bne_iff_ne, ne_eq, not_or, not_not] at hp
      obtain ⟨before, last, e, hl, rfl, hb, hs⟩ := ih (by omega) h3
      refine ⟨r :: before, last, e, by simp; omega, ?_, ?_, ?_⟩
      · simp [State.sent, State.polled]
      · intro rx hrx
        rcases List.mem_cons.mp hrx with rfl | hrx
        · exact ⟨hp.1.2, hp.2⟩
        · exact hb rx hrx
      · simpa using hs

/-- Poll (R158 to R160). -/
theorem toCardPoll_ok {s t : State} (h : toCardPoll s = .ok () t) :
    ∃ (before : List (List Byte)) (last : List Byte) (e : Env), before.length < 2000 ∧
      t = ((s.setPhase .poll).polled (secondByte last) (2000 - (before.length + 1))).sent
        ((before ++ [last]).map fun rx => .bus (readFrame s.cfg.aComIrq) rx) e ∧
      (∀ rx ∈ before, secondByte rx &&& 0x01 = 0 ∧ secondByte rx &&& s.waitIrq = 0) ∧
      pollStops (2000 - (before.length + 1)) (secondByte last) s.waitIrq = true := by
  simp only [toCardPoll, bind_update, pollInit] at h
  obtain ⟨before, last, e, hl, rfl, hb, hs⟩ := pollLoop_ok 2000 (by omega) h
  exact ⟨before, last, e, hl, by simp [State.sent, State.polled, State.setCount], hb, hs⟩

/-- Level, last bits, bit length and count (R167 to R169). -/
theorem toCardLen_ok {s t : State} (h : toCardLen s = .ok () t) :
    ∃ l c e, t = (((s.setPhase .len).setLevel (secondByte l)).measure (secondByte c)).sent
      [.bus (readFrame s.cfg.aFifoLevel) l, .bus (readFrame s.cfg.aControl) c] e := by
  simp only [toCardLen, bind_update, bind_current, bind_ok_iff] at h
  obtain ⟨_, _, h1, _, _, h3, h4⟩ := h
  obtain ⟨-, l, e1, -, rfl, rfl⟩ := readReg_ok_iff.mp h1
  obtain ⟨-, c, e2, -, rfl, rfl⟩ := readReg_ok_iff.mp h3
  simp only [update_run, EStateM.Result.ok.injEq, true_and] at h4
  subst h4
  exact ⟨l, c, e2, by simp [State.sent, State.measure, State.setLevel, State.setPhase]⟩

/-- The drain loop: one read for each byte, put where the index stands (R170). -/
theorem drainBytes_ok (k : Nat) : ∀ {s t : State}, drainBytes k s = .ok () t →
    s.i.toNat + k ≤ 16 →
    ∃ (rs : List (List Byte)) (e : Env), rs.length = k ∧
      t = ({ s with resp := fillFrom s.resp s.i.toNat (rs.map secondByte),
                    i := s.i + BitVec.ofNat 5 k }).sent
        (rs.map fun r => .bus (readFrame s.cfg.aFifoData) r) e := by
  induction k with
  | zero =>
    intro s t h _
    simp only [drainBytes, pure_run, EStateM.Result.ok.injEq, true_and] at h
    exact ⟨[], s.env, rfl, by simp [← h, State.sent, fillFrom]⟩
  | succ k ih =>
    intro s t h hk
    simp only [drainBytes, bind_current, bind_ok_iff] at h
    obtain ⟨_, _, h1, _, _, h2, h3⟩ := h
    obtain ⟨-, r, e1, -, rfl, rfl⟩ := readReg_ok_iff.mp h1
    simp only [update_run, EStateM.Result.ok.injEq, true_and] at h2
    subst h2
    have hi : (s.i + 1).toNat = s.i.toNat + 1 := by
      rw [BitVec.toNat_add]
      have : (1 : BitVec 5).toNat = 1 := rfl
      omega
    obtain ⟨rs, e, hl, rfl⟩ := ih h3 (by
      change (s.i + 1).toNat + k ≤ 16
      omega)
    refine ⟨r :: rs, e, by simp [hl], ?_⟩
    simp only [State.sent, State.pushResp, hi, List.map_cons, fillFrom, List.append_assoc,
      List.singleton_append]
    congr 1
    rw [BitVec.add_assoc]
    congr 1
    rw [BitVec.ofNat_add, BitVec.add_comm]
    rfl

/-- The judgement with the error bits clear changes the status and the cause alone. -/
theorem judgeClear_eq (s : State) :
    s.judgeClear = if timerSeen s.irq s.irqEn = true then { s with status := .noTag, cause := .noTag }
      else { s with status := .ok } := rfl

@[simp] theorem judgeClear_cfg (s : State) : s.judgeClear.cfg = s.cfg := by
  rw [judgeClear_eq]
  split <;> rfl

@[simp] theorem judgeClear_cmd (s : State) : s.judgeClear.cmd = s.cmd := by
  rw [judgeClear_eq]
  split <;> rfl

/-- The registers after a drain of these received sequences (R170). -/
def State.drained (s : State) (rs : List (List Byte)) : State :=
  { s with pc := .drain, resp := fillFrom s.resp 0 (rs.map secondByte),
           i := BitVec.ofNat 5 rs.length, respLen := BitVec.ofNat 5 rs.length }

@[simp] theorem drained_cfg (s : State) (rs : List (List Byte)) : (s.drained rs).cfg = s.cfg := rfl

@[simp] theorem drained_isOpen (s : State) (rs : List (List Byte)) :
    (s.drained rs).isOpen = s.isOpen := rfl

@[simp] theorem drained_rst (s : State) (rs : List (List Byte)) : (s.drained rs).rst = s.rst := rfl

@[simp] theorem drained_fault (s : State) (rs : List (List Byte)) :
    (s.drained rs).fault = s.fault := rfl

@[simp] theorem drained_cmd (s : State) (rs : List (List Byte)) : (s.drained rs).cmd = s.cmd := rfl

@[simp] theorem drained_irqEn (s : State) (rs : List (List Byte)) :
    (s.drained rs).irqEn = s.irqEn := rfl

@[simp] theorem drained_waitIrq (s : State) (rs : List (List Byte)) :
    (s.drained rs).waitIrq = s.waitIrq := rfl

@[simp] theorem drained_cnt (s : State) (rs : List (List Byte)) : (s.drained rs).cnt = s.cnt := rfl

@[simp] theorem drained_irq (s : State) (rs : List (List Byte)) : (s.drained rs).irq = s.irq := rfl

@[simp] theorem drained_err (s : State) (rs : List (List Byte)) : (s.drained rs).err = s.err := rfl

@[simp] theorem drained_n (s : State) (rs : List (List Byte)) : (s.drained rs).n = s.n := rfl

@[simp] theorem drained_lastBits (s : State) (rs : List (List Byte)) :
    (s.drained rs).lastBits = s.lastBits := rfl

@[simp] theorem drained_m (s : State) (rs : List (List Byte)) : (s.drained rs).m = s.m := rfl

@[simp] theorem drained_status (s : State) (rs : List (List Byte)) :
    (s.drained rs).status = s.status := rfl

@[simp] theorem drained_bitlen (s : State) (rs : List (List Byte)) :
    (s.drained rs).bitlen = s.bitlen := rfl

@[simp] theorem drained_cause (s : State) (rs : List (List Byte)) :
    (s.drained rs).cause = s.cause := rfl

@[simp] theorem drained_scan (s : State) (rs : List (List Byte)) :
    (s.drained rs).scan = s.scan := rfl

@[simp] theorem drained_cancel (s : State) (rs : List (List Byte)) :
    (s.drained rs).cancel = s.cancel := rfl

@[simp] theorem drained_tx (s : State) (rs : List (List Byte)) : (s.drained rs).tx = s.tx := rfl

@[simp] theorem drained_txLen (s : State) (rs : List (List Byte)) :
    (s.drained rs).txLen = s.txLen := rfl

@[simp] theorem drained_uid (s : State) (rs : List (List Byte)) : (s.drained rs).uid = s.uid := rfl

@[simp] theorem drained_trace (s : State) (rs : List (List Byte)) :
    (s.drained rs).trace = s.trace := rfl

@[simp] theorem drained_scanning (s : State) (rs : List (List Byte)) :
    (s.drained rs).scanning = s.scanning := rfl

@[simp] theorem drained_stalled (s : State) (rs : List (List Byte)) :
    (s.drained rs).stalled = s.stalled := rfl

@[simp] theorem drained_requests (s : State) (rs : List (List Byte)) :
    (s.drained rs).requests = s.requests := rfl

@[simp] theorem drained_termIn (s : State) (rs : List (List Byte)) :
    (s.drained rs).termIn = s.termIn := rfl

@[simp] theorem drained_ret (s : State) (rs : List (List Byte)) : (s.drained rs).ret = s.ret := rfl

@[simp] theorem drained_env (s : State) (rs : List (List Byte)) : (s.drained rs).env = s.env := rfl

@[simp] theorem drained_respLen (s : State) (rs : List (List Byte)) :
    (s.drained rs).respLen = BitVec.ofNat 5 rs.length := rfl

/-- Drain (R170). -/
theorem toCardDrain_ok {s t : State} (h : toCardDrain s = .ok () t) (hm : s.m.toNat ≤ 16) :
    ∃ (rs : List (List Byte)) (e : Env), rs.length = s.m.toNat ∧
      t = (s.drained rs).sent
        (rs.map fun r => .bus (readFrame s.cfg.aFifoData) r) e := by
  simp only [toCardDrain, bind_update, bind_current, bind_ok_iff] at h
  obtain ⟨_, _, h1, h2⟩ := h
  obtain ⟨rs, e, hl, rfl⟩ := drainBytes_ok _ h1 (by simpa [State.setIndex] using hm)
  simp only [update_run, EStateM.Result.ok.injEq, true_and] at h2
  refine ⟨rs, e, by simpa using hl, ?_⟩
  subst h2
  simp only [setIndex_m, setPhase_m] at hl
  have hm' : BitVec.ofNat 5 rs.length = s.m := by
    apply BitVec.eq_of_toNat_eq
    simp only [BitVec.toNat_ofNat]
    omega
  simp [State.sent, State.setIndex, State.setPhase, State.closeResp, State.drained, hm']

/-- The drained count is between 1 and 16 (R169). -/
theorem drainCount_bounds (n : Byte) : 1 ≤ drainCount n ∧ drainCount n ≤ 16 := by
  unfold drainCount clamp fifoCap
  split <;> [omega; split <;> omega]

/-- The count register holds the drained count exactly. -/
theorem measure_m_toNat (s : State) (c : Byte) : (s.measure c).m.toNat = drainCount s.n := by
  have := drainCount_bounds s.n
  simp only [State.measure, BitVec.toNat_ofNat]
  omega

/-- Level to drain for TRANSCEIVE (R166 to R170). -/
theorem toCardLenDrain_ok {s t : State}
    (h : (toCardLen >>= fun _ => toCardDrain) s = .ok () t) :
    ∃ (l c : List Byte) (rs : List (List Byte)) (e : Env),
      rs.length = drainCount (secondByte l) ∧
      t = (((s.setLevel (secondByte l)).measure (secondByte c)).drained rs).sent
        ([.bus (readFrame s.cfg.aFifoLevel) l, .bus (readFrame s.cfg.aControl) c] ++
          rs.map fun r => .bus (readFrame s.cfg.aFifoData) r) e := by
  obtain ⟨_, _, h1, h2⟩ := bind_ok_iff.mp h
  obtain ⟨l, c, e, rfl⟩ := toCardLen_ok h1
  have hm := measure_m_toNat ((s.setPhase .len).setLevel (secondByte l)) (secondByte c)
  have hb := drainCount_bounds (secondByte l)
  have hn : ((s.setPhase .len).setLevel (secondByte l)).n = secondByte l := rfl
  rw [hn] at hm
  obtain ⟨rs, e', hl, rfl⟩ := toCardDrain_ok h2 (by
    rw [sent_m, hm]
    exact hb.2)
  simp only [sent_m] at hl
  rw [hm] at hl
  refine ⟨l, c, rs, e', hl, ?_⟩
  simp [State.sent, State.measure, State.setLevel, State.setPhase, State.drained]

/-- Steps 7 and 8: the four ways they end (R162 to R172). -/
theorem toCardCheck_ok {s t : State} (h : toCardCheck s = .ok () t) :
    (s.cnt = 0 ∧ t = (s.setPhase .check).setCause .protocolTimeout) ∨
    (s.cnt ≠ 0 ∧ ∃ v e u, u = ((s.setPhase .check).setErr (secondByte v)).sent
        [.bus (readFrame s.cfg.aError) v] e ∧
      ((errorClear (secondByte v) = false ∧ t = u.setCause .readerErrorBits) ∨
      (errorClear (secondByte v) = true ∧ s.cmd ≠ s.cfg.cmdTransceive ∧ t = u.judgeClear) ∨
      (errorClear (secondByte v) = true ∧ s.cmd = s.cfg.cmdTransceive ∧
        ∃ (l c : List Byte) (rs : List (List Byte)) (e' : Env),
          rs.length = drainCount (secondByte l) ∧
          t = (((u.judgeClear.setLevel (secondByte l)).measure (secondByte c)).drained rs).sent
            ([.bus (readFrame s.cfg.aFifoLevel) l, .bus (readFrame s.cfg.aControl) c] ++
              rs.map fun r => .bus (readFrame s.cfg.aFifoData) r) e'))) := by
  simp only [toCardCheck, bind_update, bind_current] at h
  by_cases hc : s.cnt = 0
  · rw [if_pos (show (s.setPhase .check).cnt = 0 from hc)] at h
    simp only [update_run, EStateM.Result.ok.injEq, true_and] at h
    exact .inl ⟨hc, h.symm⟩
  · rw [if_neg (show ¬ (s.setPhase .check).cnt = 0 from hc)] at h
    obtain ⟨_, _, h1, h2⟩ := bind_ok_iff.mp h
    obtain ⟨-, v, e, -, rfl, rfl⟩ := readReg_ok_iff.mp h1
    refine .inr ⟨hc, v, e, _, rfl, ?_⟩
    simp only [bind_update] at h2
    by_cases hv : errorClear (secondByte v) = true
    · rw [if_pos hv] at h2
      simp only [toCardClear, bind_update, bind_current] at h2
      by_cases hcmd : s.cmd = s.cfg.cmdTransceive
      · refine .inr (.inr ⟨hv, hcmd, ?_⟩)
        rw [if_pos (by rw [judgeClear_eq]; split <;> exact hcmd)] at h2
        obtain ⟨l, c, rs, e', hl, rfl⟩ := toCardLenDrain_ok h2
        refine ⟨l, c, rs, e', hl, ?_⟩
        simp only [judgeClear_cfg]
        rfl
      · refine .inr (.inl ⟨hv, hcmd, ?_⟩)
        rw [if_neg (by rw [judgeClear_eq]; split <;> exact hcmd)] at h2
        simp only [pure_run, EStateM.Result.ok.injEq, true_and] at h2
        exact h2.symm
    · rw [if_neg hv] at h2
      simp only [update_run, EStateM.Result.ok.injEq, true_and] at h2
      exact .inl ⟨by simpa using hv, h2.symm⟩

/-- The eight steps, one after the other (R173). -/
theorem runCommand_ok {c : Byte} {s t : State} (h : runCommand c s = .ok () t) :
    ∃ s1 s2 s3 s4 s5 s6, toCardArm (s.beginCommand c) = .ok () s1 ∧ toCardLoad s1 = .ok () s2 ∧
      toCardStart s2 = .ok () s3 ∧ toCardPoll s3 = .ok () s4 ∧ toCardStop s4 = .ok () s5 ∧
      toCardCheck s5 = .ok () s6 ∧ t = (s6.setPhase .done).setPhase .idle := by
  simp only [runCommand, bind_update, bind_ok_iff] at h
  obtain ⟨_, s1, h1, _, s2, h2, _, s3, h3, _, s4, h4, _, s5, h5, _, s6, h6, h7⟩ := h
  simp only [update_run, EStateM.Result.ok.injEq, true_and] at h7
  exact ⟨s1, s2, s3, s4, s5, s6, h1, h2, h3, h4, h5, h6, h7.symm⟩

end Sys2Proof.Machine
end

