-- ==== Sys2Proof/Laws/Ends.lean ====
section
/-! SUPPORT. How register transactions and what is built on them stop (in FAULT, with one of its
two causes), and when they end well (spec/60_exceptions.md R246; spec/42_command_engine.md R173). -/

namespace Sys2Proof.Machine

/-! ### Where they stop -/

/-- An operation that stops by entering FAULT and in no other way. -/
def StopsInFault {α : Type} (x : Op α) : Prop := ∀ {s t : State} {h : Halt},
  x s = .error h t → h = .fault ∧ t.fault = true ∧ t.scanning = false ∧
    (t.cause = .transportError ∨ t.cause = .resetLow)

theorem stops_bind {α β : Type} {x : Op α} {f : α → Op β} (hx : StopsInFault x)
    (hf : ∀ a, StopsInFault (f a)) : StopsInFault (x >>= f) := by
  intro s t h e
  rcases bind_error_iff.mp e with e | ⟨a, u, -, e⟩
  · exact hx e
  · exact hf a e

theorem stops_pure {α : Type} (a : α) : StopsInFault (pure a : Op α) := by
  intro s t h e
  cases e

theorem stops_current : StopsInFault current := by
  intro s t h e
  cases e

theorem stops_update (g : State → State) : StopsInFault (update g) := by
  intro s t h e
  cases e

theorem stops_ite {α : Type} {c : Prop} [Decidable c] {x y : Op α} (hx : StopsInFault x)
    (hy : StopsInFault y) : StopsInFault (if c then x else y) := by
  split <;> assumption

theorem stops_xfer (tx : List Byte) : StopsInFault (xfer tx) := by
  intro s t h e
  rcases xfer_cases tx s with ⟨_, _, -, he⟩ | ⟨_, -, he⟩ <;> rw [he] at e <;> cases e
  exact ⟨rfl, rfl, rfl, .inl rfl⟩

theorem stops_registerXfer (tx : List Byte) : StopsInFault (registerXfer tx) := by
  intro s t h e
  by_cases hr : s.rst = .high
  · rw [registerXfer_high hr] at e
    exact stops_xfer tx e
  · rw [registerXfer_low hr] at e
    cases e
    exact ⟨rfl, rfl, rfl, .inr rfl⟩

theorem stops_writeReg (addr : Addr) (value : Byte) : StopsInFault (writeReg addr value) :=
  stops_bind (stops_registerXfer _) fun _ => stops_pure _

theorem stops_readReg (addr : Addr) : StopsInFault (readReg addr) :=
  stops_bind (stops_registerXfer _) fun _ => stops_pure _

theorem stops_setBits (addr : Addr) (mask : Byte) : StopsInFault (setBits addr mask) :=
  stops_bind (stops_readReg _) fun _ => stops_writeReg _ _

theorem stops_clearBits (addr : Addr) (mask : Byte) : StopsInFault (clearBits addr mask) :=
  stops_bind (stops_readReg _) fun _ => stops_writeReg _ _

theorem stops_antennaOn : StopsInFault antennaOn :=
  stops_bind stops_current fun _ => stops_bind (stops_readReg _) fun _ =>
    stops_ite (stops_pure _) (stops_writeReg _ _)

theorem stops_toCardArm : StopsInFault toCardArm :=
  stops_bind (stops_update _) fun _ => stops_bind stops_current fun _ =>
    stops_bind (stops_writeReg _ _) fun _ => stops_bind (stops_clearBits _ _) fun _ =>
      stops_bind (stops_setBits _ _) fun _ => stops_writeReg _ _

theorem stops_loadBytes (bytes : List Byte) : StopsInFault (loadBytes bytes) := by
  induction bytes with
  | nil => exact stops_pure _
  | cons b rest ih =>
    exact stops_bind stops_current fun _ => stops_bind (stops_writeReg _ _) fun _ =>
      stops_bind (stops_update _) fun _ => ih

theorem stops_toCardLoad : StopsInFault toCardLoad :=
  stops_bind (stops_update _) fun _ => stops_bind (stops_update _) fun _ =>
    stops_bind stops_current fun _ => stops_loadBytes _

theorem stops_toCardStart : StopsInFault toCardStart :=
  stops_bind (stops_update _) fun _ => stops_bind stops_current fun _ =>
    stops_bind (stops_writeReg _ _) fun _ => stops_ite (stops_setBits _ _) (stops_pure _)

theorem stops_pollLoop (k : Nat) : StopsInFault (pollLoop k) := by
  induction k with
  | zero => exact stops_pure _
  | succ k ih =>
    exact stops_bind stops_current fun _ => stops_bind (stops_readReg _) fun _ =>
      stops_bind (stops_update _) fun _ => stops_ite (stops_pure _) ih

theorem stops_toCardPoll : StopsInFault toCardPoll :=
  stops_bind (stops_update _) fun _ => stops_bind (stops_update _) fun _ => stops_pollLoop _

theorem stops_toCardStop : StopsInFault toCardStop :=
  stops_bind (stops_update _) fun _ => stops_bind stops_current fun _ => stops_clearBits _ _

theorem stops_toCardLen : StopsInFault toCardLen :=
  stops_bind (stops_update _) fun _ => stops_bind stops_current fun _ =>
    stops_bind (stops_readReg _) fun _ => stops_bind (stops_update _) fun _ =>
      stops_bind (stops_readReg _) fun _ => stops_update _

theorem stops_drainBytes (k : Nat) : StopsInFault (drainBytes k) := by
  induction k with
  | zero => exact stops_pure _
  | succ k ih =>
    exact stops_bind stops_current fun _ => stops_bind (stops_readReg _) fun _ =>
      stops_bind (stops_update _) fun _ => ih

theorem stops_toCardDrain : StopsInFault toCardDrain :=
  stops_bind (stops_update _) fun _ => stops_bind (stops_update _) fun _ =>
    stops_bind stops_current fun _ => stops_bind (stops_drainBytes _) fun _ => stops_update _

theorem stops_toCardCheck : StopsInFault toCardCheck :=
  stops_bind (stops_update _) fun _ => stops_bind stops_current fun _ =>
    stops_ite (stops_update _) <| stops_bind (stops_readReg _) fun _ =>
      stops_bind (stops_update _) fun _ => stops_ite
        (stops_bind (stops_update _) fun _ => stops_bind stops_current fun _ =>
          stops_ite (stops_bind stops_toCardLen fun _ => stops_toCardDrain) (stops_pure _))
        (stops_update _)

/-- Everything that stops TO_CARD's steps. -/
theorem stops_runCommand (c : Byte) : StopsInFault (runCommand c) :=
  stops_bind (stops_update _) fun _ => stops_bind stops_toCardArm fun _ =>
    stops_bind stops_toCardLoad fun _ => stops_bind stops_toCardStart fun _ =>
      stops_bind stops_toCardPoll fun _ => stops_bind stops_toCardStop fun _ =>
        stops_bind stops_toCardCheck fun _ => stops_bind (stops_update _) fun _ =>
          stops_update _

theorem stops_toCard (c : Byte) (tx : List Byte) : StopsInFault (toCard c tx) :=
  stops_bind (stops_update _) fun _ => stops_runCommand c

theorem stops_request (mode : Byte) : StopsInFault (request mode) :=
  stops_bind (stops_update _) fun _ => stops_bind stops_current fun _ =>
    stops_bind (stops_writeReg _ _) fun _ => stops_bind (stops_toCard _ _) fun _ =>
      stops_bind (stops_update _) fun _ => stops_bind stops_current fun _ => stops_pure _

theorem stops_anticoll : StopsInFault anticoll :=
  stops_bind (stops_update _) fun _ => stops_bind stops_current fun _ =>
    stops_bind (stops_writeReg _ _) fun _ => stops_bind (stops_toCard _ _) fun _ =>
      stops_bind (stops_update _) fun _ => stops_bind stops_current fun _ => stops_pure _

theorem stops_writeAll (ws : List (Addr × Byte)) : StopsInFault (writeAll ws) := by
  induction ws with
  | nil => exact stops_pure _
  | cons w rest ih => exact stops_bind (stops_writeReg _ _) fun _ => ih

/-! ### When they end well -/

/-- An operation that ends well from a high reset line and no failure to come, and leaves both. -/
def EndsWell {α : Type} (x : Op α) : Prop := ∀ s : State, s.rst = .high → s.env.NoFailure →
  ∃ a t, x s = .ok a t ∧ t.rst = .high ∧ t.env.NoFailure

theorem ends_bind {α β : Type} {x : Op α} {f : α → Op β} (hx : EndsWell x)
    (hf : ∀ a, EndsWell (f a)) : EndsWell (x >>= f) := by
  intro s hr hn
  obtain ⟨a, t, h, hr', hn'⟩ := hx s hr hn
  rw [bind_of_ok h]
  exact hf a t hr' hn'

theorem ends_pure {α : Type} (a : α) : EndsWell (pure a : Op α) :=
  fun s hr hn => ⟨a, s, rfl, hr, hn⟩

theorem ends_current : EndsWell current := fun s hr hn => ⟨s, s, rfl, hr, hn⟩

theorem ends_update {g : State → State} (h : ∀ s, (g s).rst = s.rst ∧ (g s).env = s.env) :
    EndsWell (update g) := fun s hr hn =>
  ⟨(), g s, rfl, (h s).1.trans hr, by rw [(h s).2]; exact hn⟩

theorem ends_ite {α : Type} {c : Prop} [Decidable c] {x y : Op α} (hx : EndsWell x)
    (hy : EndsWell y) : EndsWell (if c then x else y) := by
  split <;> assumption

theorem ends_writeReg (addr : Addr) (value : Byte) : EndsWell (writeReg addr value) := by
  intro s hr hn
  obtain ⟨rx, e, he, hn'⟩ := exchange_of_noFailure hn (writeFrame addr value)
  exact ⟨(), _, writeReg_ok hr he, hr, hn'⟩

theorem ends_readReg (addr : Addr) : EndsWell (readReg addr) := by
  intro s hr hn
  obtain ⟨rx, e, he, hn'⟩ := exchange_of_noFailure hn (readFrame addr)
  exact ⟨_, _, readReg_ok hr he, hr, hn'⟩

theorem ends_setBits (addr : Addr) (mask : Byte) : EndsWell (setBits addr mask) :=
  ends_bind (ends_readReg _) fun _ => ends_writeReg _ _

theorem ends_clearBits (addr : Addr) (mask : Byte) : EndsWell (clearBits addr mask) :=
  ends_bind (ends_readReg _) fun _ => ends_writeReg _ _

theorem ends_antennaOn : EndsWell antennaOn :=
  ends_bind ends_current fun _ => ends_bind (ends_readReg _) fun _ =>
    ends_ite (ends_pure _) (ends_writeReg _ _)

theorem ends_toCardArm : EndsWell toCardArm :=
  ends_bind (ends_update fun _ => ⟨rfl, rfl⟩) fun _ => ends_bind ends_current fun _ =>
    ends_bind (ends_writeReg _ _) fun _ => ends_bind (ends_clearBits _ _) fun _ =>
      ends_bind (ends_setBits _ _) fun _ => ends_writeReg _ _

theorem ends_loadBytes (bytes : List Byte) : EndsWell (loadBytes bytes) := by
  induction bytes with
  | nil => exact ends_pure _
  | cons b rest ih =>
    exact ends_bind ends_current fun _ => ends_bind (ends_writeReg _ _) fun _ =>
      ends_bind (ends_update fun _ => ⟨rfl, rfl⟩) fun _ => ih

theorem ends_toCardLoad : EndsWell toCardLoad :=
  ends_bind (ends_update fun _ => ⟨rfl, rfl⟩) fun _ =>
    ends_bind (ends_update fun _ => ⟨rfl, rfl⟩) fun _ =>
      ends_bind ends_current fun _ => ends_loadBytes _

theorem ends_toCardStart : EndsWell toCardStart :=
  ends_bind (ends_update fun _ => ⟨rfl, rfl⟩) fun _ => ends_bind ends_current fun _ =>
    ends_bind (ends_writeReg _ _) fun _ => ends_ite (ends_setBits _ _) (ends_pure _)

theorem ends_pollLoop (k : Nat) : EndsWell (pollLoop k) := by
  induction k with
  | zero => exact ends_pure _
  | succ k ih =>
    exact ends_bind ends_current fun _ => ends_bind (ends_readReg _) fun _ =>
      ends_bind (ends_update fun _ => ⟨rfl, rfl⟩) fun _ => ends_ite (ends_pure _) ih

theorem ends_toCardPoll : EndsWell toCardPoll :=
  ends_bind (ends_update fun _ => ⟨rfl, rfl⟩) fun _ =>
    ends_bind (ends_update fun _ => ⟨rfl, rfl⟩) fun _ => ends_pollLoop _

theorem ends_toCardStop : EndsWell toCardStop :=
  ends_bind (ends_update fun _ => ⟨rfl, rfl⟩) fun _ => ends_bind ends_current fun _ =>
    ends_clearBits _ _

theorem ends_toCardLen : EndsWell toCardLen :=
  ends_bind (ends_update fun _ => ⟨rfl, rfl⟩) fun _ => ends_bind ends_current fun _ =>
    ends_bind (ends_readReg _) fun _ => ends_bind (ends_update fun _ => ⟨rfl, rfl⟩) fun _ =>
      ends_bind (ends_readReg _) fun _ => ends_update fun _ => ⟨rfl, rfl⟩

theorem ends_drainBytes (k : Nat) : EndsWell (drainBytes k) := by
  induction k with
  | zero => exact ends_pure _
  | succ k ih =>
    exact ends_bind ends_current fun _ => ends_bind (ends_readReg _) fun _ =>
      ends_bind (ends_update fun _ => ⟨rfl, rfl⟩) fun _ => ih

theorem ends_toCardDrain : EndsWell toCardDrain :=
  ends_bind (ends_update fun _ => ⟨rfl, rfl⟩) fun _ =>
    ends_bind (ends_update fun _ => ⟨rfl, rfl⟩) fun _ => ends_bind ends_current fun _ =>
      ends_bind (ends_drainBytes _) fun _ => ends_update fun _ => ⟨rfl, rfl⟩

theorem ends_judgeClear : EndsWell (update (·.judgeClear)) := ends_update fun s => by
  rw [judgeClear_eq]
  split <;> exact ⟨rfl, rfl⟩

theorem ends_toCardCheck : EndsWell toCardCheck :=
  ends_bind (ends_update fun _ => ⟨rfl, rfl⟩) fun _ => ends_bind ends_current fun _ =>
    ends_ite (ends_update fun _ => ⟨rfl, rfl⟩) <| ends_bind (ends_readReg _) fun _ =>
      ends_bind (ends_update fun _ => ⟨rfl, rfl⟩) fun _ => ends_ite
        (ends_bind ends_judgeClear fun _ => ends_bind ends_current fun _ =>
          ends_ite (ends_bind ends_toCardLen fun _ => ends_toCardDrain) (ends_pure _))
        (ends_update fun _ => ⟨rfl, rfl⟩)

/-- TO_CARD's steps end on every path (spec/42_command_engine.md R160). -/
theorem ends_runCommand (c : Byte) : EndsWell (runCommand c) :=
  ends_bind (ends_update fun _ => ⟨rfl, rfl⟩) fun _ => ends_bind ends_toCardArm fun _ =>
    ends_bind ends_toCardLoad fun _ => ends_bind ends_toCardStart fun _ =>
      ends_bind ends_toCardPoll fun _ => ends_bind ends_toCardStop fun _ =>
        ends_bind ends_toCardCheck fun _ =>
          ends_bind (ends_update fun _ => ⟨rfl, rfl⟩) fun _ => ends_update fun _ => ⟨rfl, rfl⟩

theorem ends_toCard (c : Byte) (tx : List Byte) : EndsWell (toCard c tx) :=
  ends_bind (ends_update fun _ => ⟨rfl, rfl⟩) fun _ => ends_runCommand c

theorem ends_judgeRequest : EndsWell (update (·.judgeRequest)) := ends_update fun s => by
  unfold State.judgeRequest
  split
  · exact ⟨rfl, rfl⟩
  · split <;> exact ⟨rfl, rfl⟩

theorem ends_judgeAnticoll : EndsWell (update (·.judgeAnticoll)) := ends_update fun s => by
  unfold State.judgeAnticoll
  split
  · split <;> exact ⟨rfl, rfl⟩
  · exact ⟨rfl, rfl⟩

theorem ends_request (mode : Byte) : EndsWell (request mode) :=
  ends_bind (ends_update fun _ => ⟨rfl, rfl⟩) fun _ => ends_bind ends_current fun _ =>
    ends_bind (ends_writeReg _ _) fun _ => ends_bind (ends_toCard _ _) fun _ =>
      ends_bind ends_judgeRequest fun _ => ends_bind ends_current fun _ => ends_pure _

theorem ends_anticoll : EndsWell anticoll :=
  ends_bind (ends_update fun _ => ⟨rfl, rfl⟩) fun _ => ends_bind ends_current fun _ =>
    ends_bind (ends_writeReg _ _) fun _ => ends_bind (ends_toCard _ _) fun _ =>
      ends_bind ends_judgeAnticoll fun _ => ends_bind ends_current fun _ => ends_pure _

theorem ends_writeAll (ws : List (Addr × Byte)) : EndsWell (writeAll ws) := by
  induction ws with
  | nil => exact ends_pure _
  | cons w rest ih => exact ends_bind (ends_writeReg _ _) fun _ => ih

end Sys2Proof.Machine
end

