-- ==== Sys2Proof/Laws/Buffers.lean ====
section
/-! SUPPORT. The buffers, the frames in a stretch of the trace, and the bit length
(spec/10_state.md R43; spec/00_scope.md R13, R16). -/

namespace Sys2Proof.Machine

/-! ### Buffers -/

/-- What a buffer holds after a sequence is written into it. -/
theorem fillFrom_toList (bytes : List Byte) : ∀ (v : Vector Byte 16) (j : Nat),
    j + bytes.length ≤ 16 → (fillFrom v j bytes).toList =
      v.toList.take j ++ bytes ++ v.toList.drop (j + bytes.length) := by
  induction bytes with
  | nil => intro v j _; simp [fillFrom]
  | cons b rest ih =>
    intro v j h
    simp only [List.length_cons] at h
    have hset : (v.setIfInBounds j b).toList = v.toList.set j b := by simp
    have htake : (v.toList.set j b).take (j + 1) = v.toList.take j ++ [b] := by
      have hj : j < 16 := by omega
      rw [List.take_add_one]
      simp [List.take_set_of_le, hj]
    have hdrop : (v.toList.set j b).drop (j + 1 + rest.length) =
        v.toList.drop (j + 1 + rest.length) := by
      rw [List.drop_set_of_lt]
      omega
    rw [fillFrom, ih _ _ (by omega), hset, htake, hdrop]
    simp [Nat.add_assoc, Nat.add_comm 1]

/-- A sequence written from the first entry on, read back with its length. -/
theorem validBytes_fillFrom (v : Vector Byte 16) (bytes : List Byte) (h : bytes.length ≤ 16) :
    validBytes (fillFrom v 0 bytes) (BitVec.ofNat 5 bytes.length) = bytes := by
  have hm : (BitVec.ofNat 5 bytes.length).toNat = bytes.length := by
    simp only [BitVec.toNat_ofNat]
    omega
  rw [validBytes, hm, fillFrom_toList bytes v 0 (by omega)]
  simp

/-- The send buffer holds TO_CARD's operand. -/
theorem txBytes_loadTx (s : State) (tx : List Byte) (h : tx.length ≤ 16) :
    (s.loadTx tx).txBytes = tx := validBytes_fillFrom s.tx tx h

/-- The response is the drained bytes. -/
theorem respBytes_drained (s : State) (rs : List (List Byte)) (h : rs.length ≤ 16) :
    (s.drained rs).respBytes = rs.map secondByte := by
  have := validBytes_fillFrom s.resp (rs.map secondByte) (by simpa using h)
  simpa [State.respBytes, State.drained] using this

/-! ### Frames -/

@[simp] theorem framesOf_nil : framesOf [] = [] := rfl

@[simp] theorem framesOf_bus (tx rx : List Byte) (events : List Event) :
    framesOf (.bus tx rx :: events) = tx :: framesOf events := rfl

@[simp] theorem framesOf_append (x y : List Event) :
    framesOf (x ++ y) = framesOf x ++ framesOf y := by simp [framesOf]

@[simp] theorem framesOf_map {α : Type} (f g : α → List Byte) (l : List α) :
    framesOf (l.map fun x => .bus (f x) (g x)) = l.map f := by
  induction l with
  | nil => rfl
  | cons a l ih => simp [ih]

@[simp] theorem framesOf_map_const (tx : List Byte) (l : List (List Byte)) :
    framesOf (l.map fun rx => .bus tx rx) = List.replicate l.length tx := by
  induction l with
  | nil => rfl
  | cons a l ih => simp [ih, List.replicate_succ]

@[simp] theorem framesOf_zipWith (f : Byte → List Byte) : ∀ (l : List Byte)
    (rs : List (List Byte)), rs.length = l.length →
    framesOf (List.zipWith (fun b r => .bus (f b) r) l rs) = l.map f := by
  intro l
  induction l with
  | nil => intro rs _; rfl
  | cons b l ih =>
    intro rs h
    cases rs with
    | nil => simp at h
    | cons r rs => simp [ih rs (by simpa using h)]

@[simp] theorem busOnly_nil : BusOnly [] := by simp [BusOnly]

@[simp] theorem busOnly_cons (tx rx : List Byte) (events : List Event) :
    BusOnly (.bus tx rx :: events) ↔ BusOnly events := by simp [BusOnly]

@[simp] theorem busOnly_append (x y : List Event) :
    BusOnly (x ++ y) ↔ BusOnly x ∧ BusOnly y := by
  simp only [BusOnly, List.mem_append]
  exact ⟨fun h => ⟨fun e he => h e (.inl he), fun e he => h e (.inr he)⟩,
    fun h e he => he.elim (h.1 e) (h.2 e)⟩

@[simp] theorem busOnly_map {α : Type} (f g : α → List Byte) (l : List α) :
    BusOnly (l.map fun x => .bus (f x) (g x)) := by
  intro e he
  obtain ⟨x, -, rfl⟩ := List.mem_map.mp he
  exact ⟨_, _, rfl⟩

@[simp] theorem busOnly_map_const (tx : List Byte) (l : List (List Byte)) :
    BusOnly (l.map fun rx => .bus tx rx) := by
  intro e he
  obtain ⟨x, -, rfl⟩ := List.mem_map.mp he
  exact ⟨_, _, rfl⟩

@[simp] theorem busOnly_zipWith (f : Byte → List Byte) (l : List Byte) (rs : List (List Byte)) :
    BusOnly (List.zipWith (fun b r => .bus (f b) r) l rs) := by
  intro e he
  obtain ⟨i, hi, rfl⟩ := List.mem_iff_getElem.mp he
  simp

/-! ### The bit length -/

/-- The twelve-bit register holds the formula's integer exactly (spec/00_scope.md R13). -/
theorem bitLengthReg_toInt (n : Byte) (lastBits : BitVec 3) :
    (bitLengthReg n lastBits).toInt = bitLength n lastBits := by
  have hn := n.isLt
  have hl := lastBits.isLt
  unfold bitLengthReg bitLength
  rw [BitVec.toInt_ofInt]
  split <;> apply Int.bmod_eq_of_le <;> omega

/-- The bit length's range (spec/00_scope.md R13). -/
theorem bitLength_bounds (n : Byte) (lastBits : BitVec 3) :
    -7 ≤ bitLength n lastBits ∧ bitLength n lastBits ≤ 2040 := by
  have hn := n.isLt
  have hl := lastBits.isLt
  unfold bitLength
  split
  · omega
  · rename_i h
    have : lastBits.toNat ≠ 0 := fun h' => h (BitVec.eq_of_toNat_eq h')
    omega

/-! ### A whole command -/

theorem sent_setPhase' (s : State) (x : List Event) (e : Env) (p : Phase) :
    (s.sent x e).setPhase p = (s.setPhase p).sent x e := rfl

theorem sent_setIndex' (s : State) (x : List Event) (e : Env) (k : BitVec 5) :
    (s.sent x e).setIndex k = (s.setIndex k).sent x e := rfl

theorem sent_polled' (s : State) (x : List Event) (e : Env) (v : Byte) (k : Nat) :
    (s.sent x e).polled v k = (s.polled v k).sent x e := rfl

theorem sent_txBytes (s : State) (x : List Event) (e : Env) :
    (s.sent x e).txBytes = s.txBytes := rfl

theorem setPhase_txBytes (s : State) (p : Phase) : (s.setPhase p).txBytes = s.txBytes := rfl

/-- Steps 1 to 4: what is sent before the first poll (R152 to R157). -/
theorem commandToPoll_ok {s s1 s2 s3 : State} (h1 : toCardArm s = .ok () s1)
    (h2 : toCardLoad s1 = .ok () s2) (h3 : toCardStart s2 = .ok () s3) :
    ∃ (pre : List Event) (e : Env), BusOnly pre ∧
      pre.length = 7 + s.txBytes.length + (if s.cmd = s.cfg.cmdTransceive then 2 else 0) ∧
      s3 = ((s.setIndex (BitVec.ofNat 5 s.txBytes.length)).setPhase .start).sent pre e := by
  obtain ⟨_, _, _, _, _, _, _, rfl⟩ := toCardArm_ok h1
  obtain ⟨rs, _, hrs, rfl⟩ := toCardLoad_ok h2
  rw [sent_txBytes, setPhase_txBytes] at hrs
  obtain ⟨a, e, ⟨hc, rfl⟩ | ⟨hc, _, _, rfl⟩⟩ := toCardStart_ok h3
  · simp only [sent_cmd, setIndex_cmd, setPhase_cmd, sent_cfg, setIndex_cfg, setPhase_cfg] at hc
    simp only [sent_setPhase', sent_setIndex', sent_sent, sent_txBytes, setPhase_txBytes, sent_cfg,
      setPhase_cfg, setIndex_cfg, sent_cmd, setPhase_cmd, setIndex_cmd]
    refine ⟨_, e, ?_, ?_, rfl⟩
    · simp
    · simp only [List.length_append, List.length_zipWith, List.length_cons, List.length_nil,
        if_neg hc, hrs]
      omega
  · simp only [sent_cmd, setIndex_cmd, setPhase_cmd, sent_cfg, setIndex_cfg, setPhase_cfg] at hc
    simp only [sent_setPhase', sent_setIndex', sent_sent, sent_txBytes, setPhase_txBytes, sent_cfg,
      setPhase_cfg, setIndex_cfg, sent_cmd, setPhase_cmd, setIndex_cmd]
    refine ⟨_, e, ?_, ?_, rfl⟩
    · simp
    · simp only [List.length_append, List.length_zipWith, List.length_cons, List.length_nil,
        if_pos hc, hrs]
      omega

/-- The state a command is in when its stop step is done; `pre` are the events before the polls
(R152 to R161). -/
def State.atStop (s : State) (pre : List Event) (before : List (List Byte))
    (last r w : List Byte) (e : Env) : State :=
  (((s.setIndex (BitVec.ofNat 5 s.txBytes.length)).polled (secondByte last)
      (2000 - (before.length + 1))).setPhase .stop).sent
    (pre ++ (before ++ [last]).map (fun rx => Event.bus (readFrame s.cfg.aComIrq) rx) ++
      [Event.bus (readFrame s.cfg.aBitFraming) r,
       Event.bus (writeFrame s.cfg.aBitFraming (andNotMask (secondByte r) s.cfg.startSend)) w]) e

/-- Steps 1 to 6 (R152 to R161). -/
theorem commandToStop_ok {s s1 s2 s3 s4 s5 : State} (h1 : toCardArm s = .ok () s1)
    (h2 : toCardLoad s1 = .ok () s2) (h3 : toCardStart s2 = .ok () s3)
    (h4 : toCardPoll s3 = .ok () s4) (h5 : toCardStop s4 = .ok () s5) :
    ∃ (pre : List Event) (before : List (List Byte)) (last r w : List Byte) (e : Env),
      BusOnly pre ∧
      pre.length = 7 + s.txBytes.length + (if s.cmd = s.cfg.cmdTransceive then 2 else 0) ∧
      before.length < 2000 ∧
      (∀ rx ∈ before, secondByte rx &&& 0x01 = 0 ∧ secondByte rx &&& s.waitIrq = 0) ∧
      pollStops (2000 - (before.length + 1)) (secondByte last) s.waitIrq = true ∧
      s5 = s.atStop pre before last r w e := by
  obtain ⟨pre, _, hp, hpl, rfl⟩ := commandToPoll_ok h1 h2 h3
  obtain ⟨before, last, _, hl, rfl, hb, hs⟩ := toCardPoll_ok h4
  obtain ⟨r, w, e, rfl⟩ := toCardStop_ok h5
  exact ⟨pre, before, last, r, w, e, hp, hpl, hl, hb, hs, by
    simp only [sent_setPhase', sent_polled', sent_sent]
    rfl⟩

/-- A command that ends well: the state at its stop step, then the check (R173). -/
theorem runCommand_atStop {c : Byte} {s t : State} (h : runCommand c s = .ok () t) :
    ∃ (pre : List Event) (before : List (List Byte)) (last r w : List Byte) (e : Env) (u : State),
      BusOnly pre ∧
      pre.length = 7 + s.txBytes.length + (if c = s.cfg.cmdTransceive then 2 else 0) ∧
      before.length < 2000 ∧
      (∀ rx ∈ before, secondByte rx &&& 0x01 = 0 ∧ secondByte rx &&& waitMask s.cfg c = 0) ∧
      pollStops (2000 - (before.length + 1)) (secondByte last) (waitMask s.cfg c) = true ∧
      toCardCheck ((s.beginCommand c).atStop pre before last r w e) = .ok () u ∧
      t = u.setPhase .idle := by
  obtain ⟨s1, s2, s3, s4, s5, u, h1, h2, h3, h4, h5, h6, rfl⟩ := runCommand_ok h
  obtain ⟨pre, before, last, r, w, e, hp, hpl, hl, hb, hs, rfl⟩ := commandToStop_ok h1 h2 h3 h4 h5
  exact ⟨pre, before, last, r, w, e, u, hp, hpl, hl, hb, hs, h6, rfl⟩

end Sys2Proof.Machine
end

