-- ==== Sys2Proof/Laws/Failures.lean ====
section
/-! SUPPORT. What a failed exchange does to an operation, said once per shared operation: either it
is not reached and one answer is used for each exchange, or the operation stops there
(spec/40_bus_transport.md R122; spec/60_exceptions.md R246, R259). -/

namespace Sys2Proof.Machine

/-- An environment that answers these and then fails is the one `failingAfter` names. -/
theorem eq_failingAfter {e : Env} {answers : List (List Byte)} {rest : List (Option (List Byte))}
    (h : e.bus = .oracle (answers.map some ++ none :: rest)) : e = e.failingAfter answers rest := by
  cases e
  cases h
  rfl

/-- From a high reset line and a list of answers with one failure in it, the operation ends well
before it, or stops at it. -/
def MeetsFailure {α : Type} (x : Op α) : Prop :=
  ∀ (s : State) (answers : List (List Byte)) (rest : List (Option (List Byte))), s.rst = .high →
    s.env.bus = .oracle (answers.map some ++ none :: rest) →
    (∃ a t events, x s = .ok a t ∧ BusOnly events ∧ events.length ≤ answers.length ∧
      t.rst = .high ∧ t.fault = s.fault ∧ t.trace = s.trace ++ events ∧
      t.env = s.env.failingAfter (answers.drop events.length) rest) ∨
    (∃ t events, x s = .error .fault t ∧ BusOnly events ∧ events.length = answers.length ∧
      t.fault = true ∧ t.cause = .transportError ∧ t.scanning = false ∧
      t.trace = s.trace ++ events ∧ t.env = { s.env with bus := .oracle rest })

theorem meets_bind {α β : Type} {x : Op α} {f : α → Op β} (hx : MeetsFailure x)
    (hf : ∀ a, MeetsFailure (f a)) : MeetsFailure (x >>= f) := by
  intro s answers rest hr he
  rcases hx s answers rest hr he with ⟨a, t, es, h, hb, hl, hr', hft, htr, henv⟩ | ⟨t, es, h, hrest⟩
  · rw [bind_of_ok h]
    have he' : t.env.bus = .oracle ((answers.drop es.length).map some ++ none :: rest) := by
      rw [henv]
      rfl
    have hdrop : (answers.drop es.length).length = answers.length - es.length := List.length_drop
    rcases hf a t _ rest hr' he' with
      ⟨b, u, es', h', hb', hl', hr'', hft', htr', henv'⟩ |
      ⟨u, es', h', hb', hl', hfu, hcu, hsu, htr', henv'⟩
    · refine .inl ⟨b, u, es ++ es', h', (busOnly_append es es').mpr ⟨hb, hb'⟩, ?_, hr'', hft'.trans hft, ?_, ?_⟩
      · rw [List.length_append]
        omega
      · rw [htr', htr, List.append_assoc]
      · rw [henv', henv, List.drop_drop, List.length_append]
        rfl
    · refine .inr ⟨u, es ++ es', h', (busOnly_append es es').mpr ⟨hb, hb'⟩, ?_, hfu, hcu, hsu, ?_, ?_⟩
      · rw [List.length_append]
        omega
      · rw [htr', htr, List.append_assoc]
      · rw [henv', henv]
        rfl
  · exact .inr ⟨t, es, bind_of_error h, hrest⟩

/-- A stretch that makes no exchange. -/
theorem meets_quiet {α : Type} {x : Op α} (h : ∀ s, ∃ a t, x s = .ok a t ∧ t.rst = s.rst ∧
    t.fault = s.fault ∧ t.trace = s.trace ∧ t.env = s.env) : MeetsFailure x := by
  intro s answers rest hr he
  obtain ⟨a, t, hx, h1, h2, h3, h4⟩ := h s
  exact .inl ⟨a, t, [], hx, by simp [BusOnly], Nat.zero_le _, h1.trans hr, h2, by simp [h3],
    by rw [h4]; exact eq_failingAfter he⟩

theorem meets_pure {α : Type} (a : α) : MeetsFailure (pure a : Op α) :=
  meets_quiet fun s => ⟨a, s, rfl, rfl, rfl, rfl, rfl⟩

theorem meets_current : MeetsFailure current := meets_quiet fun s => ⟨s, s, rfl, rfl, rfl, rfl, rfl⟩

theorem meets_update {g : State → State} (h : ∀ s, (g s).rst = s.rst ∧ (g s).fault = s.fault ∧
    (g s).trace = s.trace ∧ (g s).env = s.env) : MeetsFailure (update g) :=
  meets_quiet fun s => ⟨(), g s, rfl, h s⟩

theorem meets_ite {α : Type} {c : Prop} [Decidable c] {x y : Op α} (hx : MeetsFailure x)
    (hy : MeetsFailure y) : MeetsFailure (if c then x else y) := by
  split <;> assumption

theorem meets_xfer (tx : List Byte) : MeetsFailure (xfer tx) := by
  intro s answers rest hr he
  cases answers with
  | nil =>
    have hx : s.env.exchange tx = (none, { s.env with bus := .oracle rest }) := by
      rw [eq_failingAfter he]
      rfl
    rcases xfer_cases tx s with ⟨_, _, h, -⟩ | ⟨e, h, hs⟩ <;> rw [hx] at h <;> cases h
    exact .inr ⟨_, [], hs, by simp [BusOnly], rfl, rfl, rfl, rfl, by simp, rfl⟩
  | cons a more =>
    have hx : s.env.exchange tx = (some (fitLength tx.length a), s.env.failingAfter more rest) := by
      rw [eq_failingAfter he]
      rfl
    rcases xfer_cases tx s with ⟨_, _, h, hs⟩ | ⟨e, h, -⟩ <;> rw [hx] at h <;> cases h
    exact .inl ⟨_, _, [.bus tx (fitLength tx.length a)], hs, by simp [BusOnly], by simp, hr, rfl,
      rfl, rfl⟩

theorem meets_registerXfer (tx : List Byte) : MeetsFailure (registerXfer tx) := by
  intro s answers rest hr he
  rw [registerXfer_high hr]
  exact meets_xfer tx s answers rest hr he

theorem meets_writeReg (addr : Addr) (value : Byte) : MeetsFailure (writeReg addr value) :=
  meets_bind (meets_registerXfer _) fun _ => meets_pure _

theorem meets_readReg (addr : Addr) : MeetsFailure (readReg addr) :=
  meets_bind (meets_registerXfer _) fun _ => meets_pure _

theorem meets_setBits (addr : Addr) (mask : Byte) : MeetsFailure (setBits addr mask) :=
  meets_bind (meets_readReg _) fun _ => meets_writeReg _ _

theorem meets_clearBits (addr : Addr) (mask : Byte) : MeetsFailure (clearBits addr mask) :=
  meets_bind (meets_readReg _) fun _ => meets_writeReg _ _

theorem meets_antennaOn : MeetsFailure antennaOn :=
  meets_bind meets_current fun _ => meets_bind (meets_readReg _) fun _ =>
    meets_ite (meets_pure _) (meets_writeReg _ _)

theorem meets_writeAll (ws : List (Addr × Byte)) : MeetsFailure (writeAll ws) := by
  induction ws with
  | nil => exact meets_pure _
  | cons w rest ih => exact meets_bind (meets_writeReg _ _) fun _ => ih

theorem meets_toCardArm : MeetsFailure toCardArm :=
  meets_bind (meets_update fun _ => ⟨rfl, rfl, rfl, rfl⟩) fun _ => meets_bind meets_current fun _ =>
    meets_bind (meets_writeReg _ _) fun _ => meets_bind (meets_clearBits _ _) fun _ =>
      meets_bind (meets_setBits _ _) fun _ => meets_writeReg _ _

theorem meets_loadBytes (bytes : List Byte) : MeetsFailure (loadBytes bytes) := by
  induction bytes with
  | nil => exact meets_pure _
  | cons b rest ih =>
    exact meets_bind meets_current fun _ => meets_bind (meets_writeReg _ _) fun _ =>
      meets_bind (meets_update fun _ => ⟨rfl, rfl, rfl, rfl⟩) fun _ => ih

theorem meets_toCardLoad : MeetsFailure toCardLoad :=
  meets_bind (meets_update fun _ => ⟨rfl, rfl, rfl, rfl⟩) fun _ =>
    meets_bind (meets_update fun _ => ⟨rfl, rfl, rfl, rfl⟩) fun _ =>
      meets_bind meets_current fun _ => meets_loadBytes _

theorem meets_toCardStart : MeetsFailure toCardStart :=
  meets_bind (meets_update fun _ => ⟨rfl, rfl, rfl, rfl⟩) fun _ => meets_bind meets_current fun _ =>
    meets_bind (meets_writeReg _ _) fun _ => meets_ite (meets_setBits _ _) (meets_pure _)

theorem meets_pollLoop (k : Nat) : MeetsFailure (pollLoop k) := by
  induction k with
  | zero => exact meets_pure _
  | succ k ih =>
    exact meets_bind meets_current fun _ => meets_bind (meets_readReg _) fun _ =>
      meets_bind (meets_update fun _ => ⟨rfl, rfl, rfl, rfl⟩) fun _ => meets_ite (meets_pure _) ih

theorem meets_toCardPoll : MeetsFailure toCardPoll :=
  meets_bind (meets_update fun _ => ⟨rfl, rfl, rfl, rfl⟩) fun _ =>
    meets_bind (meets_update fun _ => ⟨rfl, rfl, rfl, rfl⟩) fun _ => meets_pollLoop _

theorem meets_toCardStop : MeetsFailure toCardStop :=
  meets_bind (meets_update fun _ => ⟨rfl, rfl, rfl, rfl⟩) fun _ => meets_bind meets_current fun _ =>
    meets_clearBits _ _

theorem meets_toCardLen : MeetsFailure toCardLen :=
  meets_bind (meets_update fun _ => ⟨rfl, rfl, rfl, rfl⟩) fun _ => meets_bind meets_current fun _ =>
    meets_bind (meets_readReg _) fun _ => meets_bind (meets_update fun _ => ⟨rfl, rfl, rfl, rfl⟩)
      fun _ => meets_bind (meets_readReg _) fun _ => meets_update fun _ => ⟨rfl, rfl, rfl, rfl⟩

theorem meets_drainBytes (k : Nat) : MeetsFailure (drainBytes k) := by
  induction k with
  | zero => exact meets_pure _
  | succ k ih =>
    exact meets_bind meets_current fun _ => meets_bind (meets_readReg _) fun _ =>
      meets_bind (meets_update fun _ => ⟨rfl, rfl, rfl, rfl⟩) fun _ => ih

theorem meets_toCardDrain : MeetsFailure toCardDrain :=
  meets_bind (meets_update fun _ => ⟨rfl, rfl, rfl, rfl⟩) fun _ =>
    meets_bind (meets_update fun _ => ⟨rfl, rfl, rfl, rfl⟩) fun _ =>
      meets_bind meets_current fun _ => meets_bind (meets_drainBytes _) fun _ =>
        meets_update fun _ => ⟨rfl, rfl, rfl, rfl⟩

theorem meets_judgeClear : MeetsFailure (update (·.judgeClear)) := meets_update fun s => by
  unfold State.judgeClear
  split <;> exact ⟨rfl, rfl, rfl, rfl⟩

theorem meets_toCardCheck : MeetsFailure toCardCheck :=
  meets_bind (meets_update fun _ => ⟨rfl, rfl, rfl, rfl⟩) fun _ => meets_bind meets_current fun _ =>
    meets_ite (meets_update fun _ => ⟨rfl, rfl, rfl, rfl⟩) <| meets_bind (meets_readReg _) fun _ =>
      meets_bind (meets_update fun _ => ⟨rfl, rfl, rfl, rfl⟩) fun _ => meets_ite
        (meets_bind meets_judgeClear fun _ => meets_bind meets_current fun _ =>
          meets_ite (meets_bind meets_toCardLen fun _ => meets_toCardDrain) (meets_pure _))
        (meets_update fun _ => ⟨rfl, rfl, rfl, rfl⟩)

/-- A chip command stops at the first exchange that fails. -/
theorem meets_runCommand (c : Byte) : MeetsFailure (runCommand c) :=
  meets_bind (meets_update fun _ => ⟨rfl, rfl, rfl, rfl⟩) fun _ => meets_bind meets_toCardArm fun _ =>
    meets_bind meets_toCardLoad fun _ => meets_bind meets_toCardStart fun _ =>
      meets_bind meets_toCardPoll fun _ => meets_bind meets_toCardStop fun _ =>
        meets_bind meets_toCardCheck fun _ =>
          meets_bind (meets_update fun _ => ⟨rfl, rfl, rfl, rfl⟩) fun _ =>
            meets_update fun _ => ⟨rfl, rfl, rfl, rfl⟩

theorem meets_toCard (c : Byte) (tx : List Byte) : MeetsFailure (toCard c tx) :=
  meets_bind (meets_update fun _ => ⟨rfl, rfl, rfl, rfl⟩) fun _ => meets_runCommand c

theorem meets_request (mode : Byte) : MeetsFailure (request mode) :=
  meets_bind (meets_update fun _ => ⟨rfl, rfl, rfl, rfl⟩) fun _ => meets_bind meets_current fun _ =>
    meets_bind (meets_writeReg _ _) fun _ => meets_bind (meets_toCard _ _) fun _ =>
      meets_bind (meets_update fun s => by
        unfold State.judgeRequest
        split
        · exact ⟨rfl, rfl, rfl, rfl⟩
        · split <;> exact ⟨rfl, rfl, rfl, rfl⟩) fun _ =>
          meets_bind meets_current fun _ => meets_pure _

theorem meets_anticoll : MeetsFailure anticoll :=
  meets_bind (meets_update fun _ => ⟨rfl, rfl, rfl, rfl⟩) fun _ => meets_bind meets_current fun _ =>
    meets_bind (meets_writeReg _ _) fun _ => meets_bind (meets_toCard _ _) fun _ =>
      meets_bind (meets_update fun s => by
        unfold State.judgeAnticoll
        split
        · split <;> exact ⟨rfl, rfl, rfl, rfl⟩
        · exact ⟨rfl, rfl, rfl, rfl⟩) fun _ =>
          meets_bind meets_current fun _ => meets_pure _

end Sys2Proof.Machine
end

