-- ==== Sys2Proof/Laws/Finish.lean ====
section
/-! SUPPORT. What a command that ends well leaves, once for all its paths: the events in four
stretches, the masks, and the row of the outcome table (spec/42_command_engine.md R173, R177). -/

namespace Sys2Proof.Machine

/-- How steps 7 and 8 leave the result, given what the error register and the polls showed. -/
inductive CheckRow (c : Byte) (t : State) (after : List Event) : Prop where
  | timeout (hcnt : t.cnt = 0) (hev : after = []) (hst : t.status = .error)
      (hlen : t.respLen = 0) (hbits : t.bitlen = 0) (hcause : t.cause = .protocolTimeout)
  | errorBits (hcnt : t.cnt ≠ 0) (herr : errorClear t.err = false) (rx : List Byte)
      (hev : after = [.bus (readFrame t.cfg.aError) rx]) (hst : t.status = .error)
      (hlen : t.respLen = 0) (hbits : t.bitlen = 0) (hcause : t.cause = .readerErrorBits)
  | clear (hcnt : t.cnt ≠ 0) (herr : errorClear t.err = true) (hcmd : c ≠ t.cfg.cmdTransceive)
      (rx : List Byte) (hev : after = [.bus (readFrame t.cfg.aError) rx])
      (hst : t.status = if timerSeen t.irq t.irqEn = true then .noTag else .ok)
      (hcause : t.cause = if timerSeen t.irq t.irqEn = true then .noTag else .none)
      (hlen : t.respLen = 0) (hbits : t.bitlen = 0)
  | drained (hcnt : t.cnt ≠ 0) (herr : errorClear t.err = true) (hcmd : c = t.cfg.cmdTransceive)
      (rx l k : List Byte) (rs : List (List Byte)) (hrs : rs.length = drainCount t.n)
      (hev : after = [.bus (readFrame t.cfg.aError) rx, .bus (readFrame t.cfg.aFifoLevel) l,
        .bus (readFrame t.cfg.aControl) k] ++
          rs.map fun r => .bus (readFrame t.cfg.aFifoData) r)
      (hst : t.status = if timerSeen t.irq t.irqEn = true then .noTag else .ok)
      (hcause : t.cause = if timerSeen t.irq t.irqEn = true then .noTag else .none)
      (hn : t.n = secondByte l) (hlast : t.lastBits = lastBitsOf (secondByte k))
      (hm : t.m.toNat = drainCount t.n) (hlen : t.respLen = t.m)
      (hbits : t.bitlen = bitLengthReg t.n t.lastBits)
      (hresp : t.respBytes = rs.map secondByte)

/-- The registers the check does not touch, and the row it ends in. -/
structure CheckDone (s t : State) (after : List Event) : Prop where
  trace : t.trace = s.trace ++ after
  cfg : t.cfg = s.cfg
  cmd : t.cmd = s.cmd
  irqEn : t.irqEn = s.irqEn
  waitIrq : t.waitIrq = s.waitIrq
  cnt : t.cnt = s.cnt
  irq : t.irq = s.irq
  fault : t.fault = s.fault
  row : CheckRow s.cmd t after

/-- What the judgement with the error bits clear leaves (R164, R165). -/
structure Judged (s t : State) : Prop where
  trace : t.trace = s.trace
  cfg : t.cfg = s.cfg
  cmd : t.cmd = s.cmd
  irqEn : t.irqEn = s.irqEn
  waitIrq : t.waitIrq = s.waitIrq
  cnt : t.cnt = s.cnt
  irq : t.irq = s.irq
  err : t.err = s.err
  fault : t.fault = s.fault
  respLen : t.respLen = s.respLen
  bitlen : t.bitlen = s.bitlen
  resp : t.resp = s.resp
  status : t.status = if timerSeen t.irq t.irqEn = true then .noTag else .ok
  cause : t.cause = if timerSeen t.irq t.irqEn = true then .noTag else s.cause

theorem judged (s : State) : Judged s s.judgeClear := by
  rw [judgeClear_eq]
  split <;> rename_i h <;> constructor <;> simp [h]

/-- The check from a state with a fresh result (R162 to R172). -/
theorem toCardCheck_done {s t : State} (h : toCardCheck s = .ok () t) (hst : s.status = .error)
    (hlen : s.respLen = 0) (hbits : s.bitlen = 0) (hcause : s.cause = .none) :
    ∃ after, CheckDone s t after := by
  rcases toCardCheck_ok h with ⟨hc, rfl⟩ | ⟨hc, v, e, u, hu, ⟨hv, rfl⟩ | ⟨hv, hcmd, rfl⟩ |
    ⟨hv, hcmd, l, k, rs, e', hrs, rfl⟩⟩
  · exact ⟨[], by simp, rfl, rfl, rfl, rfl, rfl, rfl, rfl, .timeout hc rfl hst hlen hbits rfl⟩
  · subst hu
    exact ⟨[.bus (readFrame s.cfg.aError) v], by simp, rfl, rfl, rfl, rfl, rfl, rfl, rfl,
      .errorBits hc hv v rfl hst hlen hbits rfl⟩
  · have j := judged u
    generalize u.judgeClear = w at *
    subst hu
    refine ⟨[.bus (readFrame s.cfg.aError) v], by rw [j.trace]; simp, j.cfg, j.cmd, j.irqEn,
      j.waitIrq, j.cnt, j.irq, j.fault, .clear ?_ ?_ ?_ v ?_ j.status ?_ ?_ ?_⟩
    · rw [j.cnt]; exact hc
    · rw [j.err]; exact hv
    · rw [j.cfg]; exact hcmd
    · rw [j.cfg]; rfl
    · rw [j.cause]; simp [hcause]
    · rw [j.respLen]; exact hlen
    · rw [j.bitlen]; exact hbits
  · have j := judged u
    generalize u.judgeClear = w at *
    subst hu
    have hb := drainCount_bounds (secondByte l)
    have hm := measure_m_toNat (w.setLevel (secondByte l)) (secondByte k)
    rw [setLevel_n] at hm
    have hr := respBytes_drained ((w.setLevel (secondByte l)).measure (secondByte k)) rs (by omega)
    refine ⟨[.bus (readFrame s.cfg.aError) v, .bus (readFrame s.cfg.aFifoLevel) l,
      .bus (readFrame s.cfg.aControl) k] ++ rs.map fun r => .bus (readFrame s.cfg.aFifoData) r,
      ?_, ?_, ?_, ?_, ?_, ?_, ?_, ?_, .drained ?_ ?_ ?_ v l k rs ?_ ?_ ?_ ?_ ?_ ?_ ?_ ?_ ?_ hr⟩
    all_goals simp only [sent_trace, sent_cfg, sent_cmd, sent_irqEn, sent_waitIrq, sent_cnt,
      sent_irq, sent_fault, sent_err, sent_n, sent_m, sent_status, sent_cause, sent_lastBits,
      sent_bitlen, sent_respLen, drained_trace, drained_cfg, drained_cmd, drained_irqEn,
      drained_waitIrq, drained_cnt, drained_irq, drained_fault, drained_err, drained_n, drained_m,
      drained_status, drained_cause, drained_lastBits, drained_bitlen, drained_respLen,
      measure_trace, measure_cfg, measure_cmd, measure_irqEn, measure_waitIrq, measure_cnt,
      measure_irq, measure_fault, measure_err, measure_n, measure_status, measure_cause,
      setLevel_trace, setLevel_cfg, setLevel_cmd, setLevel_irqEn, setLevel_waitIrq, setLevel_cnt,
      setLevel_irq, setLevel_fault, setLevel_err, setLevel_n, setLevel_status, setLevel_cause]
    · rw [j.trace]
      simp
    · exact j.cfg
    · exact j.cmd
    · exact j.irqEn
    · exact j.waitIrq
    · exact j.cnt
    · exact j.irq
    · exact j.fault
    · rw [j.cnt]
      exact hc
    · rw [j.err]
      exact hv
    · rw [j.cfg]
      exact hcmd
    · exact hrs
    · rw [j.cfg]
      rfl
    · exact j.status
    · rw [j.cause]
      simp only [sent_cause, setErr_cause, setPhase_cause, hcause]
      rfl
    · rfl
    · exact hm
    · apply BitVec.eq_of_toNat_eq
      rw [hm]
      simp only [BitVec.toNat_ofNat]
      omega
    · rfl

/-- A command that ends well from `s`: `pre` before the polls, `before` and `last` the polls, the
stop step's two frames, then `after`. -/
structure CommandDone (c : Byte) (s t : State) (pre : List Event) (before : List (List Byte))
    (last r w : List Byte) (after : List Event) : Prop where
  preBus : BusOnly pre
  preLength : pre.length = 7 + s.txBytes.length + (if c = s.cfg.cmdTransceive then 2 else 0)
  polls : before.length < 2000
  silent : ∀ rx ∈ before, secondByte rx &&& 0x01 = 0 ∧ secondByte rx &&& waitMask s.cfg c = 0
  stops : pollStops t.cnt.toNat (secondByte last) (waitMask s.cfg c) = true
  trace : t.trace = s.trace ++ pre ++
    (before ++ [last]).map (fun rx => .bus (readFrame s.cfg.aComIrq) rx) ++
    [.bus (readFrame s.cfg.aBitFraming) r,
     .bus (writeFrame s.cfg.aBitFraming (andNotMask (secondByte r) s.cfg.startSend)) w] ++ after
  cfg : t.cfg = s.cfg
  cmd : t.cmd = c
  irqEn : t.irqEn = enableMask s.cfg c
  waitIrq : t.waitIrq = waitMask s.cfg c
  cnt : t.cnt.toNat = 2000 - (before.length + 1)
  irq : t.irq = secondByte last
  fault : t.fault = s.fault
  pc : t.pc = .idle
  row : CheckRow c t after

theorem atStop_cnt_toNat (s : State) (pre : List Event) (before : List (List Byte))
    (last r w : List Byte) (e : Env) : (s.atStop pre before last r w e).cnt.toNat =
      2000 - (before.length + 1) := by
  simp only [State.atStop, sent_cnt, setPhase_cnt, State.polled, BitVec.toNat_ofNat]
  omega

theorem CheckRow.setPhase {c : Byte} {t : State} {after : List Event} (h : CheckRow c t after)
    (p : Phase) : CheckRow c (t.setPhase p) after := by
  cases h with
  | timeout a b d e f g => exact .timeout a b d e f g
  | errorBits a b rx d e f g h => exact .errorBits a b rx d e f g h
  | clear a b c rx d e f g h => exact .clear a b c rx d e f g h
  | drained a b c rx l k rs d e f g h i j m n o => exact .drained a b c rx l k rs d e f g h i j m n o

/-- Everything a command that ends well has done (R152 to R173). -/
theorem runCommand_done {c : Byte} {s t : State} (h : runCommand c s = .ok () t) :
    ∃ pre before last r w after, CommandDone c s t pre before last r w after := by
  obtain ⟨pre, before, last, r, w, e, u, hp, hpl, hl, hb, hs, hu, rfl⟩ := runCommand_atStop h
  have hcnt := atStop_cnt_toNat (s.beginCommand c) pre before last r w e
  obtain ⟨after, d⟩ := toCardCheck_done hu rfl rfl rfl rfl
  refine ⟨pre, before, last, r, w, after, hp, hpl, hl, hb, ?_, ?_, d.cfg, d.cmd, d.irqEn,
    d.waitIrq, ?_, d.irq, d.fault, rfl, d.row.setPhase .idle⟩
  · rw [setPhase_cnt, d.cnt, hcnt]
    exact hs
  · rw [setPhase_trace, d.trace]
    simp only [State.atStop, sent_trace, ← List.append_assoc]
    rfl
  · rw [setPhase_cnt, d.cnt, hcnt]

end Sys2Proof.Machine
end

