-- ==== Sys2Proof/Laws/PerInstr.lean ====
section
/-! SUPPORT. The size and shape of every instruction's bytes, one lemma per constructor
(spec/30_encoding.md R90, R100). -/

namespace Sys2Proof.Laws.EncodingLength

/-- A well-formed instruction has 1 to 257 bytes: two on the bus, one for a chip command code, one
or two for a card frame, and a code byte below 0x0E first in an operation of the host. -/
def Statement (i : Instr) : Prop :=
  ∀ p : Params, i.wellFormed p = true →
    1 ≤ (encode p i).length ∧ (encode p i).length ≤ 257 ∧
    (i.format = .spi16 → (encode p i).length = 2) ∧
    (i.format = .cmd8 → (encode p i).length = 1) ∧
    (i.format = .picc → (encode p i).length ≤ 2) ∧
    (i.format = .host8 → ∃ (code : Byte) (ops : List Byte),
      encode p i = code :: ops ∧ code.toNat < 0x0E)

theorem spiWriteFrame (addr : Addr) (value : Byte) : Statement (.spiWriteFrame addr value) := by
  intro p _
  simp [encode, Instr.format]

theorem spiReadFrame (addr : Addr) : Statement (.spiReadFrame addr) := by
  intro p _
  simp [encode, Instr.format]

theorem cmdIdle (code : Byte) : Statement (.cmdIdle code) := by
  intro p _
  simp [encode, Instr.format]

theorem cmdAuthent : Statement .cmdAuthent := by
  intro p _
  simp [encode, Instr.format]

theorem cmdTransceive : Statement .cmdTransceive := by
  intro p _
  simp [encode, Instr.format]

theorem piccRequest : Statement .piccRequest := by
  intro p _
  simp [encode, Instr.format]

theorem piccAnticoll : Statement .piccAnticoll := by
  intro p _
  simp [encode, Instr.format]

theorem transfer (bytes : List Byte) : Statement (.transfer bytes) := by
  intro p h
  have hl : bytes.length ≤ 255 := by simpa [Instr.wellFormed] using h
  simp only [encode, Instr.format, List.length_cons, reduceCtorEq, false_imp_iff, true_and]
  exact ⟨by omega, by omega, fun _ => ⟨_, _, rfl, by decide⟩⟩

theorem resetWrite (level : Bool) : Statement (.resetWrite level) := by
  intro p _
  simp [encode, Instr.format]

theorem writeReg (addr : Addr) (value : Byte) : Statement (.writeReg addr value) := by
  intro p _
  simp [encode, Instr.format]

theorem readReg (addr : Addr) : Statement (.readReg addr) := by
  intro p _
  simp [encode, Instr.format]

theorem setBits (addr : Addr) (mask : Byte) : Statement (.setBits addr mask) := by
  intro p _
  simp [encode, Instr.format]

theorem clearBits (addr : Addr) (mask : Byte) : Statement (.clearBits addr mask) := by
  intro p _
  simp [encode, Instr.format]

theorem antennaOn : Statement .antennaOn := by
  intro p _
  simp [encode, Instr.format]

theorem toCard (cmd : Byte) (tx : List Byte) : Statement (.toCard cmd tx) := by
  intro p h
  have hl : tx.length ≤ 16 := by simpa [Instr.wellFormed] using h
  simp only [encode, Instr.format, List.length_cons, reduceCtorEq, false_imp_iff, true_and]
  exact ⟨by omega, by omega, fun _ => ⟨_, _, rfl, by decide⟩⟩

theorem request (mode : Byte) : Statement (.request mode) := by
  intro p _
  simp [encode, Instr.format]

theorem anticoll : Statement .anticoll := by
  intro p _
  simp [encode, Instr.format]

theorem selectTag (uid : Uid) : Statement (.selectTag uid) := by
  intro p _
  simp [encode, Instr.format, Uid.bytes]

theorem init : Statement .init := by
  intro p _
  simp [encode, Instr.format]

theorem shutdown : Statement .shutdown := by
  intro p _
  simp [encode, Instr.format]

theorem scan : Statement .scan := by
  intro p _
  simp [encode, Instr.format]

end Sys2Proof.Laws.EncodingLength
end

