-- ==== Sys2Proof/Laws/Ranges.lean ====
section
/-! SUPPORT. The registers stay in the ranges of spec/10_state.md R21, R22 and R43 through every
operation of the Command Engine, wherever it stops. -/

namespace Sys2Proof.Machine

/-- The ranges of the counter, the lengths, the index and the bit length. -/
structure Ranges (s : State) : Prop where
  cnt : s.cnt.toNat ≤ 2000
  txLen : s.txLen.toNat ≤ 16
  respLen : s.respLen.toNat ≤ 16
  index : s.i.toNat ≤ 16
  drain : s.m.toNat ≤ 16
  bitlenLow : -7 ≤ s.bitlen.toInt
  bitlenHigh : s.bitlen.toInt ≤ 2040

/-- The ranges are kept. -/
def KeepsRanges (s t : State) : Prop := Ranges s → Ranges t

theorem keepsRanges_refl (s : State) : KeepsRanges s s := id

theorem keepsRanges_trans (a b c : State) (h : KeepsRanges a b) (k : KeepsRanges b c) :
    KeepsRanges a c := fun r => k (h r)

theorem ranges_bind {α β : Type} {x : Op α} {f : α → Op β} (hx : Keeps KeepsRanges x)
    (hf : ∀ a, Keeps KeepsRanges (f a)) : Keeps KeepsRanges (x >>= f) :=
  keeps_bind keepsRanges_trans hx hf

theorem ranges_pure {α : Type} (a : α) : Keeps KeepsRanges (pure a : Op α) :=
  keeps_pure keepsRanges_refl a

theorem ranges_current : Keeps KeepsRanges current := keeps_current keepsRanges_refl

theorem ranges_ite {α : Type} {c : Prop} [Decidable c] {x y : Op α} (hx : Keeps KeepsRanges x)
    (hy : Keeps KeepsRanges y) : Keeps KeepsRanges (if c then x else y) := by
  split <;> assumption

/-- A change of registers that have no range. -/
theorem ranges_same {s t : State} (h1 : t.cnt = s.cnt) (h2 : t.txLen = s.txLen)
    (h3 : t.respLen = s.respLen) (h4 : t.i = s.i) (h5 : t.m = s.m) (h6 : t.bitlen = s.bitlen) :
    KeepsRanges s t := by
  intro r
  constructor <;> simp only [h1, h2, h3, h4, h5, h6, r.cnt, r.txLen, r.respLen, r.index, r.drain,
    r.bitlenLow, r.bitlenHigh]

theorem ranges_writeReg (addr : Addr) (value : Byte) : Keeps KeepsRanges (writeReg addr value) :=
  keeps_writeReg addr value (fun _ _ _ => ranges_same rfl rfl rfl rfl rfl rfl)
    (fun _ _ => ranges_same rfl rfl rfl rfl rfl rfl) fun _ => ranges_same rfl rfl rfl rfl rfl rfl

theorem ranges_readReg (addr : Addr) : Keeps KeepsRanges (readReg addr) :=
  keeps_readReg addr (fun _ _ _ => ranges_same rfl rfl rfl rfl rfl rfl)
    (fun _ _ => ranges_same rfl rfl rfl rfl rfl rfl) fun _ => ranges_same rfl rfl rfl rfl rfl rfl

theorem ranges_setBits (addr : Addr) (mask : Byte) : Keeps KeepsRanges (setBits addr mask) :=
  ranges_bind (ranges_readReg _) fun _ => ranges_writeReg _ _

theorem ranges_clearBits (addr : Addr) (mask : Byte) : Keeps KeepsRanges (clearBits addr mask) :=
  ranges_bind (ranges_readReg _) fun _ => ranges_writeReg _ _

theorem ranges_setPhase (p : Phase) : Keeps KeepsRanges (update (·.setPhase p)) :=
  fun _ => ranges_same rfl rfl rfl rfl rfl rfl

theorem ranges_toCardArm : Keeps KeepsRanges toCardArm :=
  ranges_bind (ranges_setPhase _) fun _ => ranges_bind ranges_current fun _ =>
    ranges_bind (ranges_writeReg _ _) fun _ => ranges_bind (ranges_clearBits _ _) fun _ =>
      ranges_bind (ranges_setBits _ _) fun _ => ranges_writeReg _ _

theorem ranges_toCardStart : Keeps KeepsRanges toCardStart :=
  ranges_bind (ranges_setPhase _) fun _ => ranges_bind ranges_current fun _ =>
    ranges_bind (ranges_writeReg _ _) fun _ => ranges_ite (ranges_setBits _ _) (ranges_pure _)

theorem ranges_toCardStop : Keeps KeepsRanges toCardStop :=
  ranges_bind (ranges_setPhase _) fun _ => ranges_bind ranges_current fun _ =>
    ranges_clearBits _ _

/-- The index after one more byte. -/
theorem index_succ {i : BitVec 5} (h : i.toNat + 1 ≤ 16) : (i + 1).toNat = i.toNat + 1 := by
  have h1 : (1 : BitVec 5).toNat = 1 := rfl
  rw [BitVec.toNat_add, h1]
  omega

/-- The load loop keeps the index within the buffer. -/
theorem ranges_loadBytes (bytes : List Byte) : ∀ s : State, Ranges s →
    s.i.toNat + bytes.length ≤ 16 → Ranges (resultState (loadBytes bytes s)) := by
  induction bytes with
  | nil => intro s r _; exact r
  | cons b rest ih =>
    intro s r h
    simp only [List.length_cons] at h
    rw [loadBytes, bind_current, bind_run]
    have hw := ranges_writeReg s.cfg.aFifoData b s r
    cases hx : writeReg s.cfg.aFifoData b s with
    | error e t => rw [hx] at hw; exact hw
    | ok a t =>
      rw [hx] at hw
      have hi : t.i = s.i := by
        obtain ⟨-, _, _, -, rfl⟩ := writeReg_ok_iff.mp hx
        rfl
      simp only [bind_update]
      have hs : (t.i + 1).toNat = t.i.toNat + 1 := index_succ (by rw [hi]; omega)
      refine ih _ ⟨hw.cnt, hw.txLen, hw.respLen, ?_, hw.drain, hw.bitlenLow, hw.bitlenHigh⟩ ?_
      · change (t.i + 1).toNat ≤ 16
        rw [hs, hi]
        omega
      · change (t.i + 1).toNat + _ ≤ 16
        rw [hs, hi]
        omega

theorem ranges_toCardLoad : Keeps KeepsRanges toCardLoad := by
  intro s r
  simp only [toCardLoad, bind_update, bind_current]
  refine ranges_loadBytes _ _ ⟨r.cnt, r.txLen, r.respLen, Nat.zero_le 16, r.drain, r.bitlenLow,
    r.bitlenHigh⟩ ?_
  have h : (State.txBytes ((s.setPhase .load).setIndex 0)).length ≤ s.txLen.toNat := by
    simp only [State.txBytes, validBytes, List.length_take]
    exact Nat.min_le_left _ _
  have := r.txLen
  change 0 + _ ≤ 16
  omega

/-- The poll loop keeps the counter at its start or below. -/
theorem ranges_pollLoop (k : Nat) (hk : k ≤ 2000) : Keeps KeepsRanges (pollLoop k) := by
  induction k with
  | zero => exact ranges_pure _
  | succ k ih =>
    refine ranges_bind ranges_current fun _ => ranges_bind (ranges_readReg _) fun v =>
      ranges_bind ?_ fun _ => ranges_ite (ranges_pure _) (ih (by omega))
    intro s r
    refine ⟨?_, r.txLen, r.respLen, r.index, r.drain, r.bitlenLow, r.bitlenHigh⟩
    change (BitVec.ofNat 11 k).toNat ≤ 2000
    simp only [BitVec.toNat_ofNat]
    omega

theorem ranges_toCardPoll : Keeps KeepsRanges toCardPoll := by
  refine ranges_bind (ranges_setPhase _) fun _ => ranges_bind ?_ fun _ =>
    ranges_pollLoop pollInit (Nat.le_refl _)
  intro s r
  exact ⟨Nat.le_refl 2000, r.txLen, r.respLen, r.index, r.drain, r.bitlenLow, r.bitlenHigh⟩

theorem ranges_toCardLen : Keeps KeepsRanges toCardLen := by
  refine ranges_bind (ranges_setPhase _) fun _ => ranges_bind ranges_current fun _ =>
    ranges_bind (ranges_readReg _) fun v => ranges_bind
      (fun _ => ranges_same rfl rfl rfl rfl rfl rfl) fun _ =>
        ranges_bind (ranges_readReg _) fun c => ?_
  intro s r
  have hm := measure_m_toNat s c
  have hd := drainCount_bounds s.n
  have hb := bitLengthReg_toInt s.n (lastBitsOf c)
  have hl := bitLength_bounds s.n (lastBitsOf c)
  refine ⟨r.cnt, r.txLen, r.respLen, r.index, ?_, ?_, ?_⟩
  · rw [update_run, resultState_ok, hm]
    exact hd.2
  · change _ ≤ (bitLengthReg s.n (lastBitsOf c)).toInt
    omega
  · change (bitLengthReg s.n (lastBitsOf c)).toInt ≤ _
    omega

/-- The drain loop keeps the index within the buffer and the count as it was. -/
theorem ranges_drainBytes (k : Nat) : ∀ s : State, Ranges s → s.i.toNat + k ≤ 16 →
    Ranges (resultState (drainBytes k s)) := by
  induction k with
  | zero => intro s r _; exact r
  | succ k ih =>
    intro s r h
    rw [drainBytes, bind_current, bind_run]
    have hw := ranges_readReg s.cfg.aFifoData s r
    cases hx : readReg s.cfg.aFifoData s with
    | error e t => rw [hx] at hw; exact hw
    | ok a t =>
      rw [hx] at hw
      have hi : t.i = s.i := by
        obtain ⟨-, _, _, -, -, rfl⟩ := readReg_ok_iff.mp hx
        rfl
      simp only [bind_update]
      have hs : (t.i + 1).toNat = t.i.toNat + 1 := index_succ (by rw [hi]; omega)
      refine ih _ ⟨hw.cnt, hw.txLen, hw.respLen, ?_, hw.drain, hw.bitlenLow, hw.bitlenHigh⟩ ?_
      · change (t.i + 1).toNat ≤ 16
        rw [hs, hi]
        omega
      · change (t.i + 1).toNat + _ ≤ 16
        rw [hs, hi]
        omega

theorem ranges_toCardDrain : Keeps KeepsRanges toCardDrain := by
  intro s r
  simp only [toCardDrain, bind_update, bind_current]
  rw [bind_run]
  have hd := ranges_drainBytes ((s.setPhase .drain).setIndex 0).m.toNat
    ((s.setPhase .drain).setIndex 0)
    ⟨r.cnt, r.txLen, r.respLen, Nat.zero_le 16, r.drain, r.bitlenLow, r.bitlenHigh⟩
    (by
      have := r.drain
      change 0 + s.m.toNat ≤ 16
      omega)
  cases hx : drainBytes ((s.setPhase .drain).setIndex 0).m.toNat
    ((s.setPhase .drain).setIndex 0) with
  | error e t => rw [hx] at hd; exact hd
  | ok a t =>
    rw [hx] at hd
    exact ⟨hd.cnt, hd.txLen, hd.drain, hd.index, hd.drain, hd.bitlenLow, hd.bitlenHigh⟩

theorem ranges_judgeClear : Keeps KeepsRanges (update (·.judgeClear)) := by
  intro s
  rw [update_run, judgeClear_eq]
  split <;> exact ranges_same rfl rfl rfl rfl rfl rfl

theorem ranges_toCardCheck : Keeps KeepsRanges toCardCheck :=
  ranges_bind (ranges_setPhase _) fun _ => ranges_bind ranges_current fun _ =>
    ranges_ite (fun _ => ranges_same rfl rfl rfl rfl rfl rfl) <|
      ranges_bind (ranges_readReg _) fun _ => ranges_bind
        (fun _ => ranges_same rfl rfl rfl rfl rfl rfl) fun _ => ranges_ite
          (ranges_bind ranges_judgeClear fun _ => ranges_bind ranges_current fun _ =>
            ranges_ite (ranges_bind ranges_toCardLen fun _ => ranges_toCardDrain) (ranges_pure _))
          fun _ => ranges_same rfl rfl rfl rfl rfl rfl

/-- A command keeps the ranges, wherever it stops (spec/10_state.md R21, R22). -/
theorem ranges_runCommand (c : Byte) : Keeps KeepsRanges (runCommand c) := by
  refine ranges_bind ?_ fun _ => ranges_bind ranges_toCardArm fun _ =>
    ranges_bind ranges_toCardLoad fun _ => ranges_bind ranges_toCardStart fun _ =>
      ranges_bind ranges_toCardPoll fun _ => ranges_bind ranges_toCardStop fun _ =>
        ranges_bind ranges_toCardCheck fun _ =>
          ranges_bind (ranges_setPhase _) fun _ => ranges_setPhase _
  intro s r
  exact ⟨r.cnt, r.txLen, Nat.zero_le 16, r.index, r.drain,
    show (-7 : Int) ≤ (0 : BitVec 12).toInt by decide,
    show (0 : BitVec 12).toInt ≤ 2040 by decide⟩

/-- TO_CARD with a buffer that fits keeps the ranges. -/
theorem ranges_toCard (c : Byte) (tx : List Byte) (h : tx.length ≤ 16) :
    Keeps KeepsRanges (toCard c tx) := by
  refine ranges_bind ?_ fun _ => ranges_runCommand c
  intro s r
  refine ⟨r.cnt, ?_, r.respLen, r.index, r.drain, r.bitlenLow, r.bitlenHigh⟩
  change (BitVec.ofNat 5 tx.length).toNat ≤ 16
  simp only [BitVec.toNat_ofNat]
  omega

end Sys2Proof.Machine
end

