-- ==== Sys2Proof/Laws/Scan.lean ====
section
/-! SUPPORT. What looking at the termination request changes, what a step does once it has been
looked at, and the cases of a call on an external port (spec/44_scan_loop.md R221 to R226). -/

namespace Sys2Proof.Machine

/-! ### The termination request changes `cancel` and `termIn` alone (spec/44_scan_loop.md R225) -/

/-- Everything the tick can do. -/
theorem tick_cases (s : State) :
    (s.termIn = none ∧ s.tick = s) ∨
    (s.termIn = some 0 ∧ s.tick = { s with cancel := true, termIn := none }) ∨
    (∃ k, s.termIn = some (k + 1) ∧ s.tick = { s with termIn := some k }) := by
  unfold State.tick
  split <;> rename_i h
  · exact .inl ⟨h, rfl⟩
  · exact .inr (.inl ⟨h, rfl⟩)
  · exact .inr (.inr ⟨_, h, rfl⟩)

@[simp] theorem tick_cfg (s : State) : s.tick.cfg = s.cfg := by
  unfold State.tick
  split <;> rfl

@[simp] theorem tick_isOpen (s : State) : s.tick.isOpen = s.isOpen := by
  unfold State.tick
  split <;> rfl

@[simp] theorem tick_rst (s : State) : s.tick.rst = s.rst := by
  unfold State.tick
  split <;> rfl

@[simp] theorem tick_fault (s : State) : s.tick.fault = s.fault := by
  unfold State.tick
  split <;> rfl

@[simp] theorem tick_cmd (s : State) : s.tick.cmd = s.cmd := by
  unfold State.tick
  split <;> rfl

@[simp] theorem tick_irqEn (s : State) : s.tick.irqEn = s.irqEn := by
  unfold State.tick
  split <;> rfl

@[simp] theorem tick_waitIrq (s : State) : s.tick.waitIrq = s.waitIrq := by
  unfold State.tick
  split <;> rfl

@[simp] theorem tick_cnt (s : State) : s.tick.cnt = s.cnt := by
  unfold State.tick
  split <;> rfl

@[simp] theorem tick_irq (s : State) : s.tick.irq = s.irq := by
  unfold State.tick
  split <;> rfl

@[simp] theorem tick_err (s : State) : s.tick.err = s.err := by
  unfold State.tick
  split <;> rfl

@[simp] theorem tick_n (s : State) : s.tick.n = s.n := by
  unfold State.tick
  split <;> rfl

@[simp] theorem tick_lastBits (s : State) : s.tick.lastBits = s.lastBits := by
  unfold State.tick
  split <;> rfl

@[simp] theorem tick_m (s : State) : s.tick.m = s.m := by
  unfold State.tick
  split <;> rfl

@[simp] theorem tick_i (s : State) : s.tick.i = s.i := by
  unfold State.tick
  split <;> rfl

@[simp] theorem tick_status (s : State) : s.tick.status = s.status := by
  unfold State.tick
  split <;> rfl

@[simp] theorem tick_respLen (s : State) : s.tick.respLen = s.respLen := by
  unfold State.tick
  split <;> rfl

@[simp] theorem tick_bitlen (s : State) : s.tick.bitlen = s.bitlen := by
  unfold State.tick
  split <;> rfl

@[simp] theorem tick_cause (s : State) : s.tick.cause = s.cause := by
  unfold State.tick
  split <;> rfl

@[simp] theorem tick_pc (s : State) : s.tick.pc = s.pc := by
  unfold State.tick
  split <;> rfl

@[simp] theorem tick_scan (s : State) : s.tick.scan = s.scan := by
  unfold State.tick
  split <;> rfl

@[simp] theorem tick_tx (s : State) : s.tick.tx = s.tx := by
  unfold State.tick
  split <;> rfl

@[simp] theorem tick_txLen (s : State) : s.tick.txLen = s.txLen := by
  unfold State.tick
  split <;> rfl

@[simp] theorem tick_resp (s : State) : s.tick.resp = s.resp := by
  unfold State.tick
  split <;> rfl

@[simp] theorem tick_uid (s : State) : s.tick.uid = s.uid := by
  unfold State.tick
  split <;> rfl

@[simp] theorem tick_trace (s : State) : s.tick.trace = s.trace := by
  unfold State.tick
  split <;> rfl

@[simp] theorem tick_scanning (s : State) : s.tick.scanning = s.scanning := by
  unfold State.tick
  split <;> rfl

@[simp] theorem tick_stalled (s : State) : s.tick.stalled = s.stalled := by
  unfold State.tick
  split <;> rfl

@[simp] theorem tick_requests (s : State) : s.tick.requests = s.requests := by
  unfold State.tick
  split <;> rfl

@[simp] theorem tick_ret (s : State) : s.tick.ret = s.ret := by
  unfold State.tick
  split <;> rfl

@[simp] theorem tick_env (s : State) : s.tick.env = s.env := by
  unfold State.tick
  split <;> rfl

/-- A set cancel flag stays set. -/
theorem tick_cancel_of_set {s : State} (h : s.cancel = true) : s.tick.cancel = true := by
  rcases tick_cases s with ⟨-, e⟩ | ⟨-, e⟩ | ⟨_, -, e⟩ <;> simp [e, h]

/-! ### A step, the termination request having been looked at -/

theorem stepAfterTick_stalled {s : State} (h : s.stalled = true) :
    stepAfterTick s = .fault .externalCallNeverReturns := by simp [stepAfterTick, h]

theorem stepAfterTick_scanning {s : State} (hs : s.stalled = false) (h : s.scanning = true) :
    stepAfterTick s = .next (scanStep s) := by simp [stepAfterTick, hs, h]

theorem stepAfterTick_request {s : State} {r : Request} {rest : List Request} {i : Instr}
    (hs : s.stalled = false) (h : s.scanning = false) (hr : s.requests = r :: rest)
    (hd : decodeRequest s.cfg r = .ok i) :
    stepAfterTick s = exec i (s.withRequests rest) := by simp [stepAfterTick, hs, h, hr, hd]

theorem stepAfterTick_idle {s : State} (hs : s.stalled = false) (h : s.scanning = false)
    (hr : s.requests = []) : stepAfterTick s = idleStep s := by simp [stepAfterTick, hs, h, hr]

/-! ### Calls on the external ports -/

/-- Everything a call on the actuator, the audit log or the registry can do
(spec/44_scan_loop.md R222 to R224, R226). -/
theorem callPort_cases (ev : Event) (s : State) :
    (∃ e, s.env.nextCall = (.done, e) ∧ callPort ev s = .ok () ((s.withEnv e).emit ev)) ∨
    (∃ e, s.env.nextCall = (.failed, e) ∧
      callPort ev s = .ok () (((s.withEnv e).setCause .externalServiceError).emit ev)) ∨
    (∃ e, s.env.nextCall = (.never, e) ∧
      callPort ev s = .error .stalled ((s.withEnv e).stall)) := by
  unfold callPort
  split <;> rename_i h
  · exact .inl ⟨_, h, rfl⟩
  · exact .inr (.inl ⟨_, h, rfl⟩)
  · exact .inr (.inr ⟨_, h, rfl⟩)

/-- Everything a call on the authorization oracle can do (spec/44_scan_loop.md R221, R226). -/
theorem askAuthorized_cases (text : UidText) (s : State) :
    (∃ e, s.env.nextAuth = (.granted, e) ∧
      askAuthorized text s = .ok true ((s.withEnv e).emit (.authQ text true))) ∨
    (∃ e, s.env.nextAuth = (.denied, e) ∧
      askAuthorized text s = .ok false ((s.withEnv e).emit (.authQ text false))) ∨
    (∃ e, s.env.nextAuth = (.failed, e) ∧
      askAuthorized text s =
        .ok false (((s.withEnv e).setCause .externalServiceError).emit (.authQ text false))) ∨
    (∃ e, s.env.nextAuth = (.never, e) ∧
      askAuthorized text s = .error .stalled ((s.withEnv e).stall)) := by
  unfold askAuthorized
  split <;> rename_i h
  · exact .inl ⟨_, h, rfl⟩
  · exact .inr (.inl ⟨_, h, rfl⟩)
  · exact .inr (.inr (.inl ⟨_, h, rfl⟩))
  · exact .inr (.inr (.inr ⟨_, h, rfl⟩))

end Sys2Proof.Machine
end

