-- ==== Sys2Proof/Tests/Slice0.lean ====
section
/-! SUPPORT. Tests: ill-formed terms, written-out words, one step each on a small state (expected
results from spec/95_test_vectors.md and the encodings of spec/30_encoding.md), and for each
statement with hypotheses a witness that meets them. -/

namespace Sys2Proof.Tests

open Sys2Proof.Machine

set_option Elab.async false

/-! ### The small states -/

/-- The state INIT leaves, with a script of reads (spec/95_test_vectors.md, conventions). -/
def ready (reads : List Byte) : State :=
  { State.reset with isOpen := true, rst := .high,
                     env := { State.reset.env with bus := .script reads } }

/-- The same with listed answers to the next exchanges, `none` a failed one. -/
def answering (answers : List (Option (List Byte))) : State :=
  { ready [] with env := { State.reset.env with bus := .oracle answers } }

/-- A running SCAN in a state of the loop. -/
def scanningIn (c : ScanState) (reads : List Byte) : State :=
  { ready reads with scanning := true, scan := c, uid := ⟨0x04, 0xD2, 0x58, 0x0C, 0x82⟩ }

/-- The handle open and the reset line low. -/
def lowLine : State := { ready [] with rst := .low }

/-- The engine in FAULT. -/
def inFault : State := { ready [] with fault := true, cause := .transportError }

/-- The state after an outcome; power-on where there is none. -/
def after : Host.Outcome State Fault Refusal → State
  | .next s => s
  | .fault _ => State.reset
  | .refused _ => State.reset

/-- Whether an outcome is a next state. -/
def isNext : Host.Outcome State Fault Refusal → Bool
  | .next _ => true
  | .fault _ => false
  | .refused _ => false

theorem next_after {o : Host.Outcome State Fault Refusal} (h : isNext o = true) :
    o = .next (after o) := by
  cases o <;> simp [isNext] at h
  rfl

/-- The state an operation of the engine ends in. -/
def endOf (x : Op Unit) (s : State) : State :=
  match x s with
  | .ok _ t => t
  | .error _ t => t

/-- Whether an operation of the engine ends well. -/
def endsWell (x : Op Unit) (s : State) : Bool :=
  match x s with
  | .ok _ _ => true
  | .error _ _ => false

theorem ok_endOf {x : Op Unit} {s : State} (h : endsWell x s = true) : x s = .ok () (endOf x s) := by
  unfold endOf endsWell at *
  split <;> simp_all

/-- The frames sent by one instruction from a state. -/
def sent (i : Instr) (s : State) : List (List Byte) := framesOf (after (exec i s)).trace

/-- What one instruction gives back. -/
def back (i : Instr) (s : State) : Ret := (after (exec i s)).ret

/-! ### Ill-formed terms are refused (spec/30_encoding.md R95, R100; spec/42 R151) -/

theorem test_idle_row_is_not_authent :
    (Instr.cmdIdle 0x0E).wellFormed Params.default = false := by decide

theorem test_idle_row_is_not_transceive :
    (Instr.cmdIdle 0x0C).wellFormed Params.default = false := by decide

theorem test_transfer_256_bytes_ill_formed :
    (Instr.transfer (List.replicate 256 0)).wellFormed Params.default = false := by decide +kernel

theorem test_toCard_17_bytes_ill_formed :
    (Instr.toCard 0x0C (List.replicate 17 0)).wellFormed Params.default = false := by
  decide +kernel

theorem test_toCard_16_bytes_well_formed :
    (Instr.toCard 0x0C (List.replicate 16 0)).wellFormed Params.default = true := by
  decide +kernel

/-! ### Written-out words (spec/30_encoding.md; one for each constructor) -/

/-- Direction 0, address 001101, bit 0 0; value 00000111 (R91). -/
theorem test_decode_spiWriteFrame :
    decodeTableWord 16 0b0001101000000111 = some (.spiWriteFrame 0x0D 0x07) := by decide +kernel

/-- Direction 1, address 000100, bit 0 0; eight zeros (R92). -/
theorem test_decode_spiReadFrame :
    decodeTableWord 16 0b1000100000000000 = some (.spiReadFrame 0x04) := by decide +kernel

theorem test_decode_cmdIdle : decode Params.default .cmd8 [0x00] = .ok (.cmdIdle 0x00) := by
  decide +kernel

theorem test_decode_cmdAuthent : decodeTableWord 8 0x0E = some .cmdAuthent := by decide +kernel

theorem test_decode_cmdTransceive :
    decode Params.default .cmd8 [0x0C] = .ok .cmdTransceive := by decide +kernel

theorem test_decode_piccRequest : decodeTableWord 8 0x26 = some .piccRequest := by decide +kernel

theorem test_decode_piccAnticoll :
    decodeTableWord 16 0x9320 = some .piccAnticoll := by decide +kernel

/-- R100's example bytes for each operation of the host. -/
theorem test_decode_transfer :
    decodeHost [0x00, 0x02, 0x94, 0x00] = .ok (.transfer [0x94, 0x00]) := by decide +kernel

theorem test_decode_resetWrite : decodeHost [0x01, 0x01] = .ok (.resetWrite true) := by
  decide +kernel

theorem test_decode_writeReg :
    decodeHost [0x02, 0x0D, 0x07] = .ok (.writeReg 0x0D 0x07) := by decide +kernel

theorem test_decode_readReg : decodeHost [0x03, 0x0D] = .ok (.readReg 0x0D) := by decide +kernel

theorem test_decode_setBits :
    decodeHost [0x04, 0x0D, 0x80] = .ok (.setBits 0x0D 0x80) := by decide +kernel

theorem test_decode_clearBits :
    decodeHost [0x05, 0x0D, 0x80] = .ok (.clearBits 0x0D 0x80) := by decide +kernel

theorem test_decode_antennaOn : decodeHost [0x06] = .ok .antennaOn := by decide +kernel

theorem test_decode_toCard :
    decodeHost [0x07, 0x0C, 0x01, 0x26] = .ok (.toCard 0x0C [0x26]) := by decide +kernel

theorem test_decode_request : decodeHost [0x08, 0x26] = .ok (.request 0x26) := by decide +kernel

theorem test_decode_anticoll : decodeHost [0x09] = .ok .anticoll := by decide +kernel

theorem test_decode_selectTag :
    decodeHost [0x0A, 0x05, 0x04, 0xD2, 0x58, 0x0C, 0x82] =
      .ok (.selectTag ⟨0x04, 0xD2, 0x58, 0x0C, 0x82⟩) := by decide +kernel

theorem test_decode_init : decodeHost [0x0B] = .ok .init := by decide +kernel

theorem test_decode_shutdown : decodeHost [0x0C] = .ok .shutdown := by decide +kernel

theorem test_decode_scan : decodeHost [0x0D] = .ok .scan := by decide +kernel

/-- R102: an unassigned code; R100: a missing and a surplus operand byte, and a UID sequence that is
not of five bytes. -/
theorem test_decode_refuses :
    decodeHost [0x0E] = .error (.unassignedCode 0x0E) ∧
    decodeHost [0x0A, 0x04, 0x04, 0xD2, 0x58, 0x0C] = .error (.badUidLength 4) ∧
    decodeHost [0x0A, 0x05, 0x04, 0xD2, 0x58, 0x0C] = .error .truncated ∧
    decodeHost [0x02, 0x0D] = .error .truncated ∧
    decodeHost [0x03, 0x0D, 0x00] = .error .trailing ∧
    decode Params.default .spi16 [0x1B, 0x07] = .error .badFrame ∧
    decode Params.default .spi16 [0x9A, 0x01] = .error .badFrame := by decide +kernel

/-- R93's address bytes of the register table. -/
theorem test_address_bytes :
    addressByteWrite 0x0D = 0x1A ∧ addressByteRead 0x0D = 0x9A ∧ addressByteRead 0x3F = 0xFE := by
  decide

/-! ### Single steps (spec/95_test_vectors.md) -/

/-- V-RA-9. -/
theorem test_transfer :
    back (.transfer [0x94, 0x00]) (answering [some [0x00, 0x02]]) = .bytes [0x00, 0x02] := by
  decide +kernel

/-- V-RA-8, its first operation. -/
theorem test_resetWrite_low :
    (after (exec (.resetWrite false) (ready []))).trace = [.rst false] := by decide +kernel

/-- V-RA-8, its second operation. -/
theorem test_readReg_with_line_low :
    (after (exec (.readReg 0x04) lowLine)).cause = .resetLow ∧
    (after (exec (.readReg 0x04) lowLine)).fault = true ∧ sent (.readReg 0x04) lowLine = [] := by
  decide +kernel

/-- V-RA-2. -/
theorem test_writeReg_highest_address :
    sent (.writeReg 0x3F 0xFF) (ready []) = [[0x7E, 0xFF]] := by decide +kernel

/-- V-RA-3. -/
theorem test_readReg_lowest_address :
    back (.readReg 0x00) (ready [0x5A]) = .byte 0x5A ∧
    sent (.readReg 0x00) (ready [0x5A]) = [[0x80, 0x00]] := by decide +kernel

/-- V-RA-2's frame as a bus frame. -/
theorem test_spiWriteFrame :
    sent (.spiWriteFrame 0x3F 0xFF) (ready []) = [[0x7E, 0xFF]] := by decide +kernel

/-- V-RA-3's frame as a bus frame. -/
theorem test_spiReadFrame : back (.spiReadFrame 0x00) (ready [0x5A]) = .byte 0x5A := by
  decide +kernel

/-- V-RA-4. -/
theorem test_setBits :
    sent (.setBits 0x0A 0x80) (ready [0x05]) = [[0x94, 0x00], [0x14, 0x85]] := by decide +kernel

/-- V-RA-4c: the bit is set already. -/
theorem test_setBits_always_writes :
    sent (.setBits 0x0A 0x80) (ready [0x80]) = [[0x94, 0x00], [0x14, 0x80]] := by decide +kernel

/-- V-RA-5c. -/
theorem test_clearBits :
    sent (.clearBits 0x04 0xFF) (ready [0xA5]) = [[0x88, 0x00], [0x08, 0x00]] := by
  decide +kernel

/-- V-RA-7b. -/
theorem test_antennaOn_one_bit_short :
    sent .antennaOn (ready [0xFE]) = [[0xA8, 0x00], [0x28, 0xFF]] := by decide +kernel

/-- V-RA-7c. -/
theorem test_antennaOn_already_on : sent .antennaOn (ready [0x03]) = [[0xA8, 0x00]] := by
  decide +kernel

/-- V-CE-1: the result. -/
theorem test_toCard_transceive :
    back (.toCard 0x0C [0x26]) (ready [0x14, 0x00, 0x07, 0x04, 0x04, 0x64, 0x87, 0x00, 0x02, 0x10,
      0x04, 0x00]) = .result .ok [0x04, 0x00] 16 := by decide +kernel

/-- V-CE-2: the frames after the tenth. -/
theorem test_toCard_no_tag :
    (sent (.toCard 0x0C [0x26]) (ready [0x14, 0x00, 0x07, 0x45, 0x87, 0x00, 0x00, 0x00, 0x00])).drop
      10 = [[0x88, 0x00], [0x9A, 0x00], [0x1A, 0x07], [0x8C, 0x00], [0x94, 0x00], [0x98, 0x00],
        [0x92, 0x00]] ∧
    back (.toCard 0x0C [0x26]) (ready [0x14, 0x00, 0x07, 0x45, 0x87, 0x00, 0x00, 0x00, 0x00]) =
      .result .noTag [0x00] 0 := by decide +kernel

/-- V-CE-9, by its command code: from power-on the send buffer is empty. -/
theorem test_cmdIdle :
    sent (.cmdIdle 0x00) (ready [0x00, 0x00, 0x30, 0x30, 0x01, 0x00, 0x00]) =
      [[0x04, 0x80], [0x88, 0x00], [0x08, 0x00], [0x94, 0x00], [0x14, 0x80], [0x02, 0x00],
       [0x02, 0x00], [0x88, 0x00], [0x88, 0x00], [0x88, 0x00], [0x9A, 0x00], [0x1A, 0x00],
       [0x8C, 0x00]] := by decide +kernel

/-- V-CE-8 (b) and (c), without a buffer: 0x20 does not stop AUTHENT, 0x01 does and is OK. -/
theorem test_cmdAuthent :
    back .cmdAuthent (ready [0x00, 0x00, 0x20, 0x01, 0x00, 0x00]) = .result .ok [] 0 ∧
    (after (exec .cmdAuthent (ready [0x00, 0x00, 0x20, 0x01, 0x00, 0x00]))).cnt = 1998 := by
  decide +kernel

/-- V-CE-6, 0x1B and 0xE4, without a buffer. -/
theorem test_cmdTransceive_error_bits :
    back .cmdTransceive (ready [0x00, 0x00, 0x00, 0x20, 0x00, 0x1B, 0x01, 0x00, 0x55]) =
      .result .error [] 0 ∧
    back .cmdTransceive (ready [0x00, 0x00, 0x00, 0x20, 0x00, 0xE4, 0x01, 0x00, 0x55]) =
      .result .ok [0x55] 8 := by decide +kernel

/-- The zero of the counter beats a stop bit (V-CE-4, on the last read alone). -/
theorem test_poll_counter_wins :
    pollStops 0 0x20 0x30 = true ∧
    (endOf (pollLoop 1) (ready [0x20])).cnt = 0 := by decide +kernel

/-- V-CE-10, corner entries. -/
theorem test_bit_lengths :
    (bitLengthReg 0 1).toInt = -7 ∧ (bitLengthReg 2 7).toInt = 15 ∧
    (bitLengthReg 255 0).toInt = 2040 ∧ drainCount 0 = 1 ∧ drainCount 16 = 16 ∧
    drainCount 17 = 16 := by decide +kernel

/-- V-CP-1. -/
theorem test_request_card_present :
    back (.request 0x26) (ready [0x00, 0x00, 0x07, 0x64, 0x87, 0x00, 0x02, 0x00, 0x04, 0x00]) =
      .status .ok := by decide +kernel

/-- V-CP-2, first row: fifteen bits. -/
theorem test_request_fifteen_bits :
    (after (exec (.request 0x26)
      (ready [0x00, 0x00, 0x07, 0x64, 0x87, 0x00, 0x02, 0x07, 0x04, 0x00]))).cause =
      .frameLengthError := by decide +kernel

/-- V-CP-3 (a) as the card frame. -/
theorem test_piccRequest_no_card :
    back .piccRequest (ready [0x00, 0x00, 0x07, 0x45, 0x87, 0x00, 0x00, 0x00, 0x00]) =
      .status .error := by decide +kernel

/-- V-CP-4. -/
theorem test_anticoll_valid :
    back .anticoll (ready [0x00, 0x00, 0x00, 0x64, 0x80, 0x00, 0x05, 0x00, 0x04, 0xD2, 0x58, 0x0C,
      0x82]) = .statusUid .ok (some ⟨0x04, 0xD2, 0x58, 0x0C, 0x82⟩) := by decide +kernel

/-- V-CP-5 as the card frame. -/
theorem test_piccAnticoll_bad_checksum :
    (after (exec .piccAnticoll (ready [0x00, 0x00, 0x00, 0x64, 0x80, 0x00, 0x05, 0x00, 0x04, 0xD2,
      0x58, 0x0C, 0xDE]))).cause = .checksumError := by decide +kernel

/-- V-CP-9. -/
theorem test_selectTag_any_uid :
    back (.selectTag ⟨0, 0, 0, 0, 1⟩) (ready []) = .status .ok := by decide +kernel

/-- P1's INIT line. -/
theorem test_init :
    (after (exec .init { State.reset with
      env := { bus := .script [0x80], opens := [true], auths := [], calls := [], draws := 0 } })).trace =
      [.busOpen, .rst true, .bus [0xA8, 0x00] [0x00, 0x80], .bus [0x28, 0x83] [0x00, 0x00]] := by
  decide +kernel

/-- P1's SHUTDOWN line. -/
theorem test_shutdown :
    (after (exec .shutdown (ready []))).trace = [.busClose, .rstRel] := by decide +kernel

/-- R227: SCAN begins in IDLE_SCAN. -/
theorem test_scan_begins :
    (after (exec .scan (ready []))).scan = .idleScan ∧
    (after (exec .scan (ready []))).scanning = true := by decide +kernel

/-- V-SL-2, last case, and P3's fifth iteration. -/
theorem test_scan_cancelled :
    (after (step { scanningIn .idleScan [] with cancel := true })).trace =
      [.outRel, .busClose, .rstRel] := by decide +kernel

/-- P3, iteration 2: the AUTHORIZED block. -/
theorem test_scan_authorized :
    (after (step { scanningIn .authorized [] with
      env := { bus := .script [], opens := [], auths := [], calls := [.done, .done, .done],
               draws := 0 } })).trace =
      [.out true, .out false, .audit (uidString ⟨0x04, 0xD2, 0x58, 0x0C, 0x82⟩) true] := by
  decide +kernel

/-- V-SL-1 and V-CP-8: strings. -/
theorem test_uid_strings :
    uidString ⟨4, 210, 88, 12, 130⟩ =
      ['4', ',', '2', '1', '0', ',', '8', '8', ',', '1', '2', ',', '1', '3', '0'] ∧
    uidString ⟨0, 0, 0, 0, 0⟩ = ['0', ',', '0', ',', '0', ',', '0', ',', '0'] := by decide +kernel

/-- V-CP-8: checksums. -/
theorem test_checksums :
    bcc 0x04 0xD2 0x58 0x0C = 0x82 ∧ bcc 0xDE 0xAD 0xBE 0xEF = 0x22 ∧
    bcc 0x88 0x04 0x4B 0x21 = 0xE6 := by decide

/-- R46, R280: nothing but INIT runs at power-on, and a step runs the word that is placed. -/
theorem test_step_runs_the_placed_word :
    (after (step (State.reset.withFetchWord 8 0x0D))).ret = .denied .notOpen ∧
    isNext (step (State.reset.withFetchWord 16 0x9320)) = true := by decide +kernel

/-- What the host reads at power-on (spec/10_state.md R25, R46). -/
theorem test_outputs_at_power_on :
    (outputsOf State.reset).status = 2 ∧ (outputsOf State.reset).resp = [] ∧
    (outputsOf State.reset).cause = 0 := by decide +kernel

/-! ### Witnesses: for each statement with hypotheses, what meets them together -/

/-- V-CE-1's script. -/
def card : List Byte :=
  [0x14, 0x00, 0x07, 0x04, 0x04, 0x64, 0x87, 0x00, 0x02, 0x10, 0x04, 0x00]

/-- V-CP-1's script. -/
def requestAnswer : List Byte := [0x00, 0x00, 0x07, 0x64, 0x87, 0x00, 0x02, 0x00, 0x04, 0x00]

/-- V-CP-4's script. -/
def uidAnswer : List Byte :=
  [0x00, 0x00, 0x00, 0x64, 0x80, 0x00, 0x05, 0x00, 0x04, 0xD2, 0x58, 0x0C, 0x82]

theorem ready_noFailure (reads : List Byte) : (ready reads).env.NoFailure := by
  simp [Env.NoFailure, ready]

theorem witness_PowerOnAndHostOutputs :
    Params.default.Legal ∧ statusCode Params.default .ok = statusCode Params.default .ok ∧
    inFault.cause = .transportError ∧ (outputsOf inFault).cause = 1 := by decide +kernel

theorem witness_DecodeOfEncodeIsIdentity :
    Params.default.CodesDistinct ∧ (Instr.cmdIdle 0x03).wellFormed Params.default = true ∧
    (Instr.transfer (List.replicate 255 0)).wellFormed Params.default = true ∧
    (Instr.toCard 0x0C (List.replicate 16 0)).wellFormed Params.default = true := by
  decide +kernel

theorem witness_DecodedBytesAreTheEncoding :
    decode Params.default .spi16 [0x7E, 0xFF] = .ok (.spiWriteFrame 0x3F 0xFF) ∧
    decode Params.default .host8 [0x03, 0xFF] = .ok (.readReg 0x3F) ∧
    decode Params.default .host8 [0x0A, 0x05, 0, 0, 0, 0, 1] = .ok (.selectTag ⟨0, 0, 0, 0, 1⟩) ∧
    hasAddressOperand (.selectTag ⟨0, 0, 0, 0, 1⟩) = false := by decide +kernel

theorem witness_UnassignedCodesAreRefused :
    ∃ s : State, s.stalled = false ∧ s.scanning = false ∧
      s.requests = ⟨.host8, [0x0E]⟩ :: [⟨.host8, [0xFF]⟩] ∧ 0x0E ≤ (0x0E : Byte).toNat ∧
      0x0E ≤ (0xFF : Byte).toNat :=
  ⟨State.reset.withRequests [⟨.host8, [0x0E]⟩, ⟨.host8, [0xFF]⟩], by decide⟩

theorem witness_StepRunsDecodedInstruction :
    ∃ s : State, s.stalled = false ∧ s.scanning = false ∧
      s.requests = ⟨.host8, [0x0B]⟩ :: [] ∧ decode s.cfg .host8 [0x0B] = .ok .init :=
  ⟨State.reset.withRequests [⟨.host8, [0x0B]⟩], by decide +kernel⟩

theorem witness_StepWithoutRequest :
    (scanningIn .idleScan []).stalled = false ∧ (scanningIn .idleScan []).scanning = true ∧
    State.reset.stalled = false ∧ State.reset.scanning = false ∧ State.reset.requests = [] ∧
    State.reset.fault = false ∧ inFault.stalled = false ∧ inFault.scanning = false ∧
    inFault.requests = [] ∧ inFault.fault = true := by decide

theorem witness_TerminationRequestSetsCancelAlone :
    ({ ready [] with termIn := some 0 } : State).termIn = some 0 ∧
    ({ ready [] with termIn := some 3 } : State).termIn = some (2 + 1) ∧
    (ready []).termIn = none := by decide

theorem witness_TransferExchangesBytes :
    (answering [some [0x00, 0x02]]).Admitted ∧
    ((answering [some [0x00, 0x02]]).env.exchange [0x94, 0x00]).1 = some [0x00, 0x02] ∧
    (answering [none]).Admitted ∧ ((answering [none]).env.exchange []).1 = none := by
  decide +kernel

theorem witness_ResetWriteDrivesLine :
    (ready []).Admitted ∧ ¬ State.reset.Admitted ∧ lowLine.Admitted ∧
    isNext (exec (.resetWrite false) (ready [])) = true := by decide +kernel

theorem witness_WriteRegSendsItsFrame :
    (answering [some [0, 0]]).Admitted ∧ (answering [some [0, 0]]).rst = .high ∧
    ((answering [some [0, 0]]).env.exchange
      [((0x3F : Addr).setWidth 8 <<< 1) &&& 0x7E, 0xFF]).1 = some [0, 0] ∧
    (answering [none]).Admitted ∧ (answering [none]).rst = .high ∧
    ((answering [none]).env.exchange [((0 : Addr).setWidth 8 <<< 1) &&& 0x7E, 0x00]).1 = none ∧
    lowLine.Admitted ∧ lowLine.rst ≠ .high := by decide +kernel

theorem witness_ReadRegReturnsSecondByte :
    (ready [0x5A]).Admitted ∧ (ready [0x5A]).rst = .high ∧
    ((ready [0x5A]).env.exchange
      [(((0 : Addr).setWidth 8 <<< 1) &&& 0x7E) ||| 0x80, 0x00]).1 = some [0, 0x5A] ∧
    (answering [none]).Admitted ∧ (answering [none]).rst = .high ∧
    ((answering [none]).env.exchange
      [(((0x3F : Addr).setWidth 8 <<< 1) &&& 0x7E) ||| 0x80, 0x00]).1 = none ∧
    lowLine.Admitted ∧ lowLine.rst ≠ .high := by decide +kernel

theorem witness_SetBitsReadsThenWrites :
    (ready [0x05]).Admitted ∧ (ready [0x05]).rst = .high ∧
    ((ready [0x05]).env.exchange (readFrame 0x0A)).1 = some [0, 0x05] ∧
    (((ready [0x05]).env.exchange (readFrame 0x0A)).2.exchange
      (writeFrame 0x0A (0x05 ||| 0x80))).1 = some [0, 0] ∧
    (answering [none]).Admitted ∧ (answering [none]).rst = .high ∧
    ((answering [none]).env.exchange (readFrame 0x0A)).1 = none ∧
    (answering [some [0, 5], none]).Admitted ∧ (answering [some [0, 5], none]).rst = .high ∧
    ((answering [some [0, 5], none]).env.exchange (readFrame 0x0A)).1 = some [0, 5] ∧
    (((answering [some [0, 5], none]).env.exchange (readFrame 0x0A)).2.exchange
      (writeFrame 0x0A (5 ||| 0x80))).1 = none ∧
    lowLine.Admitted ∧ lowLine.rst ≠ .high := by decide +kernel

theorem witness_ClearBitsReadsThenWrites :
    (ready [0xA5]).Ready ∧ ((ready [0xA5]).env.exchange (readFrame 0x04)).1 = some [0, 0xA5] ∧
    (((ready [0xA5]).env.exchange (readFrame 0x04)).2.exchange
      (writeFrame 0x04 (0xA5 &&& ~~~0xFF))).1 = some [0, 0] ∧
    (answering [none]).Ready ∧ ((answering [none]).env.exchange (readFrame 0x04)).1 = none ∧
    (answering [some [0, 5], none]).Ready ∧
    ((answering [some [0, 5], none]).env.exchange (readFrame 0x04)).1 = some [0, 5] ∧
    (((answering [some [0, 5], none]).env.exchange (readFrame 0x04)).2.exchange
      (writeFrame 0x04 (5 &&& ~~~0xFF))).1 = none := by decide +kernel

theorem witness_AntennaOnWritesOnlyIfNeeded :
    (ready [0x03]).Ready ∧
    ((ready [0x03]).env.exchange (readFrame (ready []).cfg.aTxControl)).1 = some [0, 0x03] ∧
    (0x03 : Byte) &&& 0x03 = 0x03 ∧
    ((ready [0xFE]).env.exchange (readFrame (ready []).cfg.aTxControl)).1 = some [0, 0xFE] ∧
    (0xFE : Byte) &&& 0x03 ≠ 0x03 ∧
    (((ready [0xFE]).env.exchange (readFrame (ready []).cfg.aTxControl)).2.exchange
      (writeFrame (ready []).cfg.aTxControl (0xFE ||| 0x03))).1 = some [0, 0] := by decide +kernel

theorem witness_SpiFramesRunAsTransactions :
    (ready [0x5A]).Ready ∧ ((ready [0x5A]).env.exchange (writeFrame 0x3F 0xFF)).1 = some [0, 0] ∧
    ((ready [0x5A]).env.exchange (readFrame 0x00)).1 = some [0, 0x5A] := by decide +kernel

theorem witness_RegisterAccessNeedsResetHigh :
    lowLine.Admitted ∧ lowLine.rst ≠ .high ∧
    (Instr.antennaOn).wellFormed lowLine.cfg = true ∧ touchesRegister .antennaOn = true ∧
    (Instr.cmdIdle 0).wellFormed lowLine.cfg = true ∧ runsCommand (.cmdIdle 0) = true := by
  decide +kernel

theorem witness_RefusedOperationsChangeNothing :
    inFault.fault = true ∧ State.reset.fault = false ∧ State.reset.isOpen = false ∧
    Instr.scan ≠ .init ∧ (ready []).fault = false ∧ (ready []).isOpen = true := by decide

theorem witness_LongSendBufferRefused :
    (ready []).Admitted ∧ 16 < (List.replicate 17 (0 : Byte)).length := by decide +kernel

theorem witness_FaultEntryRecordsCause :
    ∃ t, exec (.readReg 0x04) lowLine = .next t ∧ lowLine.fault = false ∧ t.fault = true :=
  ⟨_, next_after (by decide +kernel), by decide, by decide +kernel⟩

/-- A failed exchange inside a running SCAN. -/
theorem witness_FaultEntryRecordsCause_scan :
    let s := { scanningIn .cardDetected [] with env := (answering [none]).env }
    ∃ t, s.scanning = true ∧ step s = .next t ∧ s.fault = false ∧ t.fault = true :=
  ⟨_, by decide, next_after (by decide +kernel), by decide, by decide +kernel⟩

/-- The write of ANTENNA_ON fails after its read. -/
theorem witness_FaultEntryRecordsCause_reached :
    (answering [some [0, 0xFE], none]).Ready ∧ touchesRegister .antennaOn = true ∧
    (answering [some [0, 0xFE], none]).env.bus =
      .oracle (([[0, 0xFE]] : List (List Byte)).map some ++ none :: []) ∧
    (after (exec .antennaOn (answering [some [0, 0xFE], none]))).cause = .transportError ∧
    (after (exec .antennaOn (answering [some [0, 0xFE], none]))).trace =
      [.bus [0xA8, 0x00] [0, 0xFE]] := by decide +kernel

/-- ANTENNA_ON makes no second exchange, so it does not reach the failure. -/
theorem witness_FaultEntryRecordsCause_not_reached :
    (answering [some [0, 0x03], none]).Ready ∧
    (answering [some [0, 0x03], none]).env.bus =
      .oracle (([[0, 0x03]] : List (List Byte)).map some ++ none :: []) ∧
    (after (exec .antennaOn (answering [some [0, 0x03], none]))).fault = false := by decide +kernel

theorem witness_FaultEntryRecordsCause_first :
    (answering [none]).Ready ∧ runsCommand (.toCard 0x0C [0x26]) = true ∧
    (Instr.toCard 0x0C [0x26]).wellFormed (answering [none]).cfg = true ∧
    (answering [none]).env.bus = .oracle (none :: []) := by decide

theorem witness_StickyStateStays :
    ∃ t, step { inFault with requests := [⟨.host8, [0x06]⟩], cancel := true } = .next t ∧
      t.fault = true ∧ t.cancel = true :=
  ⟨_, next_after (by decide +kernel), by decide +kernel⟩

theorem witness_CommandSelectsMasks :
    ∃ t, (ready card).Admitted ∧ (Instr.toCard 0x0C [0x26]).wellFormed (ready card).cfg = true ∧
      chipCommand (ready card).cfg (.toCard 0x0C [0x26]) = some 0x0C ∧
      exec (.toCard 0x0C [0x26]) (ready card) = .next t ∧
      (0x0C : Byte) ≠ (ready card).cfg.cmdAuthent ∧ (0x0C : Byte) = (ready card).cfg.cmdTransceive :=
  ⟨_, by decide, by decide, by decide, next_after (by decide +kernel), by decide⟩

theorem witness_CommandSelectsMasks_authent :
    ∃ t, (ready [0, 0, 0, 0x10]).Admitted ∧
      chipCommand (ready []).cfg .cmdAuthent = some 0x0E ∧
      exec .cmdAuthent (ready [0, 0, 0, 0x10]) = .next t ∧
      (0x0E : Byte) = (ready []).cfg.cmdAuthent :=
  ⟨_, by decide, by decide, next_after (by decide +kernel), by decide⟩

theorem witness_CommandSelectsMasks_idle :
    ∃ t, (ready [0, 0, 0x01]).Admitted ∧ (Instr.cmdIdle 0x00).wellFormed (ready []).cfg = true ∧
      chipCommand (ready []).cfg (.cmdIdle 0x00) = some 0x00 ∧
      exec (.cmdIdle 0x00) (ready [0, 0, 0x01]) = .next t ∧ (ready []).cfg.CodesDistinct ∧
      (0x00 : Byte) = (ready []).cfg.cmdIdle :=
  ⟨_, by decide, by decide, by decide, next_after (by decide +kernel), by decide⟩

theorem witness_LoadSendsBufferInOrder :
    ∃ t, (List.replicate 16 (0xAA : Byte)).length ≤ 16 ∧
      toCardLoad ((ready []).loadTx (List.replicate 16 0xAA)) = .ok () t :=
  ⟨_, by decide +kernel, ok_endOf (by decide +kernel)⟩

theorem witness_PollCountsItsReads : ∃ t, toCardPoll (ready [0x01]) = .ok () t :=
  ⟨_, ok_endOf (by decide +kernel)⟩

theorem witness_PollStopsAtFirstSignal : ∃ t, toCardPoll (ready [0x04, 0x01]) = .ok () t :=
  ⟨_, ok_endOf (by decide +kernel)⟩

theorem witness_CommandEndsInOutcomeRow :
    (ready card).Ready ∧ (ready card).env.NoFailure ∧
    (Instr.toCard 0x0C [0x26]).wellFormed (ready card).cfg = true ∧
    chipCommand (ready card).cfg (.toCard 0x0C [0x26]) = some 0x0C :=
  ⟨by decide, ready_noFailure _, by decide, by decide⟩

theorem witness_CommandFrameCount :
    ∃ t, (ready card).Admitted ∧ ([0x26] : List Byte).length ≤ 16 ∧
      exec (.toCard 0x0C [0x26]) (ready card) = .next t ∧ t.fault = false :=
  ⟨_, by decide, by decide, next_after (by decide +kernel), by decide +kernel⟩

/-- V-CE-1's answers: TRANSCEIVE ends on the third poll with two bytes. -/
def cardAnswers : ChipAnswers :=
  { comIrq := 0x14, flush := 0x00, framing := 0x07, before := [0x04, 0x04], last := 0x64,
    framingAfter := 0x87, error := 0x00, level := 0x02, control := 0x10, data := [0x04, 0x00] }

/-- 2000 polls without a stop bit, as in V-CE-3. -/
def timeoutAnswers : ChipAnswers :=
  { cardAnswers with before := List.replicate 1999 0x00, last := 0x00, framingAfter := 0x80 }

/-- Answers with a masked error bit set (V-CE-6, 0x10), after a poll with a wait bit. -/
def errorAnswers : ChipAnswers := { cardAnswers with last := 0x10, error := 0x10 }

/-- V-CP-4's answers: five bytes. -/
def uidAnswers : ChipAnswers :=
  { comIrq := 0x00, flush := 0x00, framing := 0x00, before := [], last := 0x64,
    framingAfter := 0x80, error := 0x00, level := 0x05, control := 0x00,
    data := [0x04, 0xD2, 0x58, 0x0C, 0x82] }

theorem cardAnswers_fit : cardAnswers.Fits Params.default 0x0C := by
  constructor <;> decide +kernel

theorem timeoutAnswers_out : timeoutAnswers.timedOut = true :=
  beq_iff_eq.mpr List.length_replicate

theorem timeoutAnswers_fit : timeoutAnswers.Fits Params.default 0x0E where
  bound := Nat.le_of_eq List.length_replicate
  goesOn v h := by
    rw [(List.mem_replicate.mp h).2]
    decide
  stops h := by simp [timeoutAnswers_out] at h
  count h := by simp [ChipAnswers.drained, ChipAnswers.clear, timeoutAnswers_out] at h

theorem uidAnswers_fit : uidAnswers.Fits Params.default 0x0C := by
  constructor <;> decide +kernel

/-- V-CE-1: what the closed form says is what the vector lists. -/
theorem test_closed_form_of_a_transceive :
    cardAnswers.reads Params.default 0x0C = card ∧
    cardAnswers.status Params.default 0x0C = .ok ∧
    cardAnswers.bitlen Params.default 0x0C = 16 ∧
    (cardAnswers.events Params.default 0x0C [0x26]).length = 20 := by decide +kernel

theorem witness_CommandSendsTheseFrames :
    (ready card).Ready ∧ (ready card).cfg.CodesDistinct ∧
    (Instr.toCard 0x0C [0x26]).wellFormed (ready card).cfg = true ∧
    chipCommand (ready card).cfg (.toCard 0x0C [0x26]) = some 0x0C ∧
    cardAnswers.Fits (ready card).cfg 0x0C ∧
    (ready card).env.bus = .script (cardAnswers.reads (ready card).cfg 0x0C ++ []) :=
  ⟨by decide, by decide, by decide, by decide, cardAnswers_fit, by decide +kernel⟩

/-- The 2000th poll ends AUTHENT; an error bit ends it too; another code stops on the timer bit. -/
theorem witness_CommandSendsTheseFrames_others :
    timeoutAnswers.Fits Params.default 0x0E ∧ errorAnswers.Fits Params.default 0x0E ∧
    ({ cardAnswers with last := 0x01 } : ChipAnswers).Fits Params.default 0x00 ∧
    chipCommand Params.default .cmdAuthent = some 0x0E ∧
    chipCommand Params.default (.cmdIdle 0x00) = some 0x00 :=
  ⟨timeoutAnswers_fit, by constructor <;> decide +kernel,
    by constructor <;> decide +kernel, by decide, by decide⟩

/-- V-CE-2: the timer bit in the last poll. -/
theorem witness_NoTagOverridesOkAlone :
    ∃ t, (ready [0x14, 0x00, 0x07, 0x45, 0x87, 0x00, 0x00, 0x00, 0x00]).Admitted ∧
      (Instr.toCard 0x0C [0x26]).wellFormed (ready []).cfg = true ∧
      chipCommand (ready []).cfg (.toCard 0x0C [0x26]) = some 0x0C ∧
      exec (.toCard 0x0C [0x26])
        (ready [0x14, 0x00, 0x07, 0x45, 0x87, 0x00, 0x00, 0x00, 0x00]) = .next t ∧
      t.fault = false ∧ (ready []).cfg.CodesDistinct ∧
      (0x0C : Byte) = (ready []).cfg.cmdTransceive ∧ t.cnt ≠ 0 ∧ t.err &&& 0x1B = 0 ∧
      t.irq &&& 0x01 ≠ 0 ∧ t.status = .noTag :=
  ⟨_, by decide, by decide, by decide, next_after (by decide +kernel), by decide +kernel⟩

/-- V-CE-6, 0x1B: the error bits set. -/
theorem witness_NoTagOverridesOkAlone_errorBits :
    ∃ t, exec (.toCard 0x0C [0x26]) (ready [0x00, 0x00, 0x00, 0x20, 0x00, 0x1B]) = .next t ∧
      t.fault = false ∧ t.cnt ≠ 0 ∧ t.err &&& 0x1B ≠ 0 :=
  ⟨_, next_after (by decide +kernel), by decide +kernel⟩

theorem witness_DrainCountIsClamped :
    (ready []).n = 0 ∧ ((ready []).setLevel 1).n.toNat = 1 ∧
    ((ready []).setLevel 16).n.toNat = 16 ∧ 17 ≤ ((ready []).setLevel 17).n.toNat := by decide

theorem witness_DrainFillsResponseInOrder :
    ∃ s t : State, 1 ≤ s.m.toNat ∧ s.m.toNat ≤ 16 ∧ toCardDrain s = .ok () t ∧ s.rst = .high ∧
      (List.replicate 16 (0x55 : Byte)).length = s.m.toNat ∧
      s.env.bus = .script (List.replicate 16 0x55 ++ []) :=
  ⟨{ ready (List.replicate 16 0x55) with m := 16 }, _, by decide, by decide,
    ok_endOf (by decide +kernel), by decide +kernel⟩

theorem witness_DrainFillsResponseInOrder_one :
    ∃ s t : State, 1 ≤ s.m.toNat ∧ s.m.toNat ≤ 16 ∧ toCardDrain s = .ok () t ∧ s.rst = .high ∧
      ([0x55] : List Byte).length = s.m.toNat ∧ s.env.bus = .script ([0x55] ++ []) :=
  ⟨{ ready [0x55] with m := 1 }, _, by decide, by decide, ok_endOf (by decide +kernel),
    by decide +kernel⟩

theorem witness_StartSendAlwaysCleared :
    ∃ t, (ready card).Admitted ∧ (Instr.cmdTransceive).wellFormed (ready card).cfg = true ∧
      chipCommand (ready card).cfg .cmdTransceive = some 0x0C ∧
      exec .cmdTransceive (ready card) = .next t ∧ t.fault = false :=
  ⟨_, by decide, by decide, by decide, next_after (by decide +kernel), by decide +kernel⟩

theorem witness_CommandKeepsNothingBetween :
    ∃ u t v : State, (ready card).Admitted ∧ ([0x26] : List Byte).length ≤ 16 ∧
      u.cfg = (ready card).cfg ∧ u.isOpen = (ready card).isOpen ∧ u.rst = (ready card).rst ∧
      u.fault = (ready card).fault ∧ u.env = (ready card).env ∧ u ≠ ready card ∧
      exec (.toCard 0x0C [0x26]) (ready card) = .next t ∧ exec (.toCard 0x0C [0x26]) u = .next v :=
  ⟨{ ready card with status := .ok, n := 7, resp := Vector.replicate 16 0xFF }, _, _, by decide,
    by decide, rfl, rfl, rfl, rfl, rfl, by decide +kernel, next_after (by decide +kernel),
    next_after (by decide +kernel)⟩

theorem witness_RequestReportsSixteenBitsOrError :
    (ready requestAnswer).Ready ∧ (ready requestAnswer).env.NoFailure ∧
    (Instr.request 0x26 = .piccRequest ∨ ∃ mode, Instr.request 0x26 = .request mode) :=
  ⟨by decide, ready_noFailure _, .inr ⟨_, rfl⟩⟩

theorem witness_RequestReportsSixteenBitsOrError_script :
    (ready card).Ready ∧ (ready card).cfg.CodesDistinct ∧
    (Instr.piccRequest = .request 0x26 ∨
      (Instr.piccRequest = .piccRequest ∧ (0x26 : Byte) = (ready card).cfg.piccReqidl)) ∧
    cardAnswers.Fits (ready card).cfg (ready card).cfg.cmdTransceive ∧
    (ready card).env.bus =
      .script (cardAnswers.reads (ready card).cfg (ready card).cfg.cmdTransceive ++ []) ∧
    cardAnswers.sixteenBits = true ∧ uidAnswers.sixteenBits = false :=
  ⟨by decide, by decide, .inr ⟨rfl, rfl⟩, cardAnswers_fit, by decide +kernel, by decide, by decide⟩

theorem witness_AnticollReportsValidUidOrNone_script :
    (ready uidAnswer).Ready ∧ (ready uidAnswer).cfg.CodesDistinct ∧
    (Instr.piccAnticoll = .anticoll ∨ Instr.piccAnticoll = .piccAnticoll) ∧
    uidAnswers.Fits (ready uidAnswer).cfg (ready uidAnswer).cfg.cmdTransceive ∧
    (ready uidAnswer).env.bus =
      .script (uidAnswers.reads (ready uidAnswer).cfg (ready uidAnswer).cfg.cmdTransceive ++ []) ∧
    uidAnswers.GivesUid ⟨0x04, 0xD2, 0x58, 0x0C, 0x82⟩ :=
  ⟨by decide, by decide, .inr rfl, uidAnswers_fit, by decide +kernel, by
    refine ⟨?_, ?_, ?_, ?_⟩ <;> decide +kernel⟩

theorem witness_AnticollReportsValidUidOrNone :
    (ready uidAnswer).Ready ∧ (ready uidAnswer).env.NoFailure ∧
    (Instr.anticoll = .anticoll ∨ Instr.anticoll = .piccAnticoll) :=
  ⟨by decide, ready_noFailure _, .inl rfl⟩

theorem witness_ChecksumDecidesValidation :
    ∃ s u : State, s.status = .ok ∧ s.respLen = 5 ∧
      s.resp[0] ^^^ s.resp[1] ^^^ s.resp[2] ^^^ s.resp[3] ^^^ s.resp[4] = 0 ∧
      u.status = .ok ∧ u.respLen = 5 ∧
      u.resp[0] ^^^ u.resp[1] ^^^ u.resp[2] ^^^ u.resp[3] ^^^ u.resp[4] ≠ 0 :=
  ⟨{ ready [] with status := .ok, respLen := 5 },
    { ready [] with status := .ok, respLen := 5, resp := Vector.replicate 16 1 }, by decide +kernel⟩

theorem witness_SelectTagAlwaysSucceeds : (ready []).Admitted := by decide

theorem witness_AuthentNeverIssuedByProtocol :
    ∃ t, (scanningIn .cardDetected uidAnswer).cfg.Legal ∧
      (scanningIn .cardDetected uidAnswer).scanning = true ∧
      step (scanningIn .cardDetected uidAnswer) = .next t :=
  ⟨_, by decide +kernel, by decide, next_after (by decide +kernel)⟩

theorem witness_AuthentNeverIssuedByProtocol_host :
    ∃ t, (ready requestAnswer).cfg.Legal ∧
      (Instr.request 0x26 = .anticoll ∨ Instr.request 0x26 = .piccAnticoll ∨
        Instr.request 0x26 = .piccRequest ∨ ∃ mode, Instr.request 0x26 = .request mode) ∧
      exec (.request 0x26) (ready requestAnswer) = .next t :=
  ⟨_, by decide +kernel, .inr (.inr (.inr ⟨_, rfl⟩)), next_after (by decide +kernel)⟩

theorem witness_InitOpensHandleAndRaisesLine :
    ∃ (s : State) (e : Env), s.fault = false ∧ s.isOpen = false ∧ s.env.nextOpen = (true, e) ∧
      e.NoFailure :=
  ⟨{ State.reset with env := { bus := .script [0x80], opens := [true], auths := [], calls := [],
                               draws := 0 } }, _, rfl, rfl, rfl, trivial⟩

theorem witness_InitFailureIsReported :
    ∃ (s : State) (e : Env), s.fault = false ∧ s.isOpen = false ∧ s.env.nextOpen = (false, e) :=
  ⟨{ State.reset with env := { bus := .script [], opens := [false], auths := [], calls := [],
                               draws := 0 } }, _, rfl, rfl, rfl⟩

theorem witness_InitFailureIsReported_later :
    ∃ (s : State) (e : Env) (t : State), s.fault = false ∧ s.isOpen = false ∧
      s.env.nextOpen = (true, e) ∧ exec .init s = .next t ∧ t.fault = true :=
  ⟨{ State.reset with env := { bus := .oracle [none], opens := [true], auths := [], calls := [],
                               draws := 0 } }, _, _, rfl, rfl, rfl,
    next_after (by decide +kernel), by decide +kernel⟩

/-- The antenna's write fails; and, with one register in the programme, its read. -/
theorem witness_InitFailureIsReported_listed :
    ∃ (s u : State) (e f : Env), s.fault = false ∧ s.isOpen = false ∧ s.env.nextOpen = (true, e) ∧
      e.bus = .oracle (([[0, 0x80]] : List (List Byte)).map some ++ none :: []) ∧
      u.fault = false ∧ u.isOpen = false ∧ u.env.nextOpen = (true, f) ∧
      f.bus = .oracle (([[0, 0]] : List (List Byte)).map some ++ none :: []) ∧
      ([[0, 0]] : List (List Byte)).length ≤ u.cfg.initWrites.length :=
  ⟨{ State.reset with env := { bus := .oracle [some [0, 0x80], none], opens := [true], auths := [],
                               calls := [], draws := 0 } },
    { State.reset with cfg := { Params.default with initWrites := [(0x2A, 0x8D)] },
                       env := { bus := .oracle [some [0, 0], none], opens := [true], auths := [],
                                calls := [], draws := 0 } },
    _, _, rfl, rfl, rfl, rfl, rfl, rfl, rfl, rfl, by decide⟩

theorem witness_ShutdownClosesThenReleases : (ready []).Admitted := by decide

theorem witness_ScanEntersTheLoop : (ready []).Admitted := by decide

theorem witness_CancelledScanShutsDown :
    ∃ s : State, s.stalled = false ∧ s.scanning = true ∧ s.scan = .idleScan ∧
      s.tick.cancel = true :=
  ⟨{ scanningIn .idleScan [] with termIn := some 0 }, by decide⟩

theorem witness_ScanFollowsTransitionTable :
    ∃ t, (scanningIn .idleScan requestAnswer).stalled = false ∧
      (scanningIn .idleScan requestAnswer).scanning = true ∧
      step (scanningIn .idleScan requestAnswer) = .next t ∧ t.fault = false ∧ t.stalled = false ∧
      (scanningIn .idleScan requestAnswer).tick.cancel = false ∧ t.scan = .cardDetected :=
  ⟨_, by decide, by decide, next_after (by decide +kernel), by decide +kernel⟩

theorem witness_ScanFollowsTransitionTable_cardDetected :
    ∃ t, step (scanningIn .cardDetected uidAnswer) = .next t ∧ t.fault = false ∧
      t.stalled = false ∧ (scanningIn .cardDetected uidAnswer).scan ≠ .idleScan ∧
      t.scan = .uidResolved :=
  ⟨_, next_after (by decide +kernel), by decide +kernel⟩

theorem witness_ScanFollowsTransitionTable_blocks :
    (scanningIn .idleScan requestAnswer).Admitted ∧
    (scanningIn .idleScan requestAnswer).stalled = false ∧
    (scanningIn .idleScan requestAnswer).scanning = true ∧
    (scanningIn .idleScan requestAnswer).scan = .idleScan ∧
    (scanningIn .idleScan requestAnswer).tick.cancel = false ∧
    (scanningIn .cardDetected uidAnswer).Admitted ∧
    (scanningIn .cardDetected uidAnswer).scan = .cardDetected := by decide

/-- A running SCAN with listed ends of the external calls. -/
def calling (c : ScanState) (auths : List AuthAnswer) (calls : List CallAnswer) : State :=
  { scanningIn c [] with
    env := { bus := .script [], opens := [], auths := auths, calls := calls, draws := 0 } }

theorem witness_ScanFollowsTransitionTable_others :
    isNext (step (calling .uidResolved [.granted] [])) = true ∧
    (after (step (calling .uidResolved [.granted] []))).scan = .authorized ∧
    isNext (step (calling .authorized [] [.done, .failed, .done])) = true ∧
    (after (step (calling .authorized [] [.done, .failed, .done]))).fault = false ∧
    isNext (step (calling .denied [] [.failed, .done])) = true ∧
    (after (step (calling .denied [] [.failed, .done]))).stalled = false := by decide +kernel

theorem witness_AuthorizationFailsClosed :
    (calling .uidResolved [.failed] []).stalled = false ∧
    (calling .uidResolved [.failed] []).scanning = true ∧
    (calling .uidResolved [.failed] []).scan = .uidResolved ∧
    (calling .uidResolved [.failed] []).env.nextAuth.1 = .failed ∧
    (calling .uidResolved [.granted] []).env.nextAuth.1 = .granted ∧
    AuthAnswer.failed ≠ .never ∧ AuthAnswer.granted ≠ .never := by decide

theorem witness_AuthorizedActuatesThenAudits :
    (calling .authorized [] [.done, .failed, .done]).stalled = false ∧
    (calling .authorized [] [.done, .failed, .done]).scanning = true ∧
    (calling .authorized [] [.done, .failed, .done]).scan = .authorized ∧
    (calling .authorized [] [.done, .failed, .done]).env.calls =
      .done :: .failed :: .done :: [] ∧
    CallAnswer.done ≠ .never ∧ CallAnswer.failed ≠ .never := by decide

theorem witness_DeniedAuditsThenRecords :
    (calling .denied [] [.done, .failed]).stalled = false ∧
    (calling .denied [] [.done, .failed]).scanning = true ∧
    (calling .denied [] [.done, .failed]).scan = .denied ∧
    (calling .denied [] [.done, .failed]).env.calls = .done :: .failed :: [] ∧
    (calling .denied [] [.done, .failed]).cfg.recordUnknown = true ∧
    ({ calling .denied [] [.done, .failed] with
        cfg := { Params.default with recordUnknown := false } } : State).cfg.recordUnknown =
      false := by decide

theorem witness_NeverReturningCallStalls :
    (calling .uidResolved [.never] []).stalled = false ∧
    (calling .uidResolved [.never] []).scanning = true ∧
    (calling .uidResolved [.never] []).scan = .uidResolved ∧
    (calling .uidResolved [.never] []).env.nextAuth.1 = .never := by decide

/-- The audit of a grant, the audit of a denial and the registry, each never returning. -/
theorem witness_NeverReturningCallStalls_calls :
    (calling .authorized [] [.done, .failed, .never]).stalled = false ∧
    (calling .authorized [] [.done, .failed, .never]).scanning = true ∧
    CallAnswer.never ∉ [CallAnswer.done, .failed] ∧
    (calling .authorized [] [.done, .failed, .never]).env.calls =
      [.done, .failed] ++ .never :: [] ∧
    (calling .authorized [] [.done, .failed, .never]).scan = .authorized ∧
    [CallAnswer.done, .failed].length ≤ 2 ∧
    (calling .denied [] [.never]).env.calls = [] ++ .never :: [] ∧
    (calling .denied [] [.failed, .never]).env.calls = [.failed] ++ .never :: [] ∧
    (calling .denied [] [.failed, .never]).scan = .denied ∧
    [CallAnswer.failed].length ≤
      (if (calling .denied [] [.failed, .never]).cfg.recordUnknown then 1 else 0) := by decide

theorem witness_CancelReadInIdleScanAlone :
    ∃ t, (scanningIn .denied []).scan ≠ .idleScan ∧
      exec .antennaOn (ready [0xFE]) = .next t :=
  ⟨_, by decide, next_after (by decide +kernel)⟩

theorem witness_CancelledScanEndsInFourSteps :
    ∃ s : State, s.stalled = false ∧ s.scanning = true ∧ s.cancel = true :=
  ⟨{ scanningIn .cardDetected uidAnswer with cancel := true }, by decide⟩

theorem witness_RegisterOperationsFrame :
    ∃ t, exec (.setBits 0x0A 0x80) (ready [0x05]) = .next t ∧
      (touchesRegister (.setBits 0x0A 0x80) = true ∨
        ∃ bytes, Instr.setBits 0x0A 0x80 = .transfer bytes) :=
  ⟨_, next_after (by decide +kernel), .inl (by decide)⟩

theorem witness_CommandEngineFrame :
    ∃ t, exec (.request 0x26) (ready requestAnswer) = .next t ∧
      runsCommand (.request 0x26) = true ∧ t.fault = false ∧ t.fault = (ready requestAnswer).fault ∧
      Instr.request 0x26 ≠ .anticoll ∧
      Instr.request 0x26 ≠ .piccAnticoll :=
  ⟨_, next_after (by decide +kernel), by decide, by decide +kernel⟩

theorem witness_EngineFramesAreTwoBytes :
    ∃ s t u : State, (exec .anticoll (ready uidAnswer) = .next t ∧
      ∀ bytes, Instr.anticoll ≠ .transfer bytes) ∧ s.scanning = true ∧ step s = .next u :=
  ⟨scanningIn .cardDetected uidAnswer, _, _, ⟨next_after (by decide +kernel), fun _ => by simp⟩,
    by decide, next_after (by decide +kernel)⟩

/-- A running SCAN meets the invariant, and its step has a next state. -/
theorem witness_EveryStepKeepsInvariant :
    ∃ s t : State, s.Inv ∧ s.scanning = true ∧ step s = .next t :=
  ⟨{ scanningIn .cardDetected uidAnswer with trace := [.busOpen] }, _,
    by constructor <;> decide +kernel, by decide, next_after (by decide +kernel)⟩

end Sys2Proof.Tests
end

section

namespace Sys2Proof.Machine

/-- R93's mask keeps every bit of the shifted address: it clears bits 7 and 0, which the
zero-extension and the shift leave clear. -/
theorem addressByteWrite_eq_shiftLeft (addr : Addr) :
    addressByteWrite addr = addr.setWidth 8 <<< 1 := by
  revert addr
  decide

/-- The write byte leaves bit 7, the read mark, clear. -/
theorem addressByteWrite_and_readMark (addr : Addr) : addressByteWrite addr &&& 0x80 = 0 := by
  rw [addressByteWrite, BitVec.and_assoc]
  exact BitVec.and_zero

theorem addressByteRead_eq_or (addr : Addr) :
    addressByteRead addr = addressByteWrite addr ||| 0x80 := rfl

theorem addressByteWrite_toNat (addr : Addr) :
    (addressByteWrite addr).toNat = 2 * addr.toNat := by
  have addr_lt : addr.toNat < 64 := addr.isLt
  rw [addressByteWrite_eq_shiftLeft, BitVec.toNat_shiftLeft, BitVec.toNat_setWidth, Nat.shiftLeft_eq]
  omega

/-- Setting the read mark adds 128, because the write byte has that bit clear. -/
theorem addressByteRead_toNat (addr : Addr) :
    (addressByteRead addr).toNat = 2 * addr.toNat + 128 := by
  have mark_clear := addressByteWrite_and_readMark addr
  rw [addressByteRead_eq_or, ← BitVec.add_eq_or_of_and_eq_zero _ _ mark_clear,
    BitVec.toNat_add_of_and_eq_zero mark_clear, addressByteWrite_toNat]
  rfl

/-- Settles O2: the two bytes are R93's formulas by definition, the mask loses no address bit, and
the read mark stands above the doubled address. -/
theorem addressByteIsTwiceTheAddress : Obligations.AddressByteIsTwiceTheAddress := fun addr =>
  ⟨rfl, rfl, addressByteWrite_toNat addr, addressByteRead_toNat addr⟩

end Sys2Proof.Machine
end

section

namespace Sys2Proof.Machine

/-- Settles O26: each pass of the load loop sends one write, and the send buffer it walks is the
operand, because the operand fits in it. -/
theorem loadSendsBufferInOrder : Obligations.LoadSendsBufferInOrder := by
  intro s t tx fits load
  obtain ⟨answers, e, length_eq, rfl⟩ := toCardLoad_ok load
  rw [txBytes_loadTx s tx fits] at length_eq ⊢
  exact ⟨_, rfl, busOnly_zipWith _ _ _, framesOf_zipWith _ _ _ length_eq⟩

/-! ### The drain count by the level (R169) -/

theorem drainCount_zero : drainCount 0 = 1 := rfl

theorem drainCount_of_mem_range {n : Byte} (lower : 1 ≤ n.toNat) (upper : n.toNat ≤ 16) :
    drainCount n = n.toNat := by
  rw [drainCount, clamp, fifoCap, if_neg (Nat.not_lt.mpr lower), if_neg (Nat.not_lt.mpr upper)]

theorem drainCount_of_sixteen_lt {n : Byte} (above : 16 < n.toNat) : drainCount n = 16 := by
  rw [drainCount, clamp, fifoCap, if_neg (by omega), if_pos above]

/-- Settles O34: the count register holds the drain count, which is found range by range; the bit
length is taken from the level itself (R168, decision D15). -/
theorem drainCountIsClamped : Obligations.DrainCountIsClamped := by
  intro s control
  rw [measure_m_toNat]
  refine ⟨fun level_zero => ?_, drainCount_of_mem_range, drainCount_of_sixteen_lt,
    measure_bitlen s control⟩
  rw [level_zero, drainCount_zero]

end Sys2Proof.Machine
end

section

namespace Sys2Proof.Machine

/-! ### The checksum and the validation (R193, R194) -/

theorem uidValid_iff (u : Uid) : uidValid u = true ↔ bcc u.b0 u.b1 u.b2 u.b3 = u.b4 :=
  beq_iff_eq

/-- The fifth byte equals the checksum exactly when it cancels the checksum under XOR. -/
theorem uidValid_iff_xor_eq_zero (u : Uid) :
    uidValid u = true ↔ u.b0 ^^^ u.b1 ^^^ u.b2 ^^^ u.b3 ^^^ u.b4 = 0 :=
  (uidValid_iff u).trans BitVec.xor_eq_zero_iff.symm

theorem anticollVerdict_five (u : Uid) :
    anticollVerdict 5 u = if uidValid u then .valid else .badChecksum := rfl

theorem setStatus_eq_self {s : State} {st : Status} (status_eq : s.status = st) :
    s.setStatus st = s := by
  subst status_eq
  rfl

/-- Validation succeeds on five bytes whose checksum is right: the UID alone is written. -/
theorem judgeAnticoll_of_uidValid {s : State} (status_ok : s.status = .ok) (five : s.respLen = 5)
    (valid : uidValid (uidOfResp s.resp) = true) :
    s.judgeAnticoll = s.setUid (uidOfResp s.resp) := by
  have verdict : anticollVerdict s.respLen (uidOfResp s.resp) = .valid := by
    rw [five, anticollVerdict_five, if_pos valid]
  simp only [State.judgeAnticoll, if_pos status_ok, verdict, setStatus_eq_self status_ok]

/-- Validation fails with ChecksumError on five bytes whose checksum is wrong. -/
theorem judgeAnticoll_of_not_uidValid {s : State} (status_ok : s.status = .ok)
    (five : s.respLen = 5) (invalid : ¬ uidValid (uidOfResp s.resp) = true) :
    s.judgeAnticoll = (s.setStatus .error).setCause .checksumError := by
  have verdict : anticollVerdict s.respLen (uidOfResp s.resp) = .badChecksum := by
    rw [five, anticollVerdict_five, if_neg invalid]
  simp only [State.judgeAnticoll, if_pos status_ok, verdict]

/-- Settles O40: validity is the XOR of all five bytes being zero, and on five bytes with status OK
the validation branches on validity alone. -/
theorem checksumDecidesValidation : Obligations.ChecksumDecidesValidation := by
  refine ⟨fun u => ⟨uidValid_iff u, rfl, uidValid_iff_xor_eq_zero u⟩, fun s status_ok five => ?_⟩
  have valid_iff := uidValid_iff_xor_eq_zero (uidOfResp s.resp)
  exact ⟨fun xor_zero => judgeAnticoll_of_uidValid status_ok five (valid_iff.mpr xor_zero),
    fun xor_ne => judgeAnticoll_of_not_uidValid status_ok five (mt valid_iff.mp xor_ne)⟩

end Sys2Proof.Machine
end

section

namespace Sys2Proof

/-! ### Operands read back (R100) -/

theorem addrOfByte_setWidth (addr : Addr) : addrOfByte (addr.setWidth 8) = addr := by
  rw [addrOfByte, BitVec.setWidth_setWidth_of_le addr (by decide), BitVec.setWidth_eq]

/-- A sequence that fits its length byte is taken whole. -/
theorem operandsCounted_of_fits (f : List Byte → Except DecodeError Instr) {bytes : List Byte}
    (fits : bytes.length ≤ 255) :
    operandsCounted f (BitVec.ofNat 8 bytes.length :: bytes) = f bytes := by
  have length_read : (BitVec.ofNat 8 bytes.length).toNat = bytes.length := by
    rw [BitVec.toNat_ofNat]
    omega
  rw [operandsCounted, if_pos length_read.symm]

theorem operandsNone_ok_iff {i j : Instr} {ops : List Byte} :
    operandsNone i ops = .ok j ↔ ops = [] ∧ i = j := by
  cases ops <;> simp [operandsNone]

theorem operandsOne_ok_iff {f : Byte → Except DecodeError Instr} {ops : List Byte} {j : Instr} :
    operandsOne f ops = .ok j ↔ ∃ a, ops = [a] ∧ f a = .ok j := by
  match ops with
  | [] => simp [operandsOne]
  | [a] => simp [operandsOne]
  | _ :: _ :: _ => simp [operandsOne]

theorem operandsTwo_ok_iff {f : Byte → Byte → Instr} {ops : List Byte} {j : Instr} :
    operandsTwo f ops = .ok j ↔ ∃ a b, ops = [a, b] ∧ f a b = j := by
  match ops with
  | [] => simp [operandsTwo]
  | [_] => simp [operandsTwo]
  | [a, b] => simp [operandsTwo]
  | _ :: _ :: _ :: _ => simp [operandsTwo]

/-- A counted sequence is accepted with its own length before it, and no other. -/
theorem operandsCounted_ok {f : List Byte → Except DecodeError Instr} {ops : List Byte} {j : Instr}
    (h : operandsCounted f ops = .ok j) :
    ∃ bytes, ops = BitVec.ofNat 8 bytes.length :: bytes ∧ f bytes = .ok j := by
  cases ops with
  | nil => simp [operandsCounted] at h
  | cons k bytes =>
    rw [operandsCounted] at h
    split at h
    next length_eq => exact ⟨bytes, by rw [length_eq, BitVec.ofNat_toNat, BitVec.setWidth_eq], h⟩
    next => split at h <;> simp at h

theorem operandsToCard_ok {ops : List Byte} {j : Instr} (h : operandsToCard ops = .ok j) :
    ∃ c tx, ops = c :: BitVec.ofNat 8 tx.length :: tx ∧ j = .toCard c tx := by
  cases ops with
  | nil => simp [operandsToCard] at h
  | cons c rest =>
    obtain ⟨tx, rfl, hj⟩ := operandsCounted_ok h
    exact ⟨c, tx, rfl, (Except.ok.inj hj).symm⟩

theorem uidOfSequence_ok {bytes : List Byte} {j : Instr} (h : uidOfSequence bytes = .ok j) :
    ∃ uid : Uid, bytes = uid.bytes ∧ j = .selectTag uid := by
  unfold uidOfSequence at h
  split at h
  next a b c d e => exact ⟨⟨a, b, c, d, e⟩, rfl, (Except.ok.inj h).symm⟩
  next => simp at h

theorem levelOfByte_ok {b : Byte} {j : Instr} (h : levelOfByte b = .ok j) :
    ∃ level : Bool, b = (if level then 1 else 0) ∧ j = .resetWrite level := by
  unfold levelOfByte at h
  split at h
  next low => exact ⟨false, low, (Except.ok.inj h).symm⟩
  next =>
    split at h
    next high => exact ⟨true, high, (Except.ok.inj h).symm⟩
    next => simp at h

/-! ### Address bytes read back (R93) -/

/-- Bits 6:1 of a write frame's address byte are the address, and the bits beside them clear. -/
theorem addressByteWrite_fields (addr : Addr) :
    addressByteWrite addr &&& 0x81 = 0x00 ∧ (addressByteWrite addr).extractLsb' 1 6 = addr := by
  revert addr
  decide

/-- The same of a read frame's, with the direction bit set. -/
theorem addressByteRead_fields (addr : Addr) :
    addressByteRead addr &&& 0x81 = 0x80 ∧ (addressByteRead addr).extractLsb' 1 6 = addr := by
  revert addr
  decide

/-- A byte with bits 7 and 0 clear is the address byte of its bits 6:1. -/
theorem addressByteWrite_extract {b : Byte} (fixed : b &&& 0x81 = 0x00) :
    addressByteWrite (b.extractLsb' 1 6) = b := by
  revert b
  decide

/-- A byte with bit 7 set and bit 0 clear is the read address byte of its bits 6:1. -/
theorem addressByteRead_extract {b : Byte} (fixed : b &&& 0x81 = 0x80) :
    addressByteRead (b.extractLsb' 1 6) = b := by
  revert b
  decide

/-! ### Decoding an encoding, format by format -/

theorem decodeSpi_encode_write (addr : Addr) (value : Byte) :
    decodeSpi [addressByteWrite addr, value] = .ok (.spiWriteFrame addr value) := by
  obtain ⟨fixed, field⟩ := addressByteWrite_fields addr
  rw [decodeSpi, if_pos fixed, field]

theorem decodeSpi_encode_read (addr : Addr) :
    decodeSpi [addressByteRead addr, 0x00] = .ok (.spiReadFrame addr) := by
  obtain ⟨fixed, field⟩ := addressByteRead_fields addr
  have not_write : ¬ addressByteRead addr &&& 0x81 = 0x00 := by rw [fixed]; decide
  rw [decodeSpi, if_neg not_write, if_pos ⟨fixed, rfl⟩, field]

/-- The whole byte decides between the three rows of the chip command codes (R95). -/
theorem decodeCmd_other {p : Params} {code : Byte} (not_authent : code ≠ p.cmdAuthent)
    (not_transceive : code ≠ p.cmdTransceive) : decodeCmd p [code] = .ok (.cmdIdle code) := by
  rw [decodeCmd, if_neg not_authent, if_neg not_transceive]

/-- Settles O5, one constructor at a time: the fixed code bytes compute, the bus frames by their
fields, the sequences by their length bytes, the chip command codes by being distinct. -/
theorem decodeOfEncodeIsIdentity : Obligations.DecodeOfEncodeIsIdentity := by
  rintro p i ⟨-, -, codes_differ⟩ wf
  cases i with
  | spiWriteFrame addr value => exact decodeSpi_encode_write addr value
  | spiReadFrame addr => exact decodeSpi_encode_read addr
  | cmdIdle code =>
    obtain ⟨not_authent, not_transceive⟩ : code ≠ p.cmdAuthent ∧ code ≠ p.cmdTransceive := by
      simpa [Instr.wellFormed] using wf
    exact decodeCmd_other not_authent not_transceive
  | cmdAuthent => simp [decode, Instr.format, encode, decodeCmd]
  | cmdTransceive => simp [decode, Instr.format, encode, decodeCmd, codes_differ.symm]
  | piccRequest => simp [decode, Instr.format, encode, decodePicc]
  | piccAnticoll => simp [decode, Instr.format, encode, decodePicc]
  | transfer bytes =>
    have fits : bytes.length ≤ 255 := by simpa [Instr.wellFormed] using wf
    exact operandsCounted_of_fits (fun bytes => .ok (.transfer bytes)) fits
  | toCard cmd tx =>
    have fits : tx.length ≤ 16 := by simpa [Instr.wellFormed] using wf
    exact operandsCounted_of_fits (fun tx => .ok (.toCard cmd tx)) (by omega)
  | resetWrite level => cases level <;> rfl
  | writeReg addr value | setBits addr mask | clearBits addr mask =>
    simp [decode, Instr.format, encode, decodeHost, operandsTwo, addrOfByte_setWidth]
  | readReg addr =>
    simp [decode, Instr.format, encode, decodeHost, operandsOne, addrOfByte_setWidth]
  | antennaOn | request mode | anticoll | selectTag uid | init | shutdown | scan => rfl

end Sys2Proof
end

section

namespace Sys2Proof.Machine

/-- What O6 asks of bytes that decode: the format, the first byte and the length of the instruction,
and every byte unless an address operand was reduced. -/
def EncodedBy (p : Params) (f : Format) (bytes : List Byte) (i : Instr) : Prop :=
  i.format = f ∧ (encode p i).head? = bytes.head? ∧ (encode p i).length = bytes.length ∧
    (hasAddressOperand i = false → encode p i = bytes)

/-- Bytes that are the encoding itself. -/
theorem EncodedBy.of_eq {p : Params} {f : Format} {bytes : List Byte} {i : Instr}
    (format_eq : i.format = f) (bytes_eq : encode p i = bytes) : EncodedBy p f bytes i :=
  ⟨format_eq, by rw [bytes_eq], by rw [bytes_eq], fun _ => bytes_eq⟩

/-- An operation of the host: its code byte leads to its operands, read by the lemma of their shape;
only the four address operands can differ from the bytes read. -/
theorem encodedBy_of_decodeHost {bytes : List Byte} {i : Instr} (p : Params)
    (h : decodeHost bytes = .ok i) : EncodedBy p .host8 bytes i := by
  cases bytes with
  | nil => simp [decodeHost] at h
  | cons code ops =>
    rw [decodeHost] at h
    split at h <;> rename_i code_eq
    case h_1 =>
      obtain ⟨bytes, rfl, hj⟩ := operandsCounted_ok h
      cases hj
      exact .of_eq rfl (congrArg (· :: _) (BitVec.eq_of_toNat_eq code_eq).symm)
    case h_2 =>
      obtain ⟨b, rfl, hj⟩ := operandsOne_ok_iff.mp h
      obtain ⟨level, rfl, rfl⟩ := levelOfByte_ok hj
      exact .of_eq rfl (congrArg (· :: _) (BitVec.eq_of_toNat_eq code_eq).symm)
    case h_8 =>
      obtain ⟨c, tx, rfl, rfl⟩ := operandsToCard_ok h
      exact .of_eq rfl (congrArg (· :: _) (BitVec.eq_of_toNat_eq code_eq).symm)
    case h_9 =>
      obtain ⟨m, rfl, hj⟩ := operandsOne_ok_iff.mp h
      cases hj
      exact .of_eq rfl (congrArg (· :: _) (BitVec.eq_of_toNat_eq code_eq).symm)
    case h_11 =>
      obtain ⟨bytes, rfl, hj⟩ := operandsCounted_ok h
      obtain ⟨uid, rfl, rfl⟩ := uidOfSequence_ok hj
      exact .of_eq rfl (congrArg (· :: _) (BitVec.eq_of_toNat_eq code_eq).symm)
    case h_3 | h_5 | h_6 =>
      obtain ⟨a, b, rfl, rfl⟩ := operandsTwo_ok_iff.mp h
      exact ⟨rfl, congrArg some (BitVec.eq_of_toNat_eq code_eq).symm, rfl, nofun⟩
    case h_4 =>
      obtain ⟨a, rfl, hj⟩ := operandsOne_ok_iff.mp h
      cases hj
      exact ⟨rfl, congrArg some (BitVec.eq_of_toNat_eq code_eq).symm, rfl, nofun⟩
    case h_7 | h_10 | h_12 | h_13 | h_14 =>
      obtain ⟨rfl, rfl⟩ := operandsNone_ok_iff.mp h
      exact .of_eq rfl (congrArg (· :: _) (BitVec.eq_of_toNat_eq code_eq).symm)
    case h_15 => simp at h

/-- A bus frame: the fixed bits 7 and 0 are those of its row, so the address byte is the one read. -/
theorem encodedBy_of_decodeSpi {bytes : List Byte} {i : Instr} (p : Params)
    (h : decodeSpi bytes = .ok i) : EncodedBy p .spi16 bytes i := by
  unfold decodeSpi at h
  split at h
  next => simp at h
  next b0 b1 =>
    split at h
    next write =>
      cases h
      exact .of_eq rfl (congrArg (· :: _) (addressByteWrite_extract write))
    next =>
      split at h
      next read =>
        obtain ⟨fixed, rfl⟩ := read
        cases h
        exact .of_eq rfl (congrArg (· :: _) (addressByteRead_extract fixed))
      next => simp at h
  next => simp at h

/-- A chip command code: one byte, whichever row it is. -/
theorem encodedBy_of_decodeCmd {bytes : List Byte} {i : Instr} {p : Params}
    (h : decodeCmd p bytes = .ok i) : EncodedBy p .cmd8 bytes i := by
  unfold decodeCmd at h
  split at h
  next => simp at h
  next b =>
    split at h
    next authent => cases h; exact .of_eq rfl (congrArg (fun c => [c]) authent.symm)
    next =>
      split at h
      next transceive => cases h; exact .of_eq rfl (congrArg (fun c => [c]) transceive.symm)
      next => cases h; exact .of_eq rfl rfl
  next => simp at h

/-- A card frame: one of the two that R97 and R98 write out. -/
theorem encodedBy_of_decodePicc {bytes : List Byte} {i : Instr} {p : Params}
    (h : decodePicc p bytes = .ok i) : EncodedBy p .picc bytes i := by
  unfold decodePicc at h
  split at h
  next => simp at h
  next b =>
    split at h
    next code => cases h; exact .of_eq rfl (congrArg (fun c => [c]) code.symm)
    next => simp at h
  next b nvb =>
    split at h
    next frame =>
      obtain ⟨rfl, rfl⟩ := frame
      cases h
      exact .of_eq rfl rfl
    next => simp at h
  next => simp at h

/-- Settles O6, format by format. -/
theorem decodedBytesAreTheEncoding : Obligations.DecodedBytesAreTheEncoding := by
  intro p f bytes i h
  cases f with
  | host8 => exact encodedBy_of_decodeHost p h
  | spi16 => exact encodedBy_of_decodeSpi p h
  | cmd8 => exact encodedBy_of_decodeCmd h
  | picc => exact encodedBy_of_decodePicc h

/-! ### Fields, written-out words and address operands -/

/-- Settles O3: the two address bytes stand in the frames by definition, and where their fields stand
is a fact of the 64 addresses. -/
theorem frameFieldsStandWhereStated : Obligations.FrameFieldsStandWhereStated := by
  intro addr value
  have write_bits : (addressByteWrite addr).getLsbD 7 = false ∧
      (addressByteWrite addr).getLsbD 0 = false := by revert addr; decide
  have read_bits : (addressByteRead addr).getLsbD 7 = true ∧
      (addressByteRead addr).getLsbD 0 = false := by revert addr; decide
  exact ⟨addressByteWrite addr, addressByteRead addr, rfl, rfl, write_bits.1,
    (addressByteWrite_fields addr).2, write_bits.2, read_bits.1, (addressByteRead_fields addr).2,
    read_bits.2⟩

/-- Settles O4: the decoder computes each of the ten words. -/
theorem writtenOutWordsDecode : Obligations.WrittenOutWordsDecode := by
  unfold Obligations.WrittenOutWordsDecode
  decide

/-- The frame's address byte of a reduced address is R91's formula on the whole byte: the mask drops
the bits the reduction drops. -/
theorem addressByteWrite_reduced (b : Byte) :
    addressByteWrite (b.setWidth 6) = (b <<< 1) &&& 0x7E := by
  revert b
  decide

/-- Settles O8: the four operations read their address byte by `addrOfByte`, which keeps its low six
bits. -/
theorem addressOperandReducedModulo64 : Obligations.AddressOperandReducedModulo64 := fun b _ =>
  ⟨rfl, rfl, rfl, rfl, BitVec.toNat_setWidth 6 b, addressByteWrite_reduced b⟩

end Sys2Proof.Machine
end

section

namespace Sys2Proof.Machine

/-! ### One equation for every instruction

An instruction is turned away for a reason that its state gives, or its operation runs. -/

/-- Why an instruction is turned away, if it is (spec/60_exceptions.md R246;
spec/70_reset_and_hazards.md R280, R282; spec/42_command_engine.md R151). -/
def denialOf (s : State) : Instr → Option Denial
  | .init => s.initAdmission
  | .toCard _ tx =>
    if s.admission = none ∧ fifoCap < tx.length then some .bufferTooLong else s.admission
  | _ => s.admission

/-- The operation an instruction runs. -/
def operationOf (p : Params) : Instr → Op Ret
  | .spiWriteFrame addr value => do writeReg addr value; pure .nothing
  | .spiReadFrame addr => do let v ← readReg addr; pure (.byte v)
  | .cmdIdle code => do runCommand code; commandResult
  | .cmdAuthent => do runCommand p.cmdAuthent; commandResult
  | .cmdTransceive => do runCommand p.cmdTransceive; commandResult
  | .piccRequest => do let st ← request p.piccReqidl; pure (.status st)
  | .piccAnticoll => do let st ← anticoll; anticollResult st
  | .transfer bytes => do let rx ← xfer bytes; pure (.bytes rx)
  | .resetWrite level => do resetLine level; pure .nothing
  | .writeReg addr value => do writeReg addr value; pure .nothing
  | .readReg addr => do let v ← readReg addr; pure (.byte v)
  | .setBits addr mask => do setBits addr mask; pure .nothing
  | .clearBits addr mask => do clearBits addr mask; pure .nothing
  | .antennaOn => do antennaOn; pure .nothing
  | .toCard cmd tx => do toCard cmd tx; commandResult
  | .request mode => do let st ← request mode; pure (.status st)
  | .anticoll => do let st ← anticoll; anticollResult st
  | .selectTag _ => do update (fun t => (t.setStatus .ok).setCause .none); pure (.status .ok)
  | .init => initSequence
  | .shutdown => do update (·.closeHandle); pure .nothing
  | .scan => do update (fun t => (t.setScan .idleScan).setScanning true); pure .nothing

/-- The state an instruction leaves. -/
theorem exec_eq (i : Instr) (s : State) :
    exec i s = .next (match denialOf s i with
      | some why => s.withRet (.denied why)
      | none => settle (operationOf s.cfg i s)) := by
  cases i
  case toCard cmd tx =>
    change execToCard cmd tx s = _
    unfold execToCard
    by_cases long : s.admission = none ∧ fifoCap < tx.length
    · simp only [denialOf, if_pos long]
    · simp only [denialOf, if_neg long]
      rfl
  all_goals rfl

theorem exec_of_denial {i : Instr} {s : State} {why : Denial} (h : denialOf s i = some why) :
    exec i s = .next (s.withRet (.denied why)) := by rw [exec_eq, h]

theorem exec_of_run {i : Instr} {s : State} (h : denialOf s i = none) :
    exec i s = .next (settle (operationOf s.cfg i s)) := by rw [exec_eq, h]

/-! ### Which instructions are turned away -/

theorem initAdmission_none {s : State} :
    s.initAdmission = none ↔ s.fault = false ∧ s.isOpen = false := by
  unfold State.initAdmission
  cases s.fault <;> cases s.isOpen <;> simp

theorem denialOf_inFault {s : State} (i : Instr) (h : s.fault = true) :
    denialOf s i = some .inFault := by
  cases i <;> simp [denialOf, State.admission, State.initAdmission, h]

theorem denialOf_notOpen {s : State} {i : Instr} (outside : s.fault = false)
    (closed : s.isOpen = false) (not_init : i ≠ .init) : denialOf s i = some .notOpen := by
  cases i <;> simp [denialOf, State.admission, outside, closed] at not_init ⊢

theorem denialOf_init_open {s : State} (h : s.Admitted) : denialOf s .init = some .alreadyOpen := by
  obtain ⟨outside, opened⟩ := h
  simp [denialOf, State.initAdmission, outside, opened]

theorem denialOf_init {s : State} (outside : s.fault = false) (closed : s.isOpen = false) :
    denialOf s .init = none := initAdmission_none.mpr ⟨outside, closed⟩

theorem denialOf_long {s : State} {cmd : Byte} {tx : List Byte} (h : s.Admitted)
    (long : 16 < tx.length) : denialOf s (.toCard cmd tx) = some .bufferTooLong :=
  if_pos ⟨admission_none.mpr h, long⟩

/-- An admitted engine runs every well-formed instruction but INIT. -/
theorem denialOf_admitted {s : State} {i : Instr} {p : Params} (h : s.Admitted) (not_init : i ≠ .init)
    (wf : i.wellFormed p = true) : denialOf s i = none := by
  cases i
  case init => exact absurd rfl not_init
  case toCard cmd tx =>
    have fits : tx.length ≤ 16 := by simpa [Instr.wellFormed] using wf
    rw [denialOf, if_neg fun long => absurd long.2 (Nat.not_lt.mpr fits)]
    exact admission_none.mpr h
  all_goals exact admission_none.mpr h

/-- Whatever runs begins outside FAULT. -/
theorem fault_of_denialOf_none {s : State} {i : Instr} (h : denialOf s i = none) :
    s.fault = false := by
  cases outside : s.fault with
  | false => rfl
  | true => rw [denialOf_inFault i outside] at h; cases h

/-- Whatever runs but INIT begins admitted. -/
theorem admitted_of_denialOf_none {s : State} {i : Instr} (h : denialOf s i = none)
    (not_init : i ≠ .init) : s.Admitted := by
  have outside := fault_of_denialOf_none h
  refine ⟨outside, ?_⟩
  cases opened : s.isOpen with
  | true => rfl
  | false => rw [denialOf_notOpen outside opened not_init] at h; cases h

/-! ### How an instruction ends -/

theorem stops_openHandle : StopsInFault openHandle := by
  intro s t h e
  unfold openHandle at e
  split at e <;> cases e
  exact ⟨rfl, rfl, rfl, .inl rfl⟩

theorem stops_initSequence : StopsInFault initSequence :=
  stops_bind stops_openHandle fun _ => stops_bind (stops_update _) fun _ =>
    stops_bind stops_current fun _ => stops_bind (stops_writeAll _) fun _ =>
      stops_bind stops_antennaOn fun _ => stops_pure _

theorem stops_commandResult : StopsInFault commandResult :=
  stops_bind stops_current fun _ => stops_pure _

theorem stops_anticollResult (st : Status) : StopsInFault (anticollResult st) :=
  stops_bind stops_current fun _ => stops_pure _

/-- No instruction stops but by entering FAULT: the calls that can hang are SCAN's blocks. -/
theorem stops_operationOf (p : Params) (i : Instr) : StopsInFault (operationOf p i) := by
  cases i with
  | spiWriteFrame | writeReg => exact stops_bind (stops_writeReg _ _) fun _ => stops_pure _
  | spiReadFrame | readReg => exact stops_bind (stops_readReg _) fun _ => stops_pure _
  | cmdIdle | cmdAuthent | cmdTransceive =>
    exact stops_bind (stops_runCommand _) fun _ => stops_commandResult
  | piccRequest | request => exact stops_bind (stops_request _) fun _ => stops_pure _
  | piccAnticoll | anticoll => exact stops_bind stops_anticoll fun _ => stops_anticollResult _
  | transfer => exact stops_bind (stops_xfer _) fun _ => stops_pure _
  | resetWrite | selectTag | shutdown | scan =>
    exact stops_bind (stops_update _) fun _ => stops_pure _
  | setBits => exact stops_bind (stops_setBits _ _) fun _ => stops_pure _
  | clearBits => exact stops_bind (stops_clearBits _ _) fun _ => stops_pure _
  | antennaOn => exact stops_bind stops_antennaOn fun _ => stops_pure _
  | toCard => exact stops_bind (stops_toCard _ _) fun _ => stops_commandResult
  | init => exact stops_initSequence

/-- The three ways an instruction ends: turned away, ended well, or stopped in FAULT. -/
inductive Ran (i : Instr) (s : State) : State → Prop where
  | denied (why : Denial) (denial : denialOf s i = some why) : Ran i s (s.withRet (.denied why))
  | done (r : Ret) (u : State) (runs : denialOf s i = none)
      (run : operationOf s.cfg i s = .ok r u) : Ran i s (u.withRet r)
  | faulted (u : State) (runs : denialOf s i = none)
      (run : operationOf s.cfg i s = .error .fault u) (fault : u.fault = true)
      (scanning : u.scanning = false) (cause : u.cause = .transportError ∨ u.cause = .resetLow) :
      Ran i s (u.withRet (.faulted u.cause))

/-- Every instruction has a next state, in one of the three ways. -/
theorem exec_ran (i : Instr) (s : State) : ∃ t, exec i s = .next t ∧ Ran i s t := by
  rw [exec_eq]
  cases runs : denialOf s i with
  | some why => exact ⟨_, rfl, .denied why runs⟩
  | none =>
    refine ⟨_, rfl, ?_⟩
    cases run : operationOf s.cfg i s with
    | ok r u => exact .done r u runs run
    | error h u =>
      obtain ⟨rfl, fault, scanning, cause⟩ := stops_operationOf s.cfg i run
      exact .faulted u runs run fault scanning cause

theorem ran_of_exec {i : Instr} {s t : State} (h : exec i s = .next t) : Ran i s t := by
  obtain ⟨u, hu, ran⟩ := exec_ran i s
  cases hu.symm.trans h
  exact ran

/-- Outside FAULT an instruction that was not turned away has ended well. -/
theorem run_of_exec {i : Instr} {s t : State} (h : exec i s = .next t) (runs : denialOf s i = none)
    (outside : t.fault = false) : ∃ r u, operationOf s.cfg i s = .ok r u ∧ t = u.withRet r := by
  cases ran_of_exec h with
  | denied why denial => rw [denial] at runs; cases runs
  | done r u _ run => exact ⟨r, u, run, rfl⟩
  | faulted u _ _ fault => exact absurd (outside.symm.trans fault) (by simp)

/-! ### Instructions turned away -/

/-- Settles O21: each of the three is a denial, which changes what is given back alone. -/
theorem refusedOperationsChangeNothing : Obligations.RefusedOperationsChangeNothing := fun _ i =>
  ⟨fun fault => exec_of_denial (denialOf_inFault i fault),
    fun outside closed not_init => exec_of_denial (denialOf_notOpen outside closed not_init),
    fun outside opened => exec_of_denial (denialOf_init_open ⟨outside, opened⟩)⟩

/-- Settles O22: a buffer past the bound is a denial. -/
theorem longSendBufferRefused : Obligations.LongSendBufferRefused := fun _ _ _ admitted long =>
  exec_of_denial (denialOf_long admitted long)

/-! ### Steps -/

theorem step_scanning {s : State} (returns : s.stalled = false) (scanning : s.scanning = true) :
    step s = .next (scanStep s.tick) :=
  stepAfterTick_scanning (by rwa [tick_stalled]) (by rwa [tick_scanning])

theorem step_request {s : State} {r : Request} {rest : List Request} {i : Instr}
    (returns : s.stalled = false) (idle : s.scanning = false) (queue : s.requests = r :: rest)
    (decoded : decode s.cfg r.fmt r.bytes = .ok i) :
    step s = exec i (s.tick.withRequests rest) :=
  stepAfterTick_request (by rwa [tick_stalled]) (by rwa [tick_scanning]) (by rwa [tick_requests])
    (by rwa [tick_cfg])

theorem step_undecodable {s : State} {r : Request} {rest : List Request} {why : DecodeError}
    (returns : s.stalled = false) (idle : s.scanning = false) (queue : s.requests = r :: rest)
    (rejected : decode s.cfg r.fmt r.bytes = .error why) :
    step s = .refused (.undecodable why) := by
  simp [step, stepAfterTick, returns, idle, queue, decodeRequest, rejected]

theorem step_idle {s : State} (returns : s.stalled = false) (idle : s.scanning = false)
    (queue : s.requests = []) : step s = idleStep s.tick :=
  stepAfterTick_idle (by rwa [tick_stalled]) (by rwa [tick_scanning]) (by rwa [tick_requests])

theorem step_stalled {s : State} (h : s.stalled = true) :
    step s = .fault .externalCallNeverReturns :=
  stepAfterTick_stalled (by rwa [tick_stalled])

/-- Everything a step with a next state can be: a block of SCAN, an instruction, or waiting. -/
theorem step_cases {s t : State} (h : step s = .next t) :
    s.stalled = false ∧
      ((s.scanning = true ∧ t = scanStep s.tick) ∨
       (s.scanning = false ∧ ∃ i rest, exec i (s.tick.withRequests rest) = .next t) ∨
       (s.scanning = false ∧ t = s.tick)) := by
  cases returns : s.stalled with
  | true => rw [step_stalled returns] at h; cases h
  | false =>
    refine ⟨rfl, ?_⟩
    cases scanning : s.scanning with
    | true =>
      rw [step_scanning returns scanning] at h
      cases h
      exact .inl ⟨rfl, rfl⟩
    | false =>
      refine .inr ?_
      cases queue : s.requests with
      | nil =>
        rw [step_idle returns scanning queue, idleStep] at h
        split at h <;> cases h
        exact .inr ⟨rfl, rfl⟩
      | cons r rest =>
        cases decoded : decode s.cfg r.fmt r.bytes with
        | ok i => exact .inl ⟨rfl, i, rest, (step_request returns scanning queue decoded).symm.trans h⟩
        | error why => rw [step_undecodable returns scanning queue decoded] at h; cases h

/-- No case of the decoder of host operations takes a code of 0x0E or more (R102). -/
theorem decodeHost_unassigned {code : Byte} (ops : List Byte) (unassigned : 0x0E ≤ code.toNat) :
    decodeHost (code :: ops) = .error (.unassignedCode code) := by
  rw [decodeHost]
  split
  case h_15 => rfl
  all_goals omega

/-- Settles O7: the decoder rejects the code, and a rejected request is refused. -/
theorem unassignedCodesAreRefused : Obligations.UnassignedCodesAreRefused :=
  fun _ _ ops _ returns idle queue unassigned =>
    step_undecodable returns idle queue (decodeHost_unassigned ops unassigned)

/-- Settles O9: the tick changes neither the queue nor the parameters the decoder reads. -/
theorem stepRunsDecodedInstruction : Obligations.StepRunsDecodedInstruction :=
  fun _ _ _ _ returns idle queue decoded => step_request returns idle queue decoded

/-- Settles O10: a running SCAN comes before the queue, and an empty queue leaves the engine idle. -/
theorem stepWithoutRequest : Obligations.StepWithoutRequest := by
  intro s returns
  refine ⟨step_scanning returns, fun idle queue outside => ?_, fun idle queue fault => ?_⟩
  · rw [step_idle returns idle queue, idleStep, tick_fault, if_neg (by simp [outside])]
  · rw [step_idle returns idle queue, idleStep, tick_fault, if_pos fault, tick_cause]

/-- Settles O11: the three cases of the tick. -/
theorem terminationRequestSetsCancelAlone : Obligations.TerminationRequestSetsCancelAlone := by
  intro s
  refine ⟨fun h => ?_, fun k h => ?_, fun h => ?_⟩ <;> rw [State.tick, h]

/-! ### Power-on and the outputs -/

/-- Distinct status numbers tell the statuses apart (R9). -/
theorem statusCode_injective {p : Params} (legal : p.Legal) {a b : Status}
    (h : statusCode p a = statusCode p b) : a = b := by
  obtain ⟨-, -, -, distinct⟩ := legal
  simp only [List.nodup_cons, List.mem_cons, List.not_mem_nil, or_false, not_or] at distinct
  obtain ⟨⟨ok_noTag, ok_error⟩, noTag_error, -⟩ := distinct
  cases a <;> cases b <;> simp_all [statusCode, eq_comm]

/-- Settles O1: the values at power-on and what the host reads hold by the definitions, a status or
cause being replaced by the one the premise names. -/
theorem powerOnAndHostOutputs : Obligations.PowerOnAndHostOutputs := by
  refine ⟨by decide, fun s => ⟨rfl, rfl, rfl, rfl, rfl, rfl, ?_⟩,
    fun p a b legal => statusCode_injective legal, rfl, rfl, rfl⟩
  refine ⟨?_, ?_, ?_, ?_, ?_, ?_, ?_, ?_, ?_, ?_, ?_, ?_⟩ <;> intro h <;>
    simp only [outputsOf, h] <;> rfl

/-- Settles O60: every clause is a fact of the written-out power-on state. -/
theorem powerOnMeetsInvariant : Obligations.PowerOnMeetsInvariant := by
  constructor <;> decide

end Sys2Proof.Machine
end

section

namespace Sys2Proof.Machine

/-! ### ANTICOLL leaves alone what a command does, but for the UID it writes -/

/-- What a stretch of the card protocol leaves alone: all that TO_CARD does but the UID
(spec/43_card_protocol.md R193). -/
def ProtocolChange (s t : State) : Prop := EngineChange s (t.setUid s.uid)

theorem setUid_eq_self {s : State} {u : Uid} (h : s.uid = u) : s.setUid u = s := by
  subst h
  rfl

theorem EngineChange.protocol {s t : State} (h : EngineChange s t) : ProtocolChange s t := by
  rw [ProtocolChange, setUid_eq_self h.uid]
  exact h

theorem ProtocolChange.refl (s : State) : ProtocolChange s s := (EngineChange.refl s).protocol

/-- A change of the engine is one whatever the UID was, as long as it stays. -/
theorem EngineChange.withUid {s t : State} (h : EngineChange s t) (u : Uid) :
    EngineChange (s.setUid u) (t.setUid u) where
  cfg := h.cfg
  isOpen := h.isOpen
  rst := h.rst
  scan := h.scan
  cancel := h.cancel
  uid := rfl
  stalled := h.stalled
  requests := h.requests
  termIn := h.termIn
  ret := h.ret
  opens := h.opens
  auths := h.auths
  calls := h.calls
  faultStays := h.faultStays
  scanning := h.scanning
  scanningStops := h.scanningStops
  faultScanning := h.faultScanning
  events := h.events

theorem ProtocolChange.trans {s t u : State} (a : ProtocolChange s t) (b : ProtocolChange t u) :
    ProtocolChange s u := EngineChange.trans a (b.withUid s.uid)

theorem protocol_bind {α β : Type} {x : Op α} {f : α → Op β} (hx : Keeps ProtocolChange x)
    (hf : ∀ a, Keeps ProtocolChange (f a)) : Keeps ProtocolChange (x >>= f) :=
  keeps_bind (R := ProtocolChange) (fun _ _ _ => ProtocolChange.trans) hx hf

theorem protocol_of_change {α : Type} {x : Op α} (h : Keeps EngineChange x) :
    Keeps ProtocolChange x := fun s => (h s).protocol

theorem judgeAnticoll_change (s : State) : ProtocolChange s s.judgeAnticoll := by
  unfold State.judgeAnticoll
  split
  · split <;> apply EngineChange.of_registers <;> rfl
  · exact .refl s

theorem setCause_change (c : Cause) (s : State) : EngineChange s (s.setCause c) := by
  apply EngineChange.of_registers <;> rfl

/-- Everything ANTICOLL leaves alone (R192). -/
theorem anticoll_change : Keeps ProtocolChange anticoll :=
  protocol_bind (protocol_of_change (change_update_last (setCause_change _))) fun _ =>
    keeps_bind_current fun s =>
      protocol_bind (protocol_of_change (writeReg_change _ _)) (fun _ =>
        protocol_bind (protocol_of_change (toCard_change _ _)) fun _ =>
          protocol_bind (keeps_update judgeAnticoll_change) fun _ =>
            protocol_of_change (change_current fun _ => change_pure _)) s

theorem commandResult_change : Keeps EngineChange commandResult :=
  change_current fun _ => change_pure _

theorem anticollResult_change (st : Status) : Keeps EngineChange (anticollResult st) :=
  change_current fun _ => change_pure _

/-- Register operations, commands and REQUEST leave alone what an engine change does. -/
theorem change_operationOf (p : Params) {i : Instr}
    (h : touchesRegister i = true ∨ runsCommand i = true) (not_anticoll : i ≠ .anticoll)
    (not_frame : i ≠ .piccAnticoll) : Keeps EngineChange (operationOf p i) := by
  cases i with
  | spiWriteFrame | writeReg => exact change_bind (writeReg_change _ _) fun _ => change_pure _
  | spiReadFrame | readReg => exact change_bind (readReg_change _) fun _ => change_pure _
  | cmdIdle | cmdAuthent | cmdTransceive =>
    exact change_bind (runCommand_change _) fun _ => commandResult_change
  | piccRequest | request => exact change_bind (request_change _) fun _ => change_pure _
  | setBits => exact change_bind (setBits_change _ _) fun _ => change_pure _
  | clearBits => exact change_bind (clearBits_change _ _) fun _ => change_pure _
  | antennaOn => exact change_bind antennaOn_change fun _ => change_pure _
  | toCard => exact change_bind (toCard_change _ _) fun _ => commandResult_change
  | anticoll => exact absurd rfl not_anticoll
  | piccAnticoll => exact absurd rfl not_frame
  | transfer | resetWrite | selectTag | init | shutdown | scan => exact h.elim nofun nofun

/-- The same of all of them, the UID left out. -/
theorem protocol_operationOf (p : Params) {i : Instr}
    (h : touchesRegister i = true ∨ runsCommand i = true) :
    Keeps ProtocolChange (operationOf p i) := by
  have anticoll_case : Keeps ProtocolChange (do let st ← anticoll; anticollResult st) :=
    protocol_bind anticoll_change fun _ => protocol_of_change (anticollResult_change _)
  by_cases not_anticoll : i = .anticoll
  · rw [not_anticoll]
    exact anticoll_case
  · by_cases not_frame : i = .piccAnticoll
    · rw [not_frame]
      exact anticoll_case
    · exact protocol_of_change (change_operationOf p h not_anticoll not_frame)

/-- What an operation keeps its instruction keeps, being turned away included. -/
theorem Ran.keeps {R : State → State → Prop} (refl : ∀ s, R s s) {i : Instr} {s t : State}
    (ran : Ran i s t) (h : Keeps R (operationOf s.cfg i)) : ∃ u r, R s u ∧ t = u.withRet r := by
  have left := h s
  cases ran with
  | denied why => exact ⟨s, _, refl s, rfl⟩
  | done r u _ run =>
    rw [run] at left
    exact ⟨u, r, left, rfl⟩
  | faulted u _ run =>
    rw [run] at left
    exact ⟨u, _, left, rfl⟩

/-- Settles O57: the frame is that of ProtocolChange, and that of EngineChange where the UID is spoken
of. -/
theorem commandEngineFrame : Obligations.CommandEngineFrame := by
  intro s t i h runs
  have ran := ran_of_exec h
  obtain ⟨u, r, change, rfl⟩ := ran.keeps .refl (protocol_operationOf s.cfg (.inr runs))
  refine ⟨change.cfg, change.isOpen, change.rst, change.scan, change.cancel, change.stalled,
    change.requests, change.termIn, change.opens, change.auths, change.calls, change.scanning, ?_, ?_⟩
  · intro _ not_anticoll not_frame
    obtain ⟨v, r', uid_change, same⟩ :=
      ran.keeps .refl (change_operationOf s.cfg (.inr runs) not_anticoll not_frame)
    rw [same]
    exact uid_change.uid
  · obtain ⟨events, bus, -, trace⟩ := change.events
    exact ⟨events, bus, trace⟩

/-! ### What grows and what is never taken back -/

/-- FAULT, `cancel` and the parameters stay, and the trace grows by events of a kind
(spec/10_state.md sections 2 and 4). -/
structure Grows (P : Event → Prop) (s t : State) : Prop where
  fault : s.fault = true → t.fault = true
  cancel : s.cancel = true → t.cancel = true
  cfg : t.cfg = s.cfg
  trace : ∃ events, t.trace = s.trace ++ events ∧ ∀ e ∈ events, P e

theorem Grows.refl {P : Event → Prop} (s : State) : Grows P s s := ⟨id, id, rfl, [], by simp⟩

theorem Grows.trans {P : Event → Prop} {s t u : State} (a : Grows P s t) (b : Grows P t u) :
    Grows P s u := by
  obtain ⟨x, hx, px⟩ := a.trace
  obtain ⟨y, hy, py⟩ := b.trace
  refine ⟨fun h => b.fault (a.fault h), fun h => b.cancel (a.cancel h), b.cfg.trans a.cfg, x ++ y,
    by rw [hy, hx, List.append_assoc], fun e he => ?_⟩
  exact (List.mem_append.mp he).elim (px e) (py e)

theorem Grows.mono {P Q : Event → Prop} (h : ∀ e, P e → Q e) {s t : State} (g : Grows P s t) :
    Grows Q s t := by
  obtain ⟨events, trace, kind⟩ := g.trace
  exact ⟨g.fault, g.cancel, g.cfg, events, trace, fun e he => h e (kind e he)⟩

theorem grows_bind {P : Event → Prop} {α β : Type} {x : Op α} {f : α → Op β}
    (hx : Keeps (Grows P) x) (hf : ∀ a, Keeps (Grows P) (f a)) : Keeps (Grows P) (x >>= f) :=
  keeps_bind (R := Grows P) (fun _ _ _ => Grows.trans) hx hf

theorem grows_pure {P : Event → Prop} {α : Type} (a : α) : Keeps (Grows P) (pure a : Op α) :=
  keeps_pure Grows.refl a

/-- An event of the engine's own operations: a bus frame has its two bytes and an answer as long
(spec/30_encoding.md R91, R92, R103). -/
def EngineEvent (e : Event) : Prop :=
  ∀ tx rx, e = .bus tx rx → EngineFrame tx ∧ rx.length = tx.length

theorem ProtocolChange.grows {s t : State} (h : ProtocolChange s t) : Grows EngineEvent s t := by
  obtain ⟨events, -, frames, trace⟩ := h.events
  refine ⟨h.faultStays, fun c => h.cancel.trans c, h.cfg, events, trace, ?_⟩
  rintro _ he tx rx rfl
  exact frames tx rx he

theorem grows_of_change {α : Type} {x : Op α} (h : Keeps EngineChange x) :
    Keeps (Grows EngineEvent) x := fun s => (h s).protocol.grows

theorem openHandle_grows : Keeps (Grows EngineEvent) openHandle := by
  intro s
  unfold openHandle
  split
  · exact ⟨id, id, rfl, [.busOpen], rfl, by simp [EngineEvent]⟩
  · exact ⟨fun _ => rfl, id, rfl, [], by simp⟩

theorem resetLine_grows (level : Bool) : Keeps (Grows EngineEvent) (resetLine level) := fun _ =>
  ⟨id, id, rfl, [.rst level], rfl, by simp [EngineEvent]⟩

theorem writeAll_change (ws : List (Addr × Byte)) : Keeps EngineChange (writeAll ws) := by
  induction ws with
  | nil => exact change_pure ()
  | cons w rest ih => exact change_bind (writeReg_change _ _) fun _ => ih

theorem initSequence_grows : Keeps (Grows EngineEvent) initSequence :=
  grows_bind openHandle_grows fun _ => grows_bind (resetLine_grows true) fun _ =>
    grows_of_change (change_current fun _ => change_bind (writeAll_change _) fun _ =>
      change_bind antennaOn_change fun _ => change_pure _)

theorem closeHandle_grows (s : State) : Grows EngineEvent s s.closeHandle :=
  ⟨id, id, rfl, [.busClose, .rstRel], by simp [State.closeHandle], by simp [EngineEvent]⟩

/-- Every instruction but TRANSFER takes nothing back and sends frames of the engine. -/
theorem grows_operationOf (p : Params) {i : Instr} (not_transfer : ∀ bytes, i ≠ .transfer bytes) :
    Keeps (Grows EngineEvent) (operationOf p i) := by
  by_cases h : touchesRegister i = true ∨ runsCommand i = true
  · exact fun s => (protocol_operationOf p h s).grows
  · cases i with
    | transfer bytes => exact absurd rfl (not_transfer bytes)
    | resetWrite level => exact grows_bind (resetLine_grows level) fun _ => grows_pure _
    | selectTag | scan =>
      exact grows_bind (keeps_update fun _ => ⟨id, id, rfl, [], by simp⟩) fun _ => grows_pure _
    | init => exact initSequence_grows
    | shutdown => exact grows_bind (keeps_update closeHandle_grows) fun _ => grows_pure _
    | spiWriteFrame | spiReadFrame | writeReg | readReg | setBits | clearBits | antennaOn =>
      exact absurd (.inl rfl) h
    | cmdIdle | cmdAuthent | cmdTransceive | piccRequest | piccAnticoll | toCard | request
    | anticoll =>
      exact absurd (.inr rfl) h

/-- One exchange adds one event, whatever its length. -/
theorem xfer_grows (tx : List Byte) : Keeps (Grows fun _ => True) (xfer tx) := by
  intro s
  rcases xfer_cases tx s with ⟨rx, e, -, h⟩ | ⟨e, -, h⟩ <;> rw [h]
  · exact ⟨id, id, rfl, [.bus tx rx], rfl, by simp⟩
  · exact ⟨fun _ => rfl, id, rfl, [], by simp⟩

/-- No instruction takes anything back. -/
theorem Ran.grows {i : Instr} {s t : State} (ran : Ran i s t) : Grows (fun _ => True) s t := by
  have kept : Keeps (Grows fun _ => True) (operationOf s.cfg i) := by
    by_cases transfer : ∃ bytes, i = .transfer bytes
    · obtain ⟨bytes, rfl⟩ := transfer
      exact grows_bind (xfer_grows bytes) fun _ => grows_pure _
    · exact fun s => (grows_operationOf _ (not_exists.mp transfer) s).mono fun _ _ => trivial
  obtain ⟨u, r, g, rfl⟩ := ran.keeps .refl kept
  exact ⟨g.fault, g.cancel, g.cfg, g.trace⟩

end Sys2Proof.Machine
end

section

namespace Sys2Proof.Machine

/-! ### What the calls on the external ports change (spec/44_scan_loop.md R221 to R226) -/

/-- The events of the external ports but the release of the actuator line. -/
def PortEvent : Event → Prop
  | .authQ _ _ => True
  | .audit _ _ => True
  | .unknown _ => True
  | .out _ => True
  | _ => False

/-- Calls that return change the trace, the answers to come and the cause. -/
def PortChange (s t : State) : Prop := ∃ events e c, (∀ ev ∈ events, PortEvent ev) ∧
  t = { s with trace := s.trace ++ events, env := e, cause := c }

theorem PortChange.refl (s : State) : PortChange s s := ⟨[], s.env, s.cause, by simp⟩

theorem PortChange.trans {s t u : State} (a : PortChange s t) (b : PortChange t u) :
    PortChange s u := by
  obtain ⟨x, e, c, px, rfl⟩ := a
  obtain ⟨y, e', c', py, rfl⟩ := b
  exact ⟨x ++ y, e', c', fun ev h => (List.mem_append.mp h).elim (px ev) (py ev), by simp⟩

/-- Operations made of calls on the external ports: they return, or one call hangs. -/
def PortCalls {α : Type} (x : Op α) : Prop := ∀ s, ∃ u, PortChange s u ∧
  ((∃ a, x s = .ok a u) ∨ x s = .error .stalled u.stall)

theorem calls_bind {α β : Type} {x : Op α} {f : α → Op β} (hx : PortCalls x)
    (hf : ∀ a, PortCalls (f a)) : PortCalls (x >>= f) := by
  intro s
  obtain ⟨u, change, ⟨a, run⟩ | run⟩ := hx s
  · obtain ⟨v, change', rest⟩ := hf a u
    rw [bind_of_ok run]
    exact ⟨v, change.trans change', rest⟩
  · exact ⟨u, change, .inr (bind_of_error run)⟩

theorem calls_pure {α : Type} (a : α) : PortCalls (pure a : Op α) := fun s =>
  ⟨s, .refl s, .inl ⟨a, rfl⟩⟩

theorem calls_callPort {ev : Event} (kind : PortEvent ev) : PortCalls (callPort ev) := by
  intro s
  rcases callPort_cases ev s with ⟨e, -, run⟩ | ⟨e, -, run⟩ | ⟨e, -, run⟩
  · exact ⟨_, ⟨[ev], e, s.cause, by simpa using kind, rfl⟩, .inl ⟨(), run⟩⟩
  · exact ⟨_, ⟨[ev], e, .externalServiceError, by simpa using kind, rfl⟩, .inl ⟨(), run⟩⟩
  · exact ⟨s.withEnv e, ⟨[], e, s.cause, by simp, by simp [State.withEnv]⟩, .inr run⟩

theorem calls_askAuthorized (text : UidText) : PortCalls (askAuthorized text) := by
  intro s
  rcases askAuthorized_cases text s with ⟨e, -, run⟩ | ⟨e, -, run⟩ | ⟨e, -, run⟩ | ⟨e, -, run⟩
  · exact ⟨_, ⟨[.authQ text true], e, s.cause, by simp [PortEvent], rfl⟩, .inl ⟨true, run⟩⟩
  · exact ⟨_, ⟨[.authQ text false], e, s.cause, by simp [PortEvent], rfl⟩, .inl ⟨false, run⟩⟩
  · exact ⟨_, ⟨[.authQ text false], e, .externalServiceError, by simp [PortEvent], rfl⟩,
      .inl ⟨false, run⟩⟩
  · exact ⟨s.withEnv e, ⟨[], e, s.cause, by simp, by simp [State.withEnv]⟩, .inr run⟩

/-! ### The blocks of SCAN -/

/-- The state a block leaves: `scanStep` by its block's result. -/
def settleBlock : EStateM.Result Halt State Unit → State
  | .ok _ t => t
  | .error .fault t => t.withRet (.faulted t.cause)
  | .error .stalled t => t

theorem scanStep_eq (s : State) : scanStep s = settleBlock (scanBlock s.scan s) := rfl

/-- Calls on the external ports, one for each event, in order. -/
def callPorts : List Event → Op Unit
  | [] => pure ()
  | ev :: rest => do
    callPort ev
    callPorts rest

/-- The events of AUTHORIZED's calls (R215). -/
def authorizedEvents (s : State) : List Event :=
  [.out true, .out false, .audit (uidString s.uid) true]

/-- The events of DENIED's calls (R216). -/
def deniedEvents (s : State) : List Event :=
  .audit (uidString s.uid) false ::
    if s.cfg.recordUnknown then [.unknown (uidString s.uid)] else []

theorem authorizedEvents_kind (s : State) : ∀ ev ∈ authorizedEvents s, PortEvent ev := by
  simp [authorizedEvents, PortEvent]

theorem deniedEvents_kind (s : State) : ∀ ev ∈ deniedEvents s, PortEvent ev := by
  unfold deniedEvents
  split <;> simp [PortEvent]

theorem calls_callPorts {events : List Event} (kind : ∀ ev ∈ events, PortEvent ev) :
    PortCalls (callPorts events) := by
  induction events with
  | nil => exact calls_pure ()
  | cons ev rest ih =>
    obtain ⟨first, others⟩ := List.forall_mem_cons.mp kind
    exact calls_bind (calls_callPort first) fun _ => ih others

section Blocks

variable {s : State}

theorem scanBlock_idleScan (h : s.scan = .idleScan) (going : s.cancel = false) :
    scanBlock s.scan s = (do
      let st ← request s.cfg.piccReqidl
      update (·.setScan (if st = .ok then .cardDetected else .idleScan)) : Op Unit) s := by
  rw [h, scanBlock, blockIdleScan, bind_current, if_neg (by simp [going])]

theorem scanBlock_cardDetected (h : s.scan = .cardDetected) :
    scanBlock s.scan s = (do
      let st ← anticoll
      update (·.setScan (if st = .ok then .uidResolved else .idleScan)) : Op Unit) s := by
  rw [h, scanBlock, blockCardDetected]

theorem scanBlock_uidResolved (h : s.scan = .uidResolved) :
    scanBlock s.scan s = (do
      let a ← askAuthorized (uidString s.uid)
      update (·.setScan (if a then .authorized else .denied)) : Op Unit) s := by
  rw [h, scanBlock, blockUidResolved, bind_current]

theorem scanBlock_authorized (h : s.scan = .authorized) :
    scanBlock s.scan s =
      (do callPorts (authorizedEvents s); update (·.setScan .idleScan) : Op Unit) s := by
  rw [h, scanBlock, blockAuthorized, bind_current]
  simp only [authorizedEvents, callPorts, bind_assoc, pure_bind]

theorem scanBlock_denied (h : s.scan = .denied) :
    scanBlock s.scan s =
      (do callPorts (deniedEvents s); update (·.setScan .idleScan) : Op Unit) s := by
  rw [h, scanBlock, blockDenied, bind_current]
  cases recorded : s.cfg.recordUnknown <;>
    simp [deniedEvents, recorded, callPorts, bind_assoc]

theorem scanStep_cancelled (h : s.scan = .idleScan) (cancelled : s.cancel = true) :
    scanStep s = s.endScan := by
  rw [scanStep_eq, h, scanBlock, blockIdleScan, bind_current, if_pos cancelled]
  rfl

theorem scanStep_shutdown (h : s.scan = .shutdown) : scanStep s = s.endScan := by
  rw [scanStep_eq, h]
  rfl

end Blocks

/-- A block that performs `x` and then chooses the next scan state by its result. -/
theorem settleBlock_bind {α : Type} {x : Op α} {next : α → ScanState} (s : State) :
    (∃ a u, x s = .ok a u ∧
      settleBlock ((x >>= fun a => update (·.setScan (next a))) s) = u.setScan (next a)) ∨
    (∃ u, x s = .error .fault u ∧
      settleBlock ((x >>= fun a => update (·.setScan (next a))) s) =
        u.withRet (.faulted u.cause)) ∨
    (∃ u, x s = .error .stalled u ∧
      settleBlock ((x >>= fun a => update (·.setScan (next a))) s) = u) := by
  cases run : x s with
  | ok a u => exact .inl ⟨a, u, rfl, by rw [bind_of_ok run]; rfl⟩
  | error h u =>
    cases h with
    | fault => exact .inr (.inl ⟨u, rfl, by rw [bind_of_error run]; rfl⟩)
    | stalled => exact .inr (.inr ⟨u, rfl, by rw [bind_of_error run]; rfl⟩)

/-- The card operation of a scan state and the state its success leads to (R211, R212). -/
inductive CardBlock (s : State) : Op Status → ScanState → Prop where
  | request (scan : s.scan = .idleScan) (going : s.cancel = false) :
      CardBlock s (request s.cfg.piccReqidl) .cardDetected
  | anticoll (scan : s.scan = .cardDetected) : CardBlock s anticoll .uidResolved

/-- The scan states whose blocks call the external ports, and where they lead (R213 to R216). -/
inductive PortBlock (s : State) : ScanState → Prop where
  | authorized (scan : s.scan = .uidResolved) : PortBlock s .authorized
  | denied (scan : s.scan = .uidResolved) : PortBlock s .denied
  | actuated (scan : s.scan = .authorized) : PortBlock s .idleScan
  | recorded (scan : s.scan = .denied) : PortBlock s .idleScan

/-- Everything one block of SCAN can do (R227, R228). -/
inductive Block (s : State) : State → Prop where
  | ended (ends : s.scan = .shutdown ∨ (s.scan = .idleScan ∧ s.cancel = true)) : Block s s.endScan
  | card (x : Op Status) (found : ScanState) (kind : CardBlock s x found) (st : Status) (u : State)
      (run : x s = .ok st u) : Block s (u.setScan (if st = .ok then found else .idleScan))
  | faulted (x : Op Status) (found : ScanState) (kind : CardBlock s x found) (u : State)
      (run : x s = .error .fault u) : Block s (u.withRet (.faulted u.cause))
  | port (c : ScanState) (kind : PortBlock s c) (u : State) (change : PortChange s u) :
      Block s (u.setScan c)
  | hung (c : ScanState) (kind : PortBlock s c) (u : State) (change : PortChange s u) :
      Block s u.stall

theorem stops_cardBlock {s : State} {x : Op Status} {found : ScanState} (h : CardBlock s x found) :
    StopsInFault x := by
  cases h with
  | request => exact stops_request _
  | anticoll => exact stops_anticoll

theorem protocol_cardBlock {s : State} {x : Op Status} {found : ScanState}
    (h : CardBlock s x found) : Keeps ProtocolChange x := by
  cases h with
  | request => exact protocol_of_change (request_change _)
  | anticoll => exact anticoll_change

/-- A block that runs a card operation: it chooses the next scan state by the status, or it stops in
FAULT. -/
theorem scanStep_card {s : State} {x : Op Status} {found : ScanState} (kind : CardBlock s x found) :
    (∃ st u, x s = .ok st u ∧
      scanStep s = u.setScan (if st = .ok then found else .idleScan)) ∨
    (∃ u, x s = .error .fault u ∧ scanStep s = u.withRet (.faulted u.cause)) := by
  have block : scanBlock s.scan s =
      (x >>= fun st => update (·.setScan (if st = .ok then found else .idleScan)) : Op Unit) s := by
    cases kind with
    | request scan going => exact scanBlock_idleScan scan going
    | anticoll scan => exact scanBlock_cardDetected scan
  rw [scanStep_eq, block]
  rcases settleBlock_bind (x := x) s with h | h | ⟨u, run, -⟩
  · exact .inl h
  · exact .inr h
  · cases (stops_cardBlock kind run).1

theorem block_of_card {s : State} {x : Op Status} {found : ScanState} (kind : CardBlock s x found) :
    Block s (scanStep s) := by
  rcases scanStep_card kind with ⟨st, u, run, h⟩ | ⟨u, run, h⟩ <;> rw [h]
  · exact .card x found kind st u run
  · exact .faulted x found kind u run

theorem block_of_port {s : State} {α : Type} [Inhabited α] {x : Op α} {next : α → ScanState}
    (calls : PortCalls x) (kind : ∀ a, PortBlock s (next a))
    (block : scanBlock s.scan s = (x >>= fun a => update (·.setScan (next a)) : Op Unit) s) :
    Block s (scanStep s) := by
  rw [scanStep_eq, block]
  obtain ⟨u, change, ⟨a, run⟩ | run⟩ := calls s
  · rw [bind_of_ok run]
    exact .port (next a) (kind a) u change
  · rw [bind_of_error run]
    exact .hung (next default) (kind default) u change

/-- Every block of SCAN is one of these. -/
theorem scanStep_block (s : State) : Block s (scanStep s) := by
  cases scan : s.scan with
  | idleScan =>
    cases cancel : s.cancel with
    | true =>
      rw [scanStep_cancelled scan cancel]
      exact .ended (.inr ⟨scan, cancel⟩)
    | false => exact block_of_card (.request scan cancel)
  | cardDetected => exact block_of_card (.anticoll scan)
  | uidResolved =>
    refine block_of_port (calls_askAuthorized _) (fun a => ?_) (scanBlock_uidResolved scan)
    cases a with
    | true => exact .authorized scan
    | false => exact .denied scan
  | authorized =>
    exact block_of_port (calls_callPorts (authorizedEvents_kind s)) (fun _ => .actuated scan)
      (scanBlock_authorized scan)
  | denied =>
    exact block_of_port (calls_callPorts (deniedEvents_kind s)) (fun _ => .recorded scan)
      (scanBlock_denied scan)
  | shutdown =>
    rw [scanStep_shutdown scan]
    exact .ended (.inl scan)

/-! ### Nothing is taken back, and every frame is one of the engine's -/

theorem PortChange.grows {s t : State} (h : PortChange s t) : Grows EngineEvent s t := by
  obtain ⟨events, e, c, kind, rfl⟩ := h
  refine ⟨id, id, rfl, events, rfl, ?_⟩
  rintro ev he tx rx rfl
  exact (kind _ he).elim

theorem endScan_grows (s : State) : Grows EngineEvent s s.endScan :=
  ⟨id, id, rfl, [.outRel, .busClose, .rstRel], by simp [State.endScan, State.closeHandle],
    by simp [EngineEvent]⟩

/-- A block takes nothing back and sends frames of the engine. -/
theorem Block.grows {s t : State} (h : Block s t) : Grows EngineEvent s t := by
  cases h with
  | ended => exact endScan_grows s
  | card x found kind _ u run | faulted x found kind u run =>
    have g := (protocol_cardBlock kind s).grows
    rw [run] at g
    exact ⟨g.fault, g.cancel, g.cfg, g.trace⟩
  | port c _ u change | hung c _ u change =>
    have g := change.grows
    exact ⟨g.fault, g.cancel, g.cfg, g.trace⟩

theorem tick_grows (s : State) : Grows EngineEvent s s.tick :=
  ⟨fun h => (tick_fault s).trans h, tick_cancel_of_set, tick_cfg s, [], by simp⟩

/-- Settles O24: the tick, every block of SCAN and every instruction only grow. -/
theorem stickyStateStays : Obligations.StickyStateStays := by
  intro s t h
  have grows : Grows (fun _ => True) s t := by
    have any : ∀ e, EngineEvent e → True := fun _ _ => trivial
    obtain ⟨-, ⟨-, rfl⟩ | ⟨-, i, rest, run⟩ | ⟨-, rfl⟩⟩ := step_cases h
    · exact ((tick_grows s).trans (scanStep_block s.tick).grows).mono any
    · have g := (ran_of_exec run).grows
      exact ((tick_grows s).mono any).trans ⟨g.fault, g.cancel, g.cfg, g.trace⟩
    · exact (tick_grows s).mono any
  obtain ⟨events, trace, -⟩ := grows.trace
  exact ⟨grows.fault, grows.cancel, grows.cfg, events, trace⟩

/-- Settles O58: the events of every instruction but TRANSFER and of every block are EngineEvents. -/
theorem engineFramesAreTwoBytes : Obligations.EngineFramesAreTwoBytes := by
  intro s t h
  have grows : ∃ events, t.trace = s.trace ++ events ∧ ∀ e ∈ events, EngineEvent e := by
    obtain ⟨i, run, not_transfer⟩ | ⟨scanning, h⟩ := h
    · obtain ⟨u, r, g, rfl⟩ := (ran_of_exec run).keeps .refl (grows_operationOf s.cfg not_transfer)
      exact g.trace
    · obtain ⟨-, ⟨-, rfl⟩ | ⟨idle, -⟩ | ⟨idle, -⟩⟩ := step_cases h
      · exact ((tick_grows s).trans (scanStep_block s.tick).grows).trace
      · rw [scanning] at idle; cases idle
      · rw [scanning] at idle; cases idle
  obtain ⟨events, trace, kind⟩ := grows
  exact ⟨events, trace, fun tx rx he => kind _ he tx rx rfl⟩

end Sys2Proof.Machine
end

section

namespace Sys2Proof.Machine

/-! ### An operation that ends well stays outside FAULT, with the sequencer idle -/

/-- What ends well leaves `fault` as it was, and an idle sequencer idle (spec/10_state.md R26). -/
def EndsIdle {α : Type} (x : Op α) : Prop := ∀ (s t : State) (a : α), x s = .ok a t →
  t.fault = s.fault ∧ (s.pc = .idle → t.pc = .idle)

theorem idle_bind {α β : Type} {x : Op α} {f : α → Op β} (hx : EndsIdle x)
    (hf : ∀ a, EndsIdle (f a)) : EndsIdle (x >>= f) := by
  intro s t b h
  obtain ⟨a, u, first, second⟩ := bind_ok_iff.mp h
  obtain ⟨fault, idle⟩ := hx _ _ _ first
  obtain ⟨fault', idle'⟩ := hf a _ _ _ second
  exact ⟨fault'.trans fault, fun h => idle' (idle h)⟩

theorem idle_pure {α : Type} (a : α) : EndsIdle (pure a : Op α) := by
  intro s t b h
  cases h
  exact ⟨rfl, id⟩

theorem idle_current : EndsIdle current := by
  intro s t b h
  cases h
  exact ⟨rfl, id⟩

theorem idle_update {g : State → State} (h : ∀ s, (g s).fault = s.fault ∧ (g s).pc = s.pc) :
    EndsIdle (update g) := by
  intro s t b run
  cases run
  exact ⟨(h s).1, fun idle => (h s).2.trans idle⟩

theorem idle_ite {α : Type} {c : Prop} [Decidable c] {x y : Op α} (hx : EndsIdle x)
    (hy : EndsIdle y) : EndsIdle (if c then x else y) := by
  split <;> assumption

theorem idle_xfer (tx : List Byte) : EndsIdle (xfer tx) := by
  intro s t b h
  rcases xfer_cases tx s with ⟨_, _, -, run⟩ | ⟨_, -, run⟩ <;> rw [run] at h <;> cases h
  exact ⟨rfl, id⟩

theorem idle_writeReg (addr : Addr) (value : Byte) : EndsIdle (writeReg addr value) := by
  intro s t b h
  obtain ⟨-, _, _, -, rfl⟩ := writeReg_ok_iff.mp h
  exact ⟨rfl, id⟩

theorem idle_readReg (addr : Addr) : EndsIdle (readReg addr) := by
  intro s t b h
  obtain ⟨-, _, _, -, -, rfl⟩ := readReg_ok_iff.mp h
  exact ⟨rfl, id⟩

theorem idle_setBits (addr : Addr) (mask : Byte) : EndsIdle (setBits addr mask) :=
  idle_bind (idle_readReg _) fun _ => idle_writeReg _ _

theorem idle_clearBits (addr : Addr) (mask : Byte) : EndsIdle (clearBits addr mask) :=
  idle_bind (idle_readReg _) fun _ => idle_writeReg _ _

theorem idle_antennaOn : EndsIdle antennaOn :=
  idle_bind idle_current fun _ => idle_bind (idle_readReg _) fun _ =>
    idle_ite (idle_pure _) (idle_writeReg _ _)

theorem idle_writeAll (ws : List (Addr × Byte)) : EndsIdle (writeAll ws) := by
  induction ws with
  | nil => exact idle_pure _
  | cons w rest ih => exact idle_bind (idle_writeReg _ _) fun _ => ih

/-- A command ends with the sequencer idle, whatever phase it stood in (R173). -/
theorem idle_runCommand (c : Byte) : EndsIdle (runCommand c) := by
  intro s t b h
  obtain ⟨_, _, _, _, _, _, d⟩ := runCommand_done h
  exact ⟨d.fault, fun _ => d.pc⟩

theorem idle_toCard (c : Byte) (tx : List Byte) : EndsIdle (toCard c tx) :=
  idle_bind (idle_update fun _ => ⟨rfl, rfl⟩) fun _ => idle_runCommand c

theorem judgeRequest_keeps (s : State) :
    s.judgeRequest.fault = s.fault ∧ s.judgeRequest.pc = s.pc := by
  unfold State.judgeRequest
  split
  · exact ⟨rfl, rfl⟩
  · split <;> exact ⟨rfl, rfl⟩

theorem judgeAnticoll_keeps (s : State) :
    s.judgeAnticoll.fault = s.fault ∧ s.judgeAnticoll.pc = s.pc := by
  unfold State.judgeAnticoll
  split
  · split <;> exact ⟨rfl, rfl⟩
  · exact ⟨rfl, rfl⟩

theorem idle_request (mode : Byte) : EndsIdle (request mode) :=
  idle_bind (idle_update fun _ => ⟨rfl, rfl⟩) fun _ => idle_bind idle_current fun _ =>
    idle_bind (idle_writeReg _ _) fun _ => idle_bind (idle_toCard _ _) fun _ =>
      idle_bind (idle_update judgeRequest_keeps) fun _ => idle_bind idle_current fun _ => idle_pure _

theorem idle_anticoll : EndsIdle anticoll :=
  idle_bind (idle_update fun _ => ⟨rfl, rfl⟩) fun _ => idle_bind idle_current fun _ =>
    idle_bind (idle_writeReg _ _) fun _ => idle_bind (idle_toCard _ _) fun _ =>
      idle_bind (idle_update judgeAnticoll_keeps) fun _ => idle_bind idle_current fun _ => idle_pure _

theorem idle_cardBlock {s : State} {x : Op Status} {found : ScanState} (h : CardBlock s x found) :
    EndsIdle x := by
  cases h with
  | request => exact idle_request _
  | anticoll => exact idle_anticoll

theorem idle_commandResult : EndsIdle commandResult := idle_bind idle_current fun _ => idle_pure _

theorem idle_anticollResult (st : Status) : EndsIdle (anticollResult st) :=
  idle_bind idle_current fun _ => idle_pure _

theorem idle_openHandle : EndsIdle openHandle := by
  intro s t b h
  unfold openHandle at h
  split at h <;> cases h
  exact ⟨rfl, id⟩

/-- Every instruction that ends well leaves `fault` as it was, and an idle sequencer idle. -/
theorem idle_operationOf (p : Params) (i : Instr) : EndsIdle (operationOf p i) := by
  cases i with
  | spiWriteFrame | writeReg => exact idle_bind (idle_writeReg _ _) fun _ => idle_pure _
  | spiReadFrame | readReg => exact idle_bind (idle_readReg _) fun _ => idle_pure _
  | cmdIdle | cmdAuthent | cmdTransceive =>
    exact idle_bind (idle_runCommand _) fun _ => idle_commandResult
  | piccRequest | request => exact idle_bind (idle_request _) fun _ => idle_pure _
  | piccAnticoll | anticoll => exact idle_bind idle_anticoll fun _ => idle_anticollResult _
  | transfer => exact idle_bind (idle_xfer _) fun _ => idle_pure _
  | resetWrite | selectTag | shutdown | scan =>
    exact idle_bind (idle_update fun _ => ⟨rfl, rfl⟩) fun _ => idle_pure _
  | setBits => exact idle_bind (idle_setBits _ _) fun _ => idle_pure _
  | clearBits => exact idle_bind (idle_clearBits _ _) fun _ => idle_pure _
  | antennaOn => exact idle_bind idle_antennaOn fun _ => idle_pure _
  | toCard => exact idle_bind (idle_toCard _ _) fun _ => idle_commandResult
  | init =>
    exact idle_bind idle_openHandle fun _ => idle_bind (idle_update fun _ => ⟨rfl, rfl⟩) fun _ =>
      idle_bind idle_current fun _ => idle_bind (idle_writeAll _) fun _ =>
        idle_bind idle_antennaOn fun _ => idle_pure _

/-! ### The ranges of the registers through every operation -/

theorem ranges_antennaOn : Keeps KeepsRanges antennaOn :=
  ranges_bind ranges_current fun _ => ranges_bind (ranges_readReg _) fun _ =>
    ranges_ite (ranges_pure _) (ranges_writeReg _ _)

theorem ranges_writeAll (ws : List (Addr × Byte)) : Keeps KeepsRanges (writeAll ws) := by
  induction ws with
  | nil => exact ranges_pure _
  | cons w rest ih => exact ranges_bind (ranges_writeReg _ _) fun _ => ih

theorem ranges_judgeRequest (s : State) : KeepsRanges s s.judgeRequest := by
  unfold State.judgeRequest
  split
  · exact ranges_same rfl rfl rfl rfl rfl rfl
  · split <;> exact ranges_same rfl rfl rfl rfl rfl rfl

theorem ranges_judgeAnticoll (s : State) : KeepsRanges s s.judgeAnticoll := by
  unfold State.judgeAnticoll
  split
  · split <;> exact ranges_same rfl rfl rfl rfl rfl rfl
  · exact keepsRanges_refl s

theorem ranges_setCause (c : Cause) : Keeps KeepsRanges (update (·.setCause c)) :=
  fun _ => ranges_same rfl rfl rfl rfl rfl rfl

theorem ranges_request (mode : Byte) : Keeps KeepsRanges (request mode) :=
  ranges_bind (ranges_setCause _) fun _ => ranges_bind ranges_current fun _ =>
    ranges_bind (ranges_writeReg _ _) fun _ => ranges_bind (ranges_toCard _ _ (by simp)) fun _ =>
      ranges_bind (keeps_update ranges_judgeRequest) fun _ => ranges_bind ranges_current fun _ =>
        ranges_pure _

theorem ranges_anticoll : Keeps KeepsRanges anticoll :=
  ranges_bind (ranges_setCause _) fun _ => ranges_bind ranges_current fun _ =>
    ranges_bind (ranges_writeReg _ _) fun _ => ranges_bind (ranges_toCard _ _ (by simp)) fun _ =>
      ranges_bind (keeps_update ranges_judgeAnticoll) fun _ => ranges_bind ranges_current fun _ =>
        ranges_pure _

theorem ranges_cardBlock {s : State} {x : Op Status} {found : ScanState} (h : CardBlock s x found) :
    Keeps KeepsRanges x := by
  cases h with
  | request => exact ranges_request _
  | anticoll => exact ranges_anticoll

theorem ranges_commandResult : Keeps KeepsRanges commandResult :=
  ranges_bind ranges_current fun _ => ranges_pure _

theorem ranges_anticollResult (st : Status) : Keeps KeepsRanges (anticollResult st) :=
  ranges_bind ranges_current fun _ => ranges_pure _

/-- A TO_CARD that is not turned away has a buffer that fits (R151). -/
theorem fits_of_denialOf_none {s : State} {cmd : Byte} {tx : List Byte}
    (runs : denialOf s (.toCard cmd tx) = none) : tx.length ≤ 16 := by
  have admitted := admitted_of_denialOf_none runs (by simp)
  refine Nat.le_of_not_lt fun long => ?_
  rw [denialOf_long admitted long] at runs
  cases runs

/-- Register operations and commands keep the ranges. -/
theorem ranges_operationOf {s : State} {i : Instr} (runs : denialOf s i = none)
    (h : touchesRegister i = true ∨ runsCommand i = true) :
    Keeps KeepsRanges (operationOf s.cfg i) := by
  cases i with
  | spiWriteFrame | writeReg => exact ranges_bind (ranges_writeReg _ _) fun _ => ranges_pure _
  | spiReadFrame | readReg => exact ranges_bind (ranges_readReg _) fun _ => ranges_pure _
  | cmdIdle | cmdAuthent | cmdTransceive =>
    exact ranges_bind (ranges_runCommand _) fun _ => ranges_commandResult
  | piccRequest | request => exact ranges_bind (ranges_request _) fun _ => ranges_pure _
  | piccAnticoll | anticoll => exact ranges_bind ranges_anticoll fun _ => ranges_anticollResult _
  | setBits => exact ranges_bind (ranges_setBits _ _) fun _ => ranges_pure _
  | clearBits => exact ranges_bind (ranges_clearBits _ _) fun _ => ranges_pure _
  | antennaOn => exact ranges_bind ranges_antennaOn fun _ => ranges_pure _
  | toCard =>
    exact ranges_bind (ranges_toCard _ _ (fits_of_denialOf_none runs)) fun _ => ranges_commandResult
  | transfer | resetWrite | selectTag | init | shutdown | scan => exact h.elim nofun nofun

/-! ### The invariant under each kind of change -/

@[simp] theorem eventCount_append (e : Event) (x y : List Event) :
    eventCount e (x ++ y) = eventCount e x + eventCount e y := List.countP_append

theorem eventCount_eq_zero {e : Event} {events : List Event} (h : ∀ ev ∈ events, ev ≠ e) :
    eventCount e events = 0 := by
  rw [eventCount, List.countP_eq_zero]
  intro ev mem
  simpa using h ev mem

theorem eventCount_busOnly {e : Event} {events : List Event} (bus : BusOnly events)
    (other : ∀ tx rx, e ≠ .bus tx rx) : eventCount e events = 0 :=
  eventCount_eq_zero fun ev mem => by
    obtain ⟨tx, rx, rfl⟩ := bus ev mem
    exact (other tx rx).symm

section Invariant

variable {s t : State}

theorem State.Inv.ranges (h : s.Inv) : Ranges s :=
  ⟨h.cntBound, h.txLenBound, h.respLenBound, h.indexBound, h.drainBound, h.bitlenLow, h.bitlenHigh⟩

theorem State.Inv.withRet (h : s.Inv) (r : Ret) : (s.withRet r).Inv := { h with }

theorem State.Inv.withRequests (h : s.Inv) (rs : List Request) : (s.withRequests rs).Inv := { h with }

theorem State.Inv.tick (h : s.Inv) : s.tick.Inv := by
  rcases tick_cases s with ⟨-, e⟩ | ⟨-, e⟩ | ⟨_, -, e⟩ <;> rw [e]
  · exact h
  · exact { h with }
  · exact { h with }

theorem State.Inv.setScan (h : s.Inv) {c : ScanState} (going : c ≠ .shutdown) :
    (s.setScan c).Inv :=
  { h with scanningOpen := fun scanning =>
      have ⟨opened, outside, _⟩ := h.scanningOpen scanning
      ⟨opened, outside, going⟩ }

theorem State.Inv.sent (h : s.Inv) {events : List Event} (bus : BusOnly events) (e : Env) :
    (s.sent events e).Inv :=
  { h with
    opensAndCloses := by
      have balance := h.opensAndCloses
      rw [sent_trace, sent_isOpen, eventCount_append, eventCount_append,
        eventCount_busOnly bus (by simp), eventCount_busOnly bus (by simp)]
      exact balance }

/-- FAULT is entered with one of its causes, and ends a running SCAN. -/
theorem State.Inv.enterFault (h : s.Inv) (returns : s.stalled = false) {c : Cause}
    (cause : c = .transportError ∨ c = .resetLow) : (s.enterFault c).Inv :=
  { h with
    faultCause := fun _ => cause
    scanningOpen := nofun
    stalledScanning := fun stalled => by cases returns.symm.trans stalled
    phaseIdle := nofun }

/-- A stretch of the card protocol keeps the invariant if it keeps the ranges, enters FAULT by one of
its causes and else leaves the sequencer idle. -/
theorem State.Inv.of_protocolChange (h : s.Inv) (returns : s.stalled = false)
    (change : ProtocolChange s t) (ranges : Ranges t)
    (faulted : t.fault = true →
      t.scanning = false ∧ (t.cause = .transportError ∨ t.cause = .resetLow))
    (idle : t.fault = false → t.pc = .idle) : t.Inv where
  closedReleased closed := change.rst.trans (h.closedReleased (change.isOpen.symm.trans closed))
  openDriven opened := by
    have driven := h.openDriven (change.isOpen.symm.trans opened)
    rwa [← show t.rst = s.rst from change.rst] at driven
  faultCause fault := (faulted fault).2
  scanningOpen scanning := by
    cases fault : t.fault with
    | true => cases (faulted fault).1.symm.trans scanning
    | false =>
      have ⟨opened, _, going⟩ := h.scanningOpen ((change.scanning fault).symm.trans scanning)
      rw [← show t.scan = s.scan from change.scan] at going
      exact ⟨change.isOpen.trans opened, rfl, going⟩
  stalledScanning stalled := by cases returns.symm.trans (change.stalled.symm.trans stalled)
  phaseIdle := idle
  cntBound := ranges.cnt
  txLenBound := ranges.txLen
  respLenBound := ranges.respLen
  indexBound := ranges.index
  drainBound := ranges.drain
  bitlenLow := ranges.bitlenLow
  bitlenHigh := ranges.bitlenHigh
  opensAndCloses := by
    obtain ⟨events, bus, -, trace⟩ := change.events
    have balance := h.opensAndCloses
    rw [show t.trace = s.trace ++ events from trace, show t.isOpen = s.isOpen from change.isOpen,
      eventCount_append, eventCount_append, eventCount_busOnly bus (by simp),
      eventCount_busOnly bus (by simp)]
    exact balance

/-- The same of an operation, wherever it stops. -/
theorem State.Inv.of_operation {α : Type} {x : Op α} (h : s.Inv) (returns : s.stalled = false)
    (outside : s.fault = false) (change : Keeps ProtocolChange x) (ranges : Keeps KeepsRanges x)
    (stops : StopsInFault x) (ends : EndsIdle x) : (resultState (x s)).Inv := by
  have changed := change s
  have ranged := ranges s h.ranges
  cases run : x s with
  | ok a t =>
    rw [run] at changed ranged
    obtain ⟨fault, idle⟩ := ends _ _ _ run
    exact h.of_protocolChange returns changed ranged
      (fun entered => by cases (fault.trans outside).symm.trans entered)
      fun _ => idle (h.phaseIdle outside)
  | error halt t =>
    rw [run] at changed ranged
    obtain ⟨-, fault, scanning, cause⟩ := stops run
    exact h.of_protocolChange returns changed ranged (fun _ => ⟨scanning, cause⟩)
      fun left => by cases left.symm.trans fault

theorem PortEvent.ne {e : Event} (h : PortEvent e) : e ≠ .busOpen ∧ e ≠ .busClose := by
  constructor <;> rintro rfl <;> exact h

theorem State.Inv.of_portChange (h : s.Inv) (outside : s.fault = false) (change : PortChange s t) :
    t.Inv := by
  obtain ⟨events, e, c, kind, rfl⟩ := change
  refine { h with
    faultCause := fun fault => by cases outside.symm.trans fault
    opensAndCloses := ?_ }
  have balance := h.opensAndCloses
  simp only [eventCount_append, eventCount_eq_zero fun ev mem => (kind ev mem).ne.1,
    eventCount_eq_zero fun ev mem => (kind ev mem).ne.2]
  exact balance

/-- Closing an open handle balances its opening; SCAN must not run on it any more. -/
theorem State.Inv.closeHandle (h : s.Inv) (opened : s.isOpen = true) (idle : s.scanning = false)
    (returns : s.stalled = false) : s.closeHandle.Inv :=
  { h with
    closedReleased := fun _ => rfl
    openDriven := nofun
    scanningOpen := fun scanning => by cases idle.symm.trans scanning
    stalledScanning := fun stalled => by cases returns.symm.trans stalled
    opensAndCloses := by
      have balance := h.opensAndCloses
      rw [opened] at balance
      simp [State.closeHandle, eventCount] at balance ⊢
      exact balance }

/-- SCAN's end closes the handle it ran on. -/
theorem State.Inv.endScan (h : s.Inv) (scanning : s.scanning = true) (returns : s.stalled = false) :
    s.endScan.Inv := by
  have ⟨opened, _, _⟩ := h.scanningOpen scanning
  have balance := h.opensAndCloses
  rw [opened] at balance
  exact { h with
    closedReleased := fun _ => rfl
    openDriven := nofun
    scanningOpen := nofun
    stalledScanning := fun stalled => by cases returns.symm.trans stalled
    opensAndCloses := by
      simp [State.endScan, State.closeHandle, eventCount] at balance ⊢
      exact balance }

/-- The state INIT works in once it has opened the handle and raised the line (R282). -/
def State.opened (s : State) (e : Env) : State :=
  ((((s.withEnv e).setOpen true).emit .busOpen).setRst .high).emit (.rst true)

theorem State.Inv.opened (h : s.Inv) (closed : s.isOpen = false) (idle : s.scanning = false)
    (returns : s.stalled = false) (e : Env) : (s.opened e).Inv :=
  { h with
    closedReleased := nofun
    openDriven := fun _ => by simp [State.opened]
    scanningOpen := fun scanning => by cases idle.symm.trans scanning
    stalledScanning := fun stalled => by cases returns.symm.trans stalled
    opensAndCloses := by
      have balance := h.opensAndCloses
      rw [closed] at balance
      simp [State.opened, eventCount] at balance ⊢
      exact balance }

end Invariant

/-- What INIT does on its open handle (R282, R284). -/
def initProgramme (p : Params) : Op Ret := do
  writeAll p.initWrites
  antennaOn
  pure .nothing

theorem initSequence_opened {s : State} {e : Env} (h : s.env.nextOpen = (true, e)) :
    initSequence s = initProgramme s.cfg (s.opened e) := by
  have opens : openHandle s = .ok () (((s.withEnv e).setOpen true).emit .busOpen) := by
    rw [openHandle, h]
  rw [initSequence, bind_of_ok opens]
  rfl

theorem initSequence_closed {s : State} {e : Env} (h : s.env.nextOpen = (false, e)) :
    initSequence s = .error .fault ((s.withEnv e).enterFault .transportError) := by
  have fails : openHandle s = .error .fault ((s.withEnv e).enterFault .transportError) := by
    rw [openHandle, h]
  exact bind_of_error fails

theorem initProgramme_change (p : Params) : Keeps EngineChange (initProgramme p) :=
  change_bind (writeAll_change _) fun _ => change_bind antennaOn_change fun _ => change_pure _

theorem ranges_initProgramme (p : Params) : Keeps KeepsRanges (initProgramme p) :=
  ranges_bind (ranges_writeAll _) fun _ => ranges_bind ranges_antennaOn fun _ => ranges_pure _

theorem stops_initProgramme (p : Params) : StopsInFault (initProgramme p) :=
  stops_bind (stops_writeAll _) fun _ => stops_bind stops_antennaOn fun _ => stops_pure _

theorem idle_initProgramme (p : Params) : EndsIdle (initProgramme p) :=
  idle_bind (idle_writeAll _) fun _ => idle_bind idle_antennaOn fun _ => idle_pure _

/-! ### Every step keeps the invariant -/

/-- INIT keeps the invariant, whether its handles open or not. -/
theorem State.Inv.initSequence {s : State} (h : s.Inv) (returns : s.stalled = false)
    (idle : s.scanning = false) (outside : s.fault = false) (closed : s.isOpen = false) :
    (resultState (Machine.initSequence s)).Inv := by
  rcases opening : s.env.nextOpen with ⟨ok, e⟩
  cases ok with
  | true =>
    rw [initSequence_opened opening]
    exact (h.opened closed idle returns e).of_operation returns outside
      (protocol_of_change (initProgramme_change _)) (ranges_initProgramme _) (stops_initProgramme _)
      (idle_initProgramme _)
  | false =>
    rw [initSequence_closed opening]
    exact State.Inv.enterFault (s := s.withEnv e) { h with } returns (.inl rfl)

/-- Every operation of an instruction keeps the invariant, with no SCAN running. -/
theorem State.Inv.operationOf {s : State} {i : Instr} (h : s.Inv) (returns : s.stalled = false)
    (idle : s.scanning = false) (runs : denialOf s i = none) :
    (resultState (Machine.operationOf s.cfg i s)).Inv := by
  have outside := fault_of_denialOf_none runs
  by_cases engine : touchesRegister i = true ∨ runsCommand i = true
  · exact h.of_operation returns outside (protocol_operationOf _ engine)
      (ranges_operationOf runs engine) (stops_operationOf _ i) (idle_operationOf _ i)
  · cases i with
    | transfer bytes =>
      rcases xfer_cases bytes s with ⟨rx, e, -, run⟩ | ⟨e, -, run⟩
      · rw [Machine.operationOf, bind_of_ok run]
        exact h.sent (events := [.bus bytes rx]) (by simp) e
      · rw [Machine.operationOf, bind_of_error run]
        exact State.Inv.enterFault (s := s.withEnv e) { h with } returns (.inl rfl)
    | init => exact h.initSequence returns idle outside (initAdmission_none.mp runs).2
    | resetWrite level =>
      obtain ⟨-, opened⟩ := admitted_of_denialOf_none runs (by simp)
      exact { h with
        closedReleased := fun closed => by cases opened.symm.trans closed
        openDriven := fun _ => by cases level <;> exact nofun
        opensAndCloses := by
          have balance := h.opensAndCloses
          simpa [Machine.operationOf, resetLine, eventCount] using balance }
    | selectTag uid => exact { h with faultCause := fun fault => by cases outside.symm.trans fault }
    | shutdown =>
      obtain ⟨-, opened⟩ := admitted_of_denialOf_none runs (by simp)
      exact h.closeHandle opened idle returns
    | scan =>
      have ⟨_, opened⟩ := admitted_of_denialOf_none runs (by simp)
      exact { h with
        scanningOpen := fun _ => ⟨opened, outside, nofun⟩
        stalledScanning := fun stalled => by cases returns.symm.trans stalled }
    | spiWriteFrame | spiReadFrame | writeReg | readReg | setBits | clearBits | antennaOn =>
      exact absurd (.inl rfl) engine
    | cmdIdle | cmdAuthent | cmdTransceive | piccRequest | piccAnticoll | toCard | request
    | anticoll =>
      exact absurd (.inr rfl) engine

/-- Every instruction keeps the invariant, with no SCAN running. -/
theorem State.Inv.of_ran {i : Instr} {s t : State} (h : s.Inv) (returns : s.stalled = false)
    (idle : s.scanning = false) (ran : Ran i s t) : t.Inv := by
  cases ran with
  | denied why => exact h.withRet _
  | done r u runs run =>
    have kept := h.operationOf returns idle runs
    rw [run] at kept
    exact kept.withRet r
  | faulted u runs run =>
    have kept := h.operationOf returns idle runs
    rw [run] at kept
    exact kept.withRet _

/-- Every block of a running SCAN keeps the invariant. -/
theorem State.Inv.of_block {s t : State} (h : s.Inv) (returns : s.stalled = false)
    (scanning : s.scanning = true) (block : Block s t) : t.Inv := by
  have ⟨_, outside, _⟩ := h.scanningOpen scanning
  cases block with
  | ended => exact h.endScan scanning returns
  | card x found kind st u run =>
    have kept := h.of_operation returns outside (protocol_cardBlock kind) (ranges_cardBlock kind)
      (stops_cardBlock kind) (idle_cardBlock kind)
    rw [run] at kept
    refine State.Inv.setScan kept ?_
    cases kind <;> split <;> simp
  | faulted x found kind u run =>
    have kept := h.of_operation returns outside (protocol_cardBlock kind) (ranges_cardBlock kind)
      (stops_cardBlock kind) (idle_cardBlock kind)
    rw [run] at kept
    exact State.Inv.withRet kept _
  | port c kind u change =>
    refine (h.of_portChange outside change).setScan ?_
    cases kind <;> simp
  | hung c kind u change =>
    have kept := h.of_portChange outside change
    obtain ⟨events, e, cause, -, rfl⟩ := change
    exact { kept with stalledScanning := fun _ => scanning }

/-- Settles O59: a step is a block of SCAN, an instruction with no SCAN running, or the tick alone,
and each keeps the invariant. -/
theorem everyStepKeepsInvariant : Obligations.EveryStepKeepsInvariant := by
  intro s t h run
  obtain ⟨returns, ⟨scanning, rfl⟩ | ⟨idle, i, rest, run⟩ | ⟨-, rfl⟩⟩ := step_cases run
  · exact h.tick.of_block ((tick_stalled s).trans returns) ((tick_scanning s).trans scanning)
      (scanStep_block s.tick)
  · exact (h.tick.withRequests rest).of_ran ((tick_stalled s).trans returns)
      ((tick_scanning s).trans idle) (ran_of_exec run)
  · exact h.tick

end Sys2Proof.Machine
end

section

namespace Sys2Proof.Machine

/-! ### Operations that only send: exchanges, then perhaps FAULT -/

@[simp] theorem sent_nil (s : State) (e : Env) : s.sent [] e = s.withEnv e := by
  simp [State.sent, State.withEnv]

/-- An environment that differs in the answers to exchanges alone. -/
def SamePorts (e f : Env) : Prop := f.opens = e.opens ∧ f.auths = e.auths ∧ f.calls = e.calls

theorem samePorts_exchange {e f : Env} {tx : List Byte} {o : Option (List Byte)}
    (h : e.exchange tx = (o, f)) : SamePorts e f := by
  have ports := exchange_ports e tx
  rw [h] at ports
  exact ports

theorem SamePorts.trans {e f g : Env} (a : SamePorts e f) (b : SamePorts f g) : SamePorts e g :=
  ⟨b.1.trans a.1, b.2.1.trans a.2.1, b.2.2.trans a.2.2⟩

/-- An operation that makes exchanges and changes nothing else, unless it enters FAULT after them. -/
def SendsOnly {α : Type} (x : Op α) : Prop := ∀ s, ∃ events e, BusOnly events ∧ SamePorts s.env e ∧
  ((∃ a, x s = .ok a (s.sent events e)) ∨
    ∃ c, x s = .error .fault ((s.sent events e).enterFault c))

theorem sends_bind {α β : Type} {x : Op α} {f : α → Op β} (hx : SendsOnly x)
    (hf : ∀ a, SendsOnly (f a)) : SendsOnly (x >>= f) := by
  intro s
  obtain ⟨events, e, bus, ports, ⟨a, run⟩ | ⟨c, run⟩⟩ := hx s
  · obtain ⟨more, e', bus', ports', rest⟩ := hf a (s.sent events e)
    refine ⟨events ++ more, e', (busOnly_append _ _).mpr ⟨bus, bus'⟩, ports.trans ports', ?_⟩
    rwa [bind_of_ok run, ← sent_sent s events more e e']
  · exact ⟨events, e, bus, ports, .inr ⟨c, bind_of_error run⟩⟩

theorem sends_pure {α : Type} (a : α) : SendsOnly (pure a : Op α) := fun s =>
  ⟨[], s.env, busOnly_nil, ⟨rfl, rfl, rfl⟩, .inl ⟨a, by simp [State.withEnv]⟩⟩

theorem sends_current : SendsOnly current := fun s =>
  ⟨[], s.env, busOnly_nil, ⟨rfl, rfl, rfl⟩, .inl ⟨s, by simp [State.withEnv]⟩⟩

theorem sends_ite {α : Type} {c : Prop} [Decidable c] {x y : Op α} (hx : SendsOnly x)
    (hy : SendsOnly y) : SendsOnly (if c then x else y) := by
  split <;> assumption

theorem sends_xfer (tx : List Byte) : SendsOnly (xfer tx) := by
  intro s
  rcases xfer_cases tx s with ⟨rx, e, answer, run⟩ | ⟨e, answer, run⟩
  · exact ⟨[.bus tx rx], e, by simp, samePorts_exchange answer, .inl ⟨rx, run⟩⟩
  · exact ⟨[], e, by simp, samePorts_exchange answer, .inr ⟨.transportError, by rw [run, sent_nil]⟩⟩

theorem sends_registerXfer (tx : List Byte) : SendsOnly (registerXfer tx) := by
  intro s
  by_cases high : s.rst = .high
  · rw [registerXfer_high high]
    exact sends_xfer tx s
  · exact ⟨[], s.env, by simp, ⟨rfl, rfl, rfl⟩, .inr ⟨.resetLow, by
      rw [registerXfer_low high, sent_nil]
      rfl⟩⟩

theorem sends_writeReg (addr : Addr) (value : Byte) : SendsOnly (writeReg addr value) :=
  sends_bind (sends_registerXfer _) fun _ => sends_pure _

theorem sends_readReg (addr : Addr) : SendsOnly (readReg addr) :=
  sends_bind (sends_registerXfer _) fun _ => sends_pure _

theorem sends_setBits (addr : Addr) (mask : Byte) : SendsOnly (setBits addr mask) :=
  sends_bind (sends_readReg _) fun _ => sends_writeReg _ _

theorem sends_clearBits (addr : Addr) (mask : Byte) : SendsOnly (clearBits addr mask) :=
  sends_bind (sends_readReg _) fun _ => sends_writeReg _ _

theorem sends_antennaOn : SendsOnly antennaOn :=
  sends_bind sends_current fun _ => sends_bind (sends_readReg _) fun _ =>
    sends_ite (sends_pure _) (sends_writeReg _ _)

theorem sends_writeAll (ws : List (Addr × Byte)) : SendsOnly (writeAll ws) := by
  induction ws with
  | nil => exact sends_pure _
  | cons w rest ih => exact sends_bind (sends_writeReg _ _) fun _ => ih

/-- The register operations, the bus frames and TRANSFER only send. -/
theorem sends_operationOf (p : Params) {i : Instr}
    (h : touchesRegister i = true ∨ ∃ bytes, i = .transfer bytes) : SendsOnly (operationOf p i) := by
  rcases h with h | ⟨bytes, rfl⟩
  · cases i with
    | spiWriteFrame | writeReg => exact sends_bind (sends_writeReg _ _) fun _ => sends_pure _
    | spiReadFrame | readReg => exact sends_bind (sends_readReg _) fun _ => sends_pure _
    | setBits => exact sends_bind (sends_setBits _ _) fun _ => sends_pure _
    | clearBits => exact sends_bind (sends_clearBits _ _) fun _ => sends_pure _
    | antennaOn => exact sends_bind sends_antennaOn fun _ => sends_pure _
    | _ => cases h
  · exact sends_bind (sends_xfer _) fun _ => sends_pure _

/-- Settles O56: such an operation leaves the state it sent from, or that state in FAULT. -/
theorem registerOperationsFrame : Obligations.RegisterOperationsFrame := by
  intro s t i h kind
  have sends := sends_operationOf s.cfg kind s
  cases ran_of_exec h with
  | denied why =>
    exact ⟨[], s.env, busOnly_nil, rfl, rfl, rfl, by simp [State.withRet],
      fun _ => ⟨rfl, rfl, rfl, rfl, rfl, rfl⟩⟩
  | done r u runs run =>
    obtain ⟨events, e, bus, ⟨opens, auths, calls⟩, ⟨a, sent⟩ | ⟨c, stopped⟩⟩ := sends
    · cases run.symm.trans sent
      exact ⟨events, e, bus, opens, auths, calls, rfl, fun _ => ⟨rfl, rfl, rfl, rfl, rfl, rfl⟩⟩
    · cases run.symm.trans stopped
  | faulted u runs run =>
    obtain ⟨events, e, bus, ⟨opens, auths, calls⟩, ⟨a, sent⟩ | ⟨c, stopped⟩⟩ := sends
    · cases run.symm.trans sent
    · cases run.symm.trans stopped
      refine ⟨events, e, bus, opens, auths, calls, rfl, fun same => ?_⟩
      cases (fault_of_denialOf_none runs).symm.trans same.symm

/-! ### Admitted operations, one equation each -/

/-- An admitted engine that enters FAULT after these exchanges. -/
theorem faultedAfter_enterFault (s : State) (events : List Event) (e : Env) (c : Cause) :
    FaultedAfter s (((s.sent events e).enterFault c).withRet (.faulted c)) c events :=
  ⟨rfl, rfl, rfl, rfl, rfl, rfl, rfl, rfl, rfl, rfl⟩

theorem faultedAfter_withEnv (s : State) (e : Env) (c : Cause) :
    FaultedAfter s (((s.withEnv e).enterFault c).withRet (.faulted c)) c [] := by
  rw [← sent_nil]
  exact faultedAfter_enterFault s [] e c

section Admitted

variable {s : State} {i : Instr} {r : Ret} {t : State}

/-- An admitted instruction whose operation ends well. -/
theorem exec_of_ok (runs : denialOf s i = none) (run : operationOf s.cfg i s = .ok r t) :
    exec i s = .next (t.withRet r) := by
  rw [exec_of_run runs, run, settle_ok]

/-- An admitted instruction whose operation stops. -/
theorem exec_of_error (runs : denialOf s i = none)
    (run : operationOf s.cfg i s = .error .fault t) :
    exec i s = .next (t.withRet (.faulted t.cause)) := by
  rw [exec_of_run runs, run, settle_fault]

/-- An admitted instruction whose failed exchange comes after these events. -/
theorem exec_transportError {events : List Event} {e : Env} (runs : denialOf s i = none)
    (run : operationOf s.cfg i s = .error .fault ((s.sent events e).enterFault .transportError)) :
    ∃ t, exec i s = .next t ∧ FaultedAfter s t .transportError events ∧ t.env = e :=
  ⟨_, exec_of_error runs run, faultedAfter_enterFault s events e .transportError, rfl⟩

/-- An admitted instruction that meets a reset line not high. -/
theorem exec_resetLow (runs : denialOf s i = none)
    (run : operationOf s.cfg i s = .error .fault (s.enterFault .resetLow)) :
    ∃ t, exec i s = .next t ∧ FaultedAfter s t .resetLow [] ∧ t.env = s.env :=
  ⟨_, exec_of_error runs run, faultedAfter_withEnv s s.env .resetLow, rfl⟩

end Admitted

/-- Settles O12: the two cases of an exchange. -/
theorem transferExchangesBytes : Obligations.TransferExchangesBytes := by
  intro s bytes admitted
  have runs : denialOf s (.transfer bytes) = none := admission_none.mpr admitted
  refine ⟨fun rx e answer => ⟨exchange_length answer, ?_⟩, fun e answer => ?_⟩
  · have sent : xfer bytes s = .ok rx ((s.withEnv e).emit (.bus bytes rx)) := by rw [xfer, answer]
    exact exec_of_ok runs (by rw [operationOf, bind_of_ok sent]; rfl)
  · have failed : xfer bytes s = .error .fault ((s.withEnv e).enterFault .transportError) := by
      rw [xfer, answer]
    exact exec_transportError runs (by rw [operationOf, bind_of_error failed, sent_nil])

section RegisterAccess

variable {s : State} {addr : Addr} {rx : List Byte} {e : Env}

/-- A read and a write of what `f` makes of it, when both exchanges are answered. -/
theorem readWrite_ok {f : Byte → Byte} {w : List Byte} {e' : Env} (high : s.rst = .high)
    (read : s.env.exchange (readFrame addr) = (some rx, e))
    (write : e.exchange (writeFrame addr (f (secondByte rx))) = (some w, e')) :
    (readReg addr >>= fun v => writeReg addr (f v)) s =
      .ok () (s.sent [.bus (readFrame addr) rx, .bus (writeFrame addr (f (secondByte rx))) w] e') :=
  readWrite_ok_iff.mpr ⟨high, rx, e, w, e', read, write, rfl⟩

/-- The same when the write's exchange fails: the read stands. -/
theorem readWrite_fail {f : Byte → Byte} {e' : Env} (high : s.rst = .high)
    (read : s.env.exchange (readFrame addr) = (some rx, e))
    (write : e.exchange (writeFrame addr (f (secondByte rx))) = (none, e')) :
    (readReg addr >>= fun v => writeReg addr (f v)) s =
      .error .fault ((s.sent [.bus (readFrame addr) rx] e').enterFault .transportError) := by
  rw [bind_of_ok (readReg_ok high read)]
  exact writeReg_fail high write

theorem readReg_failed (high : s.rst = .high)
    (read : s.env.exchange (readFrame addr) = (none, e)) :
    readReg addr s = .error .fault ((s.sent [] e).enterFault .transportError) := by
  rw [readReg_fail high read, sent_nil]

theorem writeReg_failed {value : Byte} (high : s.rst = .high)
    (write : s.env.exchange (writeFrame addr value) = (none, e)) :
    writeReg addr value s = .error .fault ((s.sent [] e).enterFault .transportError) := by
  rw [writeReg_fail high write, sent_nil]

end RegisterAccess

/-- Settles O14: the three cases of a register write. -/
theorem writeRegSendsItsFrame : Obligations.WriteRegSendsItsFrame := by
  intro s addr value admitted
  have runs : denialOf s (.writeReg addr value) = none := admission_none.mpr admitted
  refine ⟨fun rx e high answer => ?_, fun e high answer => ?_, fun low => ?_⟩
  · exact exec_of_ok runs (by rw [operationOf, bind_of_ok (writeReg_ok high answer)]; rfl)
  · exact exec_transportError runs (bind_of_error (writeReg_failed high answer))
  · exact exec_resetLow runs (bind_of_error (writeReg_low addr value low))

/-- Settles O15: the three cases of a register read. -/
theorem readRegReturnsSecondByte : Obligations.ReadRegReturnsSecondByte := by
  intro s addr admitted
  have runs : denialOf s (.readReg addr) = none := admission_none.mpr admitted
  refine ⟨fun r0 r1 e high answer => ?_, fun e high answer => ?_, fun low => ?_⟩
  · exact exec_of_ok runs (by rw [operationOf, bind_of_ok (readReg_ok high answer)]; rfl)
  · exact exec_transportError runs (bind_of_error (readReg_failed high answer))
  · exact exec_resetLow runs (bind_of_error (readReg_low addr low))

/-- Settles O16: SET_BITS is a read and a write of the OR, each with its cases. -/
theorem setBitsReadsThenWrites : Obligations.SetBitsReadsThenWrites := by
  intro s addr mask admitted
  have runs : denialOf s (.setBits addr mask) = none := admission_none.mpr admitted
  refine ⟨fun r0 v rx e e' high read write => ?_, fun e high read => ?_,
    fun r0 v e e' high read write => ?_, fun low => ?_⟩
  · exact exec_of_ok runs (bind_of_ok (readWrite_ok high read write))
  · obtain ⟨t, ends, faulted, -⟩ := exec_transportError runs
      (bind_of_error (bind_of_error (readReg_failed high read)))
    exact ⟨t, ends, faulted⟩
  · obtain ⟨t, ends, faulted, -⟩ := exec_transportError runs
      (bind_of_error (readWrite_fail (f := (orMask · mask)) high read write))
    exact ⟨t, ends, faulted⟩
  · obtain ⟨t, ends, faulted, -⟩ := exec_resetLow runs
      (bind_of_error (bind_of_error (readReg_low addr low)))
    exact ⟨t, ends, faulted⟩

/-- Settles O17: CLEAR_BITS is a read and a write of the AND-NOT, each with its cases. -/
theorem clearBitsReadsThenWrites : Obligations.ClearBitsReadsThenWrites := by
  rintro s addr mask ⟨outside, opened, high⟩
  have runs : denialOf s (.clearBits addr mask) = none := admission_none.mpr ⟨outside, opened⟩
  refine ⟨fun r0 v rx e e' read write => ?_, fun e read => ?_, fun r0 v e e' read write => ?_⟩
  · exact exec_of_ok runs (bind_of_ok (readWrite_ok high read write))
  · obtain ⟨t, ends, faulted, -⟩ := exec_transportError runs
      (bind_of_error (bind_of_error (readReg_failed high read)))
    exact ⟨t, ends, faulted⟩
  · obtain ⟨t, ends, faulted, -⟩ := exec_transportError runs
      (bind_of_error (readWrite_fail (f := (andNotMask · mask)) high read write))
    exact ⟨t, ends, faulted⟩

/-- The antenna's two bits read as set exactly when the masked value is the mask (R134). -/
theorem antennaIsOn_iff (v : Byte) : antennaIsOn v = true ↔ v &&& 0x03 = 0x03 := beq_iff_eq

section Antenna

variable {s : State} {r0 v : Byte} {e : Env} (high : s.rst = .high)
  (read : s.env.exchange (readFrame s.cfg.aTxControl) = (some [r0, v], e))

include high read

/-- ANTENNA_ON that finds both bits set writes nothing. -/
theorem antennaOn_of_set (set : v &&& 0x03 = 0x03) :
    antennaOn s = .ok () (s.sent [.bus (readFrame s.cfg.aTxControl) [r0, v]] e) := by
  rw [antennaOn, bind_current, bind_of_ok (readReg_ok high read)]
  exact congrFun (if_pos ((antennaIsOn_iff v).mpr set)) _

/-- ANTENNA_ON that finds one of them clear goes on to the write. -/
theorem antennaOn_of_clear (clear : v &&& 0x03 ≠ 0x03) :
    antennaOn s = writeReg s.cfg.aTxControl (v ||| 0x03)
      (s.sent [.bus (readFrame s.cfg.aTxControl) [r0, v]] e) := by
  rw [antennaOn, bind_current, bind_of_ok (readReg_ok high read)]
  exact congrFun (if_neg (mt (antennaIsOn_iff v).mp clear)) _

end Antenna

/-- Settles O18: the antenna's register read decides between nothing and one write. -/
theorem antennaOnWritesOnlyIfNeeded : Obligations.AntennaOnWritesOnlyIfNeeded := by
  rintro s r0 v e ⟨outside, opened, high⟩ read
  have runs : denialOf s .antennaOn = none := admission_none.mpr ⟨outside, opened⟩
  refine ⟨fun set => ?_, fun rx e' clear write => ?_⟩
  · exact exec_of_ok runs (bind_of_ok (antennaOn_of_set high read set))
  · have written := antennaOn_of_clear high read clear
    rw [writeReg_ok (s := s.sent _ e) high write, emit_bus_sent, sent_sent] at written
    exact exec_of_ok runs (bind_of_ok written)

/-- Settles O19: the frame rows run the register write and the register read. -/
theorem spiFramesRunAsTransactions : Obligations.SpiFramesRunAsTransactions := by
  rintro s addr value ⟨outside, opened, high⟩
  have admitted : s.admission = none := admission_none.mpr ⟨outside, opened⟩
  refine ⟨fun rx e answer => ?_, fun r0 r1 e answer => ?_⟩
  · exact exec_of_ok (i := .spiWriteFrame addr value) admitted (bind_of_ok (writeReg_ok high answer))
  · exact exec_of_ok (i := .spiReadFrame addr) admitted (bind_of_ok (readReg_ok high answer))

/-- Settles O13: the line is driven whatever it was; low, it stops both register transactions. -/
theorem resetWriteDrivesLine : Obligations.ResetWriteDrivesLine := by
  intro s level
  refine ⟨fun admitted => ?_, fun refused => ?_, fun t addr value admitted low => ?_⟩
  · exact exec_of_ok (i := .resetWrite level) (admission_none.mpr admitted) rfl
  · cases denial : denialOf s (.resetWrite level) with
    | none => exact absurd (admitted_of_denialOf_none denial (by simp)) refused
    | some why => exact ⟨why, exec_of_denial denial⟩
  · obtain ⟨admitted', not_high⟩ : t.Admitted ∧ t.rst ≠ .high := by
      cases low.symm.trans (exec_of_ok (i := .resetWrite false) (admission_none.mpr admitted) rfl)
      exact ⟨admitted, nofun⟩
    obtain ⟨u, run, faulted, -⟩ := exec_resetLow (i := .writeReg addr value)
      (admission_none.mpr admitted') (bind_of_error (writeReg_low addr value not_high))
    obtain ⟨v, run', faulted', -⟩ := exec_resetLow (i := .readReg addr)
      (admission_none.mpr admitted') (bind_of_error (readReg_low addr not_high))
    exact ⟨u, v, run, faulted.trace.trans (List.append_nil _), faulted.fault, run',
      faulted'.trace.trans (List.append_nil _), faulted'.fault⟩

/-- Settles O41: SELECT_TAG's operation is one update of status and cause. -/
theorem selectTagAlwaysSucceeds : Obligations.SelectTagAlwaysSucceeds := fun _ uid admitted =>
  exec_of_ok (i := .selectTag uid) (admission_none.mpr admitted) rfl

/-- Settles O45: SHUTDOWN's operation closes the handle, its two events in that order. -/
theorem shutdownClosesThenReleases : Obligations.ShutdownClosesThenReleases := by
  intro s admitted
  rw [exec_of_ok (i := .shutdown) (admission_none.mpr admitted) rfl]
  simp [State.closeHandle, State.setOpen, State.emit, State.setRst, State.withRet]

/-- Settles O46: SCAN's operation sets the scan state and lets the loop run. -/
theorem scanEntersTheLoop : Obligations.ScanEntersTheLoop := fun _ admitted =>
  exec_of_ok (i := .scan) (admission_none.mpr admitted) rfl

end Sys2Proof.Machine
end

section

namespace Sys2Proof.Machine

/-! ### Operations that begin with a register transaction -/

/-- A state that an operation reaches before it sends anything. -/
structure Quiet (s u : State) : Prop where
  change : EngineChange s u
  fault : u.fault = s.fault
  trace : u.trace = s.trace
  env : u.env = s.env

theorem Quiet.refl (s : State) : Quiet s s := ⟨.refl s, rfl, rfl, rfl⟩

theorem Quiet.trans {s t u : State} (a : Quiet s t) (b : Quiet t u) : Quiet s u :=
  ⟨a.change.trans b.change, b.fault.trans a.fault, b.trace.trans a.trace, b.env.trans a.env⟩

/-- An operation whose first effect outside the working registers is a register transaction. -/
def StartsOnBus {α : Type} (x : Op α) : Prop := ∀ s, ∃ u tx, ∃ f : List Byte → Op α,
  Quiet s u ∧ x s = (registerXfer tx >>= f) u

theorem starts_registerXfer {α : Type} (tx : List Byte) (f : List Byte → Op α) :
    StartsOnBus (registerXfer tx >>= f) := fun s => ⟨s, tx, f, .refl s, rfl⟩

theorem starts_bind {α β : Type} {x : Op α} (f : α → Op β) (hx : StartsOnBus x) :
    StartsOnBus (x >>= f) := by
  intro s
  obtain ⟨u, tx, g, quiet, run⟩ := hx s
  refine ⟨u, tx, fun rx => g rx >>= f, quiet, ?_⟩
  rw [← bind_assoc, bind_run, run, ← bind_run]

theorem starts_update {α : Type} {g : State → State} {f : Unit → Op α} (quiet : ∀ s, Quiet s (g s))
    (hf : StartsOnBus (f ())) : StartsOnBus (update g >>= f) := by
  intro s
  obtain ⟨u, tx, k, quiet', run⟩ := hf (g s)
  exact ⟨u, tx, k, (quiet s).trans quiet', run⟩

theorem starts_current {α : Type} {f : State → Op α} (h : ∀ s, StartsOnBus (f s)) :
    StartsOnBus (current >>= f) := fun s => h s s

theorem starts_writeReg (addr : Addr) (value : Byte) : StartsOnBus (writeReg addr value) :=
  starts_registerXfer _ _

theorem starts_readReg (addr : Addr) : StartsOnBus (readReg addr) := starts_registerXfer _ _

theorem quiet_setPhase (p : Phase) (s : State) : Quiet s (s.setPhase p) :=
  ⟨setPhase_change p s, rfl, rfl, rfl⟩

theorem quiet_setCause (c : Cause) (s : State) : Quiet s (s.setCause c) :=
  ⟨setCause_change c s, rfl, rfl, rfl⟩

theorem quiet_beginCommand (c : Byte) (s : State) : Quiet s (s.beginCommand c) :=
  ⟨by apply EngineChange.of_registers <;> rfl, rfl, rfl, rfl⟩

theorem quiet_loadTx (tx : List Byte) (s : State) : Quiet s (s.loadTx tx) :=
  ⟨by apply EngineChange.of_registers <;> rfl, rfl, rfl, rfl⟩

/-- A command begins with the write of the interrupt-enable register (R154). -/
theorem starts_runCommand (c : Byte) : StartsOnBus (runCommand c) :=
  starts_update (quiet_beginCommand c) <| starts_bind _ <| starts_update (quiet_setPhase _) <|
    starts_current fun _ => starts_bind _ (starts_writeReg _ _)

theorem starts_toCard (c : Byte) (tx : List Byte) : StartsOnBus (toCard c tx) :=
  starts_update (quiet_loadTx tx) (starts_runCommand c)

/-- REQUEST and ANTICOLL begin with the write of the bit-framing register (R190, R192). -/
theorem starts_request (mode : Byte) : StartsOnBus (request mode) :=
  starts_update (quiet_setCause _) <| starts_current fun _ => starts_bind _ (starts_writeReg _ _)

theorem starts_anticoll : StartsOnBus anticoll :=
  starts_update (quiet_setCause _) <| starts_current fun _ => starts_bind _ (starts_writeReg _ _)

theorem starts_operationOf (p : Params) {i : Instr}
    (h : touchesRegister i = true ∨ runsCommand i = true) : StartsOnBus (operationOf p i) := by
  cases i with
  | spiWriteFrame | writeReg => exact starts_bind _ (starts_writeReg _ _)
  | spiReadFrame | readReg => exact starts_bind _ (starts_readReg _)
  | setBits | clearBits => exact starts_bind _ (starts_bind _ (starts_readReg _))
  | antennaOn => exact starts_bind _ (starts_current fun _ => starts_bind _ (starts_readReg _))
  | cmdIdle | cmdAuthent | cmdTransceive => exact starts_bind _ (starts_runCommand _)
  | toCard => exact starts_bind _ (starts_toCard _ _)
  | piccRequest | request => exact starts_bind _ (starts_request _)
  | piccAnticoll | anticoll => exact starts_bind _ starts_anticoll
  | transfer | resetWrite | selectTag | init | shutdown | scan => exact h.elim nofun nofun

/-- No register operation and no command is INIT. -/
theorem ne_init {i : Instr} (h : touchesRegister i = true ∨ runsCommand i = true) : i ≠ .init := by
  rintro rfl
  exact h.elim nofun nofun

/-- With the line not high, what begins with a register transaction enters FAULT at once. -/
theorem StartsOnBus.resetLow {α : Type} {x : Op α} (h : StartsOnBus x) {s : State}
    (low : s.rst ≠ .high) : ∃ u, Quiet s u ∧ x s = .error .fault (u.enterFault .resetLow) := by
  obtain ⟨u, tx, f, quiet, run⟩ := h s
  refine ⟨u, quiet, run.trans (bind_of_error (registerXfer_low ?_ tx))⟩
  rwa [quiet.change.rst]

/-- With the first exchange failing, it enters FAULT at once. -/
theorem StartsOnBus.transportError {α : Type} {x : Op α} (h : StartsOnBus x) {s : State}
    {rest : List (Option (List Byte))} (high : s.rst = .high)
    (bus : s.env.bus = .oracle (none :: rest)) : ∃ u, Quiet s u ∧
      x s = .error .fault
        ((u.withEnv { s.env with bus := .oracle rest }).enterFault .transportError) := by
  obtain ⟨u, tx, f, quiet, run⟩ := h s
  have fails : u.env.exchange tx = (none, { s.env with bus := .oracle rest }) := by
    rw [quiet.env]
    simp [Env.exchange, bus]
  have stops : xfer tx u = .error .fault
      ((u.withEnv { s.env with bus := .oracle rest }).enterFault .transportError) := by
    rw [xfer, fails]
  exact ⟨u, quiet, run.trans (bind_of_error
    ((registerXfer_high (quiet.change.rst.trans high) tx).trans stops))⟩

/-- Settles O20: each of these instructions begins with a register transaction. -/
theorem registerAccessNeedsResetHigh : Obligations.RegisterAccessNeedsResetHigh := by
  intro s i admitted low wf kind
  obtain ⟨u, quiet, run⟩ := (starts_operationOf s.cfg kind).resetLow low
  exact ⟨_, exec_of_error (denialOf_admitted admitted (ne_init kind) wf) run, rfl, rfl, rfl,
    quiet.trace, quiet.env⟩

/-! ### How FAULT is entered -/

/-- An instruction that enters FAULT was running, and its operation stopped. -/
theorem Ran.of_fault {i : Instr} {s t : State} (ran : Ran i s t) (outside : s.fault = false)
    (fault : t.fault = true) : ∃ u, operationOf s.cfg i s = .error .fault u ∧ u.scanning = false ∧
      (u.cause = .transportError ∨ u.cause = .resetLow) ∧ t = u.withRet (.faulted u.cause) := by
  cases ran with
  | denied why => cases outside.symm.trans fault
  | done r u runs run =>
    cases ((idle_operationOf s.cfg i _ _ _ run).1.trans outside).symm.trans fault
  | faulted u runs run _ scanning cause => exact ⟨u, run, scanning, cause, rfl⟩

/-- A block that enters FAULT is one of the two card operations, which stopped. -/
theorem Block.of_fault {s t : State} (block : Block s t) (outside : s.fault = false)
    (fault : t.fault = true) : ∃ u, ProtocolChange s u ∧ u.scanning = false ∧
      (u.cause = .transportError ∨ u.cause = .resetLow) ∧ t = u.withRet (.faulted u.cause) := by
  cases block with
  | ended => cases outside.symm.trans fault
  | card x found kind st u run =>
    cases ((idle_cardBlock kind _ _ _ run).1.trans outside).symm.trans fault
  | faulted x found kind u run =>
    obtain ⟨-, -, scanning, cause⟩ := stops_cardBlock kind run
    have change := protocol_cardBlock kind s
    rw [run] at change
    exact ⟨u, change, scanning, cause, rfl⟩
  | port c _ u change =>
    obtain ⟨_, _, _, -, rfl⟩ := change
    cases outside.symm.trans fault
  | hung c _ u change =>
    obtain ⟨_, _, _, -, rfl⟩ := change
    cases outside.symm.trans fault

theorem meets_commandResult : MeetsFailure commandResult :=
  meets_bind meets_current fun _ => meets_pure _

theorem meets_anticollResult (st : Status) : MeetsFailure (anticollResult st) :=
  meets_bind meets_current fun _ => meets_pure _

/-- The instructions that make exchanges on an open handle. -/
def UsesBus (i : Instr) : Prop :=
  touchesRegister i = true ∨ runsCommand i = true ∨ ∃ bytes, i = .transfer bytes

theorem UsesBus.ne_init {i : Instr} (h : UsesBus i) : i ≠ .init := by
  rintro rfl
  rcases h with h | h | ⟨_, h⟩ <;> cases h

theorem meets_operationOf (p : Params) {i : Instr} (h : UsesBus i) :
    MeetsFailure (operationOf p i) := by
  cases i with
  | spiWriteFrame | writeReg => exact meets_bind (meets_writeReg _ _) fun _ => meets_pure _
  | spiReadFrame | readReg => exact meets_bind (meets_readReg _) fun _ => meets_pure _
  | setBits => exact meets_bind (meets_setBits _ _) fun _ => meets_pure _
  | clearBits => exact meets_bind (meets_clearBits _ _) fun _ => meets_pure _
  | antennaOn => exact meets_bind meets_antennaOn fun _ => meets_pure _
  | cmdIdle | cmdAuthent | cmdTransceive =>
    exact meets_bind (meets_runCommand _) fun _ => meets_commandResult
  | toCard => exact meets_bind (meets_toCard _ _) fun _ => meets_commandResult
  | piccRequest | request => exact meets_bind (meets_request _) fun _ => meets_pure _
  | piccAnticoll | anticoll => exact meets_bind meets_anticoll fun _ => meets_anticollResult _
  | transfer => exact meets_bind (meets_xfer _) fun _ => meets_pure _
  | resetWrite | selectTag | init | shutdown | scan => rcases h with h | h | ⟨_, h⟩ <;> cases h

/-- The fields that FaultedAfter compares. -/
structure Steady (s t : State) : Prop where
  cfg : t.cfg = s.cfg
  isOpen : t.isOpen = s.isOpen
  rst : t.rst = s.rst
  scan : t.scan = s.scan
  cancel : t.cancel = s.cancel

theorem steady_operationOf {i : Instr} (p : Params) (h : UsesBus i) (s : State) :
    Steady s (resultState (operationOf p i s)) := by
  have of_engine (kind : touchesRegister i = true ∨ runsCommand i = true) :
      Steady s (resultState (operationOf p i s)) := by
    have change := protocol_operationOf p kind s
    exact ⟨change.cfg, change.isOpen, change.rst, change.scan, change.cancel⟩
  rcases h with h | h | ⟨bytes, rfl⟩
  · exact of_engine (.inl h)
  · exact of_engine (.inr h)
  · obtain ⟨events, e, -, -, ⟨a, run⟩ | ⟨c, run⟩⟩ := sends_operationOf p (.inr ⟨bytes, rfl⟩) s
    · rw [run]
      exact ⟨rfl, rfl, rfl, rfl, rfl⟩
    · rw [run]
      exact ⟨rfl, rfl, rfl, rfl, rfl⟩

/-- Where some exchanges are answered and the next fails, an instruction that uses the bus ends before
it or stops at it. -/
theorem exec_meets_failure {s : State} {i : Instr} {answers : List (List Byte)}
    {rest : List (Option (List Byte))} (high : s.rst = .high) (outside : s.fault = false)
    (kind : UsesBus i) (bus : s.env.bus = .oracle (answers.map some ++ none :: rest)) :
    ∃ t events, exec i s = .next t ∧ BusOnly events ∧
      ((events.length ≤ answers.length ∧ t.fault = false ∧ t.trace = s.trace ++ events ∧
          t.env = s.env.failingAfter (answers.drop events.length) rest) ∨
       (events.length = answers.length ∧ FaultedAfter s t .transportError events ∧
          t.env = { s.env with bus := .oracle rest })) := by
  cases runs : denialOf s i with
  | some why =>
    exact ⟨_, [], exec_of_denial runs, busOnly_nil, .inl ⟨Nat.zero_le _, outside,
      (List.append_nil _).symm, eq_failingAfter bus⟩⟩
  | none =>
    have steady := steady_operationOf s.cfg kind s
    rcases meets_operationOf s.cfg kind s answers rest high bus with
      ⟨r, t, events, run, only, count, -, fault, trace, env⟩ |
      ⟨t, events, run, only, count, fault, cause, scanning, trace, env⟩
    · exact ⟨_, events, exec_of_ok runs run, only, .inl ⟨count, fault.trans outside, trace, env⟩⟩
    · rw [run] at steady
      exact ⟨_, events, exec_of_error runs run, only, .inr ⟨count, ⟨fault, cause,
        congrArg Ret.faulted cause, scanning, trace, steady.cfg, steady.isOpen, steady.rst,
        steady.scan, steady.cancel⟩, env⟩⟩

/-- Where the first exchange fails, it always stops there. -/
theorem exec_meets_first_failure {s : State} {i : Instr} {rest : List (Option (List Byte))}
    (ready : s.Ready) (kind : UsesBus i) (wf : i.wellFormed s.cfg = true)
    (bus : s.env.bus = .oracle (none :: rest)) :
    ∃ t, exec i s = .next t ∧ FaultedAfter s t .transportError [] ∧
      t.env = { s.env with bus := .oracle rest } := by
  obtain ⟨outside, opened, high⟩ := ready
  have runs := denialOf_admitted ⟨outside, opened⟩ kind.ne_init wf
  have of_engine (engine : touchesRegister i = true ∨ runsCommand i = true) :
      ∃ t, exec i s = .next t ∧ FaultedAfter s t .transportError [] ∧
        t.env = { s.env with bus := .oracle rest } := by
    obtain ⟨u, quiet, run⟩ := (starts_operationOf s.cfg engine).transportError high bus
    have change := quiet.change
    exact ⟨_, exec_of_error runs run, ⟨rfl, rfl, rfl, rfl, quiet.trace.trans (List.append_nil _).symm,
      change.cfg, change.isOpen, change.rst, change.scan, change.cancel⟩, rfl⟩
  rcases kind with h | h | ⟨bytes, rfl⟩
  · exact of_engine (.inl h)
  · exact of_engine (.inr h)
  · exact (transferExchangesBytes s bytes ⟨outside, opened⟩).2 _ (by simp [Env.exchange, bus])

/-- Settles O23: an instruction and a block enter FAULT where their operation stops, and every
operation that uses the bus stops at the first failed exchange it reaches. -/
theorem faultEntryRecordsCause : Obligations.FaultEntryRecordsCause := by
  refine ⟨fun s t i run outside fault => ?_, fun s t scanning run outside fault => ?_,
    fun s i answers rest ⟨outside, _, high⟩ kind bus => exec_meets_failure high outside kind bus,
    fun s i rest ready kind wf bus => exec_meets_first_failure ready kind wf bus⟩
  · have ran := ran_of_exec run
    obtain ⟨events, trace, -⟩ := ran.grows.trace
    obtain ⟨u, -, idle, cause, rfl⟩ := ran.of_fault outside fault
    exact ⟨cause, rfl, idle, events, trace⟩
  · obtain ⟨-, ⟨-, rfl⟩ | ⟨idle, -⟩ | ⟨idle, -⟩⟩ := step_cases run
    · obtain ⟨u, change, idle, cause, left⟩ :=
        (scanStep_block s.tick).of_fault ((tick_fault s).trans outside) fault
      obtain ⟨events, bus, -, trace⟩ := change.events
      rw [left]
      exact ⟨cause, rfl, idle, change.scan.trans (tick_scan s), change.isOpen.trans (tick_isOpen s),
        change.rst.trans (tick_rst s), events, bus, trace.trans (by simp)⟩
    · cases idle.symm.trans scanning
    · cases idle.symm.trans scanning

end Sys2Proof.Machine
end

section

namespace Sys2Proof.Machine

/-! ### What a chip command leaves, read off its row -/

/-- The state a chip command begins in: TO_CARD's operand is in the send buffer. -/
def loaded (s : State) : Instr → State
  | .toCard _ tx => s.loadTx tx
  | _ => s

section Loaded

variable (s : State) (i : Instr)

@[simp] theorem loaded_cfg : (loaded s i).cfg = s.cfg := by cases i <;> rfl

@[simp] theorem loaded_rst : (loaded s i).rst = s.rst := by cases i <;> rfl

@[simp] theorem loaded_fault : (loaded s i).fault = s.fault := by cases i <;> rfl

@[simp] theorem loaded_env : (loaded s i).env = s.env := by cases i <;> rfl

@[simp] theorem loaded_trace : (loaded s i).trace = s.trace := by cases i <;> rfl

end Loaded

/-- The send buffer a chip command finds is the one the statements speak of. -/
theorem loaded_txBytes {s : State} {i : Instr} {p : Params} (wf : i.wellFormed p = true) :
    (loaded s i).txBytes = sendBytes s i := by
  cases i
  case toCard cmd tx => exact txBytes_loadTx s tx (by simpa [Instr.wellFormed] using wf)
  all_goals rfl

theorem runsCommand_of_chipCommand {p : Params} {i : Instr} {c : Byte}
    (h : chipCommand p i = some c) : runsCommand i = true := by
  cases i with
  | cmdIdle | cmdAuthent | cmdTransceive | toCard => rfl
  | _ => cases h

/-- Every row of a chip command runs the eight steps and gives the result back. -/
theorem operationOf_chipCommand {s : State} {i : Instr} {c : Byte}
    (h : chipCommand s.cfg i = some c) :
    operationOf s.cfg i s = (runCommand c >>= fun _ => commandResult) (loaded s i) := by
  cases i <;> cases h <;> rfl

/-- A chip command that ends outside FAULT has done all its steps. -/
theorem command_done {s t : State} {i : Instr} {c : Byte} (admitted : s.Admitted)
    (wf : i.wellFormed s.cfg = true) (chip : chipCommand s.cfg i = some c) (h : exec i s = .next t)
    (outside : t.fault = false) : ∃ u pre before last r w after,
      CommandDone c (loaded s i) u pre before last r w after ∧
      t = u.withRet (.result u.status u.respBytes u.bitlen) := by
  have not_init := ne_init (.inr (runsCommand_of_chipCommand chip))
  obtain ⟨r, u, run, rfl⟩ := run_of_exec h (denialOf_admitted admitted not_init wf) outside
  rw [operationOf_chipCommand chip] at run
  obtain ⟨_, v, first, second⟩ := bind_ok_iff.mp run
  cases second
  obtain ⟨pre, before, last, r, w, after, done⟩ := runCommand_done first
  exact ⟨_, pre, before, last, r, w, after, done, rfl⟩

/-! ### The two masks and the tests on them -/

/-- Only TRANSCEIVE enables the timer bit (R152), so no other command can see it (R165). -/
theorem timerSeen_of_not_transceive {p : Params} {c : Byte} (irq : Byte)
    (other : c ≠ p.cmdTransceive) : timerSeen irq (enableMask p c) = false := by
  rw [timerSeen, enableMask, if_neg other, BitVec.and_assoc]
  split <;> simp [show (18#8 &&& 1#8) = 0#8 from rfl]

theorem timerSeen_iff (irq irqEn : Byte) :
    timerSeen irq irqEn = true ↔ irq &&& irqEn &&& 0x01 ≠ 0 := bne_iff_ne

theorem errorClear_iff (err : Byte) : errorClear err = true ↔ err &&& 0x1B = 0 := beq_iff_eq

theorem errorClear_false_iff (err : Byte) : errorClear err = false ↔ err &&& 0x1B ≠ 0 := by
  rw [← Bool.not_eq_true, errorClear_iff]

/-- R169's clamp in the form of the outcome table. -/
theorem drainCount_eq_max_min (n : Byte) : drainCount n = max 1 (min n.toNat 16) := by
  unfold drainCount clamp fifoCap
  split
  · omega
  · split <;> omega

/-- Steps 7 and 8 end in a row of the outcome table (R177). -/
theorem CheckRow.outcome {c : Byte} {t : State} {after : List Event} (row : CheckRow c t after)
    (masks : t.irqEn = enableMask t.cfg c) : CommandOutcome c t := by
  cases row with
  | timeout cnt _ status len bits cause => exact .inl ⟨cnt, status, len, bits, cause⟩
  | errorBits cnt err rx _ status len bits cause =>
    exact .inr (.inl ⟨cnt, (errorClear_false_iff _).mp err, status, len, bits, cause⟩)
  | clear cnt err other rx _ status cause len bits =>
    rw [masks, timerSeen_of_not_transceive _ other] at status cause
    exact .inr (.inr (.inr ⟨cnt, (errorClear_iff _).mp err, other, status, len, bits, cause⟩))
  | drained cnt err transceive rx l k rs _ _ status cause _ _ count len bits _ =>
    refine .inr (.inr (.inl ⟨cnt, (errorClear_iff _).mp err, transceive, ?_, ?_, ?_⟩))
    · have timer := timerSeen_iff t.irq t.irqEn
      by_cases seen : timerSeen t.irq t.irqEn = true
      · rw [if_pos seen] at status cause
        exact .inr ⟨timer.mp seen, status, cause⟩
      · rw [if_neg seen] at status cause
        exact .inl ⟨by simpa using mt timer.mpr seen, status, cause⟩
    · rw [len, count, drainCount_eq_max_min]
    · rw [bits, bitLengthReg_toInt, bitLength]

theorem CommandDone.masks {c : Byte} {s t : State} {pre : List Event} {before : List (List Byte)}
    {last r w : List Byte} {after : List Event} (d : CommandDone c s t pre before last r w after) :
    t.irqEn = enableMask t.cfg c := by rw [d.irqEn, d.cfg]

/-- The check only reads. -/
theorem CheckRow.reads {c : Byte} {t : State} {after : List Event} (row : CheckRow c t after) :
    ∀ e ∈ after, ∃ addr rx, e = .bus (readFrame addr) rx := by
  cases row with
  | timeout _ none => simp [none]
  | errorBits _ _ rx one => simp [one]
  | clear _ _ _ rx one => simp [one]
  | drained _ _ _ rx l k rs _ all =>
    rw [all]
    intro e mem
    simp only [List.mem_append, List.mem_cons, List.mem_map, List.not_mem_nil, or_false] at mem
    obtain (rfl | rfl | rfl) | ⟨d, -, rfl⟩ := mem <;> exact ⟨_, _, rfl⟩

/-- The number of its reads: R174's `G + K*T*(2 + m)`. -/
theorem CheckRow.length {c : Byte} {t : State} {after : List Event} (row : CheckRow c t after) :
    after.length = (if t.cnt = 0 then 0 else 1) +
      (if t.cnt ≠ 0 ∧ t.err &&& 0x1B = 0 ∧ c = t.cfg.cmdTransceive then 2 + t.m.toNat else 0) := by
  cases row with
  | timeout cnt none => simp [none, cnt]
  | errorBits cnt err rx one =>
    have set := (errorClear_false_iff _).mp err
    rw [one, if_neg cnt, if_neg fun all => set all.2.1]
    rfl
  | clear cnt err other rx one =>
    rw [one, if_neg cnt, if_neg fun all => other all.2.2]
    rfl
  | drained cnt err transceive rx l k rs drained all _ _ _ _ count =>
    rw [all, if_neg cnt, if_pos ⟨cnt, (errorClear_iff _).mp err, transceive⟩, count, ← drained,
      List.length_append, List.length_map]
    simp only [List.length_cons, List.length_nil]
    omega

/-! ### The statements on a command that ends well -/

/-- Settles O29: without failures the eight steps end, and they end in a row. -/
theorem commandEndsInOutcomeRow : Obligations.CommandEndsInOutcomeRow := by
  rintro s i c ⟨outside, opened, high⟩ noFailure wf chip
  obtain ⟨_, u, run, -, -⟩ := ends_runCommand c (loaded s i) (by simpa) (by simpa)
  obtain ⟨pre, before, last, r, w, after, done⟩ := runCommand_done run
  have not_init := ne_init (.inr (runsCommand_of_chipCommand chip))
  have ends : operationOf s.cfg i s = .ok (.result u.status u.respBytes u.bitlen) u := by
    rw [operationOf_chipCommand chip, bind_of_ok run]
    rfl
  exact ⟨_, exec_of_ok (denialOf_admitted ⟨outside, opened⟩ not_init wf) ends,
    done.fault.trans (by simpa), done.pc, done.cmd, rfl, done.row.outcome done.masks⟩

/-- Settles O30: the lengths of the stretches of the trace. -/
theorem commandFrameCount : Obligations.CommandFrameCount := by
  intro s t cmd tx admitted fits h outside
  have wf : (Instr.toCard cmd tx).wellFormed s.cfg = true := by simpa [Instr.wellFormed] using fits
  obtain ⟨u, pre, before, last, r, w, after, done, rfl⟩ := command_done admitted wf rfl h outside
  have sent : (loaded s (.toCard cmd tx)).txBytes = tx := loaded_txBytes wf
  have cfg : u.cfg = s.cfg := done.cfg
  have bus_after : BusOnly after := fun e mem => by
    obtain ⟨addr, rx, rfl⟩ := done.row.reads e mem
    exact ⟨_, _, rfl⟩
  refine ⟨_, done.trace.trans (by
    rw [loaded_trace]
    simp only [List.append_assoc]
    rfl), ?_, ?_⟩
  · simp [done.preBus, bus_after]
  · have after_length := done.row.length
    have pre_length := done.preLength
    have polls := done.polls
    have cnt := done.cnt
    rw [cfg] at after_length
    rw [sent, loaded_cfg] at pre_length
    change List.length _ = 6 + tx.length + 1 + (if cmd = s.cfg.cmdTransceive then 2 else 0) +
      (2000 - u.cnt.toNat) + 2 + (if u.cnt = 0 then 0 else 1) +
      (if u.cnt ≠ 0 ∧ u.err &&& 0x1B = 0 ∧ cmd = s.cfg.cmdTransceive then 2 + u.m.toNat else 0)
    simp only [List.length_append, List.length_map, List.length_cons, List.length_nil]
    omega

/-- Settles O36: the stop step's write is the last, and the check after it only reads. -/
theorem startSendAlwaysCleared : Obligations.StartSendAlwaysCleared := by
  intro s t i c admitted wf chip h outside
  obtain ⟨u, pre, before, last, r, w, after, done, rfl⟩ := command_done admitted wf chip h outside
  refine ⟨pre ++ (before ++ [last]).map (fun rx => .bus (readFrame s.cfg.aComIrq) rx) ++
    [.bus (readFrame s.cfg.aBitFraming) r], andNotMask (secondByte r) s.cfg.startSend, w, after,
    ?_, ?_, done.row.reads⟩
  · rw [withRet_trace, done.trace]
    simp
  · rw [andNotMask, BitVec.and_assoc, BitVec.and_comm (~~~_), BitVec.and_not_self]
    exact BitVec.and_zero

/-- Settles O32: read off the row of the command; TRANSCEIVE's enable mask has the timer bit, no other
command's has. -/
theorem noTagOverridesOkAlone : Obligations.NoTagOverridesOkAlone := by
  intro s t i c admitted wf chip h outside
  obtain ⟨u, pre, before, last, r, w, after, done, rfl⟩ := command_done admitted wf chip h outside
  have cfg : u.cfg = s.cfg := done.cfg.trans (loaded_cfg s i)
  have masks : u.irqEn = enableMask s.cfg c := by rw [done.masks, cfg]
  simp only [withRet_status, withRet_cnt, withRet_err, withRet_irq, withRet_irqEn, withRet_cause]
  have outcome := done.row.outcome done.masks
  rw [CommandOutcome, cfg] at outcome
  rcases outcome with ⟨cnt, status, -, -, -⟩ |
    ⟨cnt, err, status, -, -, -⟩ | ⟨cnt, err, transceive, judged, -, -⟩ |
    ⟨cnt, err, other, status, -, -, -⟩
  · refine ⟨iff_of_false (by simp [status]) fun running => running.1 cnt, fun noTag => ?_,
      fun _ _ running => absurd cnt running, fun running => absurd cnt running⟩
    cases status.symm.trans noTag
  · refine ⟨iff_of_false (by simp [status]) fun clear => err clear.2.1, fun noTag => ?_,
      fun _ _ _ clear => absurd clear err, fun _ _ => status⟩
    cases status.symm.trans noTag
  · refine ⟨?_, fun noTag => ⟨transceive, ?_⟩, fun ⟨_, _, codes_differ⟩ _ _ _ timer => ?_,
      fun _ set => absurd err set⟩
    · rcases judged with ⟨unseen, status, -⟩ | ⟨seen, status, -⟩
      · exact iff_of_false (by simp [status]) fun seen => seen.2.2 unseen
      · exact iff_of_true status ⟨cnt, err, seen⟩
    · rcases judged with ⟨-, status, -⟩ | ⟨-, -, cause⟩
      · cases status.symm.trans noTag
      · exact cause
    · rcases judged with ⟨unseen, -, -⟩ | ⟨-, status, -⟩
      · rw [masks, enableMask, transceive, if_neg codes_differ.symm, if_pos rfl,
          BitVec.and_assoc] at unseen
        exact absurd unseen timer
      · exact status
  · have unseen := timerSeen_of_not_transceive u.irq other
    rw [← Bool.not_eq_true, timerSeen_iff, not_not, ← masks] at unseen
    refine ⟨iff_of_false (by simp [status]) fun seen => seen.2.2 unseen, fun noTag => ?_,
      fun _ transceive => absurd transceive other, fun _ set => absurd err set⟩
    cases status.symm.trans noTag

/-! ### The poll, the length and the drain -/

/-- Settles O27: the polls are the silent reads and the last one. -/
theorem pollCountsItsReads : Obligations.PollCountsItsReads := by
  intro s t h
  obtain ⟨before, last, e, bound, rfl, -, -⟩ := toCardPoll_ok h
  have counter : (BitVec.ofNat 11 (2000 - (before.length + 1))).toNat =
      2000 - (before.length + 1) := by
    rw [BitVec.toNat_ofNat]
    omega
  refine ⟨_, before.length + 1, rfl, busOnly_map_const _ _, by omega, by omega, ?_, counter, ?_⟩
  · simp [List.replicate_succ']
  · change BitVec.ofNat 11 _ = 0 ↔ _
    rw [← BitVec.toNat_inj, counter, show (0 : BitVec 11).toNat = 0 from rfl]
    omega

/-- The loop stops at a counter of zero or at a read that shows the timer bit or a wait bit. -/
theorem pollStops_iff (count : Nat) (irq wait : Byte) :
    pollStops count irq wait = true ↔ count = 0 ∨ irq &&& 0x01 ≠ 0 ∨ irq &&& wait ≠ 0 := by
  simp [pollStops, or_assoc]

/-- Settles O28: the last read stopped the loop, and with a counter not zero only a signal can have. -/
theorem pollStopsAtFirstSignal : Obligations.PollStopsAtFirstSignal := by
  intro s t h
  obtain ⟨before, last, e, bound, rfl, silent, stops⟩ := toCardPoll_ok h
  refine ⟨before, last, rfl, silent, rfl, fun running => ?_⟩
  refine ((pollStops_iff _ _ _).mp stops).resolve_left fun zero => running ?_
  change BitVec.ofNat 11 _ = 0
  rw [zero]
  rfl

/-- The control register's low three bits as a number (R167). -/
theorem lastBitsOf_toNat (control : Byte) :
    (lastBitsOf control).toNat = (control &&& 0x07).toNat := by
  revert control
  decide

theorem lastBitsOf_eq_zero_iff (control : Byte) : lastBitsOf control = 0 ↔ control &&& 0x07 = 0 := by
  rw [← BitVec.toNat_inj, lastBitsOf_toNat, ← BitVec.toNat_inj (x := control &&& 0x07)]
  rfl

/-- The bit length by the control register's value (R168). -/
theorem bitLength_lastBitsOf (n control : Byte) : bitLength n (lastBitsOf control) =
    if control &&& 0x07 = 0 then (n.toNat : Int) * 8
    else ((n.toNat : Int) - 1) * 8 + (control &&& 0x07).toNat := by
  simp only [bitLength, lastBitsOf_eq_zero_iff, lastBitsOf_toNat]

/-- Settles O33: the register holds the formula's integer, and the formula's bits are the control
register's. -/
theorem bitLengthIsExact : Obligations.BitLengthIsExact := fun s control =>
  ⟨rfl, (bitLengthReg_toInt s.n (lastBitsOf control)).trans (bitLength_lastBitsOf s.n control)⟩

end Sys2Proof.Machine
end

section

namespace Sys2Proof.Machine

/-! ### Register transactions on the scripted bus (spec/20_memory.md R71) -/

/-- The environment with this much of the script still to be read. -/
def Env.scripted (e : Env) (reads : List Byte) : Env := { e with bus := .script reads }

theorem eq_scripted {e : Env} {reads : List Byte} (h : e.bus = .script reads) :
    e = e.scripted reads := by
  cases e
  cases h
  rfl

/-- A bind whose first part is known to end well. -/
theorem ok_bind {α β : Type} {x : Op α} {f : α → Op β} {s t : State} {a : α}
    {r : EStateM.Result Halt State β} (first : x s = .ok a t) (second : f a t = r) :
    (x >>= f) s = r := (bind_of_ok first).trans second

/-- The index register after one more byte and then the rest. -/
theorem index_shift (i : BitVec 5) (k : Nat) :
    i + 1 + BitVec.ofNat 5 k = i + BitVec.ofNat 5 (k + 1) := by
  rw [BitVec.add_assoc, BitVec.ofNat_add, BitVec.add_comm 1]
  rfl

section Script

variable {s : State} {e : Env} {reads rest : List Byte} (high : s.rst = .high)

include high

theorem writeReg_script (env : s.env = e.scripted reads) (addr : Addr) (value : Byte) :
    writeReg addr value s = .ok () (s.sent [wrote addr value] (e.scripted reads)) := by
  rw [writeReg_ok high (script_write (reads := reads) (by rw [env]; rfl) addr value), env]
  rfl

theorem readReg_script {b : Byte} (env : s.env = e.scripted (b :: rest)) (addr : Addr) :
    readReg addr s = .ok b (s.sent [gotByte addr b] (e.scripted rest)) := by
  rw [readReg_ok high (script_read (b := b) (rest := rest) (by rw [env]; rfl) addr), env]
  rfl

/-- A read and a write of what `f` makes of the byte read. -/
theorem readWrite_script {b : Byte} (env : s.env = e.scripted (b :: rest)) (addr : Addr)
    (f : Byte → Byte) : (readReg addr >>= fun v => writeReg addr (f v)) s =
      .ok () (s.sent [gotByte addr b, wrote addr (f b)] (e.scripted rest)) := by
  rw [bind_of_ok (readReg_script high env addr)]
  exact (writeReg_script (s := s.sent _ _) high rfl addr (f b)).trans (by rw [sent_sent]; rfl)

theorem setBits_script {b : Byte} (env : s.env = e.scripted (b :: rest)) (addr : Addr)
    (mask : Byte) : setBits addr mask s =
      .ok () (s.sent [gotByte addr b, wrote addr (orMask b mask)] (e.scripted rest)) :=
  readWrite_script high env addr (orMask · mask)

theorem clearBits_script {b : Byte} (env : s.env = e.scripted (b :: rest)) (addr : Addr)
    (mask : Byte) : clearBits addr mask s =
      .ok () (s.sent [gotByte addr b, wrote addr (andNotMask b mask)] (e.scripted rest)) :=
  readWrite_script high env addr (andNotMask · mask)

/-! ### The phases of a command on the scripted bus (R154 to R170) -/

theorem toCardArm_script {q f : Byte} (env : s.env = e.scripted (q :: f :: rest)) :
    toCardArm s = .ok () ((s.setPhase .arm).sent
      [wrote s.cfg.aComIen (orMask s.irqEn ienTop),
       gotByte s.cfg.aComIrq q, wrote s.cfg.aComIrq (andNotMask q irqTop),
       gotByte s.cfg.aFifoLevel f, wrote s.cfg.aFifoLevel (orMask f fifoFlush),
       wrote s.cfg.aCommand s.cfg.cmdIdle] (e.scripted rest)) := by
  rw [toCardArm, bind_update, bind_current]
  refine ok_bind (writeReg_script (s := s.setPhase .arm) high env _ _) ?_
  refine ok_bind (clearBits_script (s := (s.setPhase .arm).sent _ _) high rfl _ _) ?_
  rw [sent_sent]
  refine ok_bind (setBits_script (s := (s.setPhase .arm).sent _ _) high rfl _ _) ?_
  rw [sent_sent]
  refine (writeReg_script (s := (s.setPhase .arm).sent _ _) high rfl _ _).trans ?_
  rw [sent_sent]
  rfl

omit high in
theorem loadBytes_script (bytes : List Byte) : ∀ {s : State}, s.rst = .high →
    s.env = e.scripted reads → loadBytes bytes s =
      .ok () ((s.setIndex (s.i + BitVec.ofNat 5 bytes.length)).sent
        (bytes.map (wrote s.cfg.aFifoData)) (e.scripted reads)) := by
  induction bytes with
  | nil =>
    intro s _ env
    simp [loadBytes, State.sent, State.setIndex, ← env]
  | cons b rest ih =>
    intro s high env
    rw [loadBytes, bind_current]
    refine ok_bind (writeReg_script high env _ _) ?_
    rw [bind_update]
    refine (ih (s := (s.sent _ _).setIndex _) high rfl).trans ?_
    simp only [State.sent, State.setIndex, List.map_cons, List.length_cons, List.append_assoc,
      List.singleton_append, index_shift]

theorem toCardLoad_script (env : s.env = e.scripted reads) :
    toCardLoad s = .ok () (((s.setPhase .load).setIndex (BitVec.ofNat 5 s.txBytes.length)).sent
      (s.txBytes.map (wrote s.cfg.aFifoData)) (e.scripted reads)) := by
  rw [toCardLoad, bind_update, bind_update, bind_current]
  refine (loadBytes_script _ (s := (s.setPhase .load).setIndex 0) high env).trans ?_
  rw [setIndex_i, show (0 : BitVec 5) + _ = _ from BitVec.zero_add _]
  rfl

/-- The bytes of the start step: one for TRANSCEIVE, read from the bit-framing register. -/
theorem toCardStart_script {framing : Byte} (env : s.env = e.scripted
      ((if s.cmd = s.cfg.cmdTransceive then [framing] else []) ++ rest)) :
    toCardStart s = .ok () ((s.setPhase .start).sent
      (wrote s.cfg.aCommand s.cmd :: if s.cmd = s.cfg.cmdTransceive then
        [gotByte s.cfg.aBitFraming framing,
         wrote s.cfg.aBitFraming (orMask framing s.cfg.startSend)] else []) (e.scripted rest)) := by
  rw [toCardStart, bind_update, bind_current]
  refine ok_bind (writeReg_script (s := s.setPhase .start) high env _ _) ?_
  by_cases transceive : s.cmd = s.cfg.cmdTransceive
  · simp only [if_pos transceive]
    rw [if_pos (show (s.setPhase .start).cmd =
      (s.setPhase .start).cfg.cmdTransceive from transceive)]
    refine (setBits_script (s := (s.setPhase .start).sent _ _) high rfl _ _).trans ?_
    rw [sent_sent]
    rfl
  · simp only [if_neg transceive]
    rw [if_neg (show ¬ (s.setPhase .start).cmd =
      (s.setPhase .start).cfg.cmdTransceive from transceive)]
    rfl

omit high in
theorem pollLoop_script (before : List Byte) {last : Byte} : ∀ {s : State} {k : Nat},
    s.rst = .high → s.env = e.scripted (before ++ last :: rest) → before.length < k →
    (∀ v ∈ before, v &&& 0x01 = 0 ∧ v &&& s.waitIrq = 0) →
    pollStops (k - (before.length + 1)) last s.waitIrq = true →
    pollLoop k s = .ok () ((s.polled last (k - (before.length + 1))).sent
      ((before ++ [last]).map (gotByte s.cfg.aComIrq)) (e.scripted rest)) := by
  induction before with
  | nil =>
    intro s k high env bound _ stops
    obtain ⟨k, rfl⟩ : ∃ j, k = j + 1 := ⟨k - 1, by simp at bound; omega⟩
    rw [pollLoop, bind_current]
    refine ok_bind (readReg_script high env _) ?_
    rw [bind_update, if_pos (by simpa using stops)]
    rfl
  | cons v before ih =>
    intro s k high env bound silent stops
    obtain ⟨k, rfl⟩ : ∃ j, k = j + 1 := ⟨k - 1, by simp at bound; omega⟩
    simp only [List.length_cons] at bound stops
    obtain ⟨timer, wait⟩ := silent v (by simp)
    have goes_on : ¬ pollStops k v s.waitIrq = true := by
      rw [pollStops_iff]
      rintro (zero | signal | signal)
      · omega
      · exact signal timer
      · exact signal wait
    rw [pollLoop, bind_current]
    refine ok_bind (readReg_script high env _) ?_
    rw [bind_update, if_neg goes_on]
    refine (ih (s := (s.sent _ _).polled v k) (k := k) high rfl (by omega)
      (fun w mem => silent w (by simp [mem])) (by simpa using stops)).trans ?_
    simp [State.sent, State.polled]

theorem toCardPoll_script {before : List Byte} {last : Byte}
    (env : s.env = e.scripted (before ++ last :: rest)) (bound : before.length < 2000)
    (silent : ∀ v ∈ before, v &&& 0x01 = 0 ∧ v &&& s.waitIrq = 0)
    (stops : pollStops (2000 - (before.length + 1)) last s.waitIrq = true) :
    toCardPoll s = .ok () (((s.setPhase .poll).polled last (2000 - (before.length + 1))).sent
      ((before ++ [last]).map (gotByte s.cfg.aComIrq)) (e.scripted rest)) := by
  rw [toCardPoll, bind_update, bind_update]
  exact pollLoop_script before (s := (s.setPhase .poll).setCount pollInit) high env bound silent stops

theorem toCardStop_script {framing : Byte} (env : s.env = e.scripted (framing :: rest)) :
    toCardStop s = .ok () ((s.setPhase .stop).sent
      [gotByte s.cfg.aBitFraming framing,
       wrote s.cfg.aBitFraming (andNotMask framing s.cfg.startSend)] (e.scripted rest)) := by
  rw [toCardStop, bind_update, bind_current]
  exact clearBits_script (s := s.setPhase .stop) high env _ _

theorem toCardLen_script {level control : Byte} (env : s.env = e.scripted (level :: control :: rest)) :
    toCardLen s = .ok () ((((s.setPhase .len).setLevel level).measure control).sent
      [gotByte s.cfg.aFifoLevel level, gotByte s.cfg.aControl control] (e.scripted rest)) := by
  rw [toCardLen, bind_update, bind_current]
  refine ok_bind (readReg_script (s := s.setPhase .len) high env _) ?_
  rw [bind_update]
  refine ok_bind (readReg_script (s := ((s.setPhase .len).sent _ _).setLevel level) high rfl _) ?_
  simp [State.sent, State.measure, State.setLevel, State.setPhase]

omit high in
theorem drainBytes_script (data : List Byte) : ∀ {s : State}, s.rst = .high →
    s.env = e.scripted (data ++ rest) → s.i.toNat + data.length ≤ 16 →
    drainBytes data.length s =
      .ok () (({ s with resp := fillFrom s.resp s.i.toNat data,
                        i := s.i + BitVec.ofNat 5 data.length }).sent
        (data.map (gotByte s.cfg.aFifoData)) (e.scripted rest)) := by
  induction data with
  | nil =>
    intro s _ env _
    simp at env
    simp [drainBytes, State.sent, fillFrom, ← env]
  | cons b data ih =>
    intro s high env fits
    rw [List.length_cons] at fits
    rw [List.length_cons, drainBytes, bind_current]
    refine ok_bind (readReg_script high env _) ?_
    rw [bind_update]
    have next : (s.i + 1).toNat = s.i.toNat + 1 := index_succ (by omega)
    refine (ih (s := (s.sent _ _).pushResp b) high rfl ?_).trans ?_
    · change (s.i + 1).toNat + _ ≤ 16
      omega
    · simp only [State.sent, State.pushResp, fillFrom, next, List.map_cons, List.append_assoc,
        List.singleton_append, index_shift]

/-- The registers a drain of these bytes leaves, on whatever bus it was made. -/
def State.received (s : State) (data : List Byte) : State := s.drained (data.map fun b => [0, b])

omit high in
theorem received_eq (s : State) (data : List Byte) : s.received data =
    { s with pc := .drain, resp := fillFrom s.resp 0 data, i := BitVec.ofNat 5 data.length,
             respLen := BitVec.ofNat 5 data.length } := by
  have bytes : (data.map fun b => ([0, b] : List Byte)).map secondByte = data := by
    rw [List.map_map]
    exact List.map_id data
  simp only [State.received, State.drained, bytes, List.length_map]

omit high in
theorem respBytes_received (s : State) {data : List Byte} (fits : data.length ≤ 16) :
    (s.received data).respBytes = data := by
  rw [received_eq]
  exact validBytes_fillFrom s.resp data fits

theorem toCardDrain_script {data : List Byte} (env : s.env = e.scripted (data ++ rest))
    (count : data.length = s.m.toNat) (fits : s.m.toNat ≤ 16) :
    toCardDrain s = .ok () ((s.received data).sent
      (data.map (gotByte s.cfg.aFifoData)) (e.scripted rest)) := by
  rw [toCardDrain, bind_update, bind_update, bind_current]
  have length_eq : BitVec.ofNat 5 data.length = s.m := by
    rw [count, BitVec.ofNat_toNat, BitVec.setWidth_eq]
  have drained := drainBytes_script (e := e) (rest := rest) data
    (s := (s.setPhase .drain).setIndex 0) high env (by
      rw [setIndex_i, show (0 : BitVec 5).toNat = 0 from rfl]
      omega)
  rw [count] at drained
  refine ok_bind drained ?_
  rw [update_run, received_eq]
  simp [State.sent, State.closeResp, State.setPhase, State.setIndex, length_eq]

end Script

/-- Settles O35: the drain's reads by its length, and its bytes by the script. -/
theorem drainFillsResponseInOrder : Obligations.DrainFillsResponseInOrder := by
  intro s nonempty fits
  refine ⟨fun t h => ?_, fun data rest high count bus => ?_⟩
  · obtain ⟨received, e, count, rfl⟩ := toCardDrain_ok h fits
    have length_eq : BitVec.ofNat 5 received.length = s.m := by
      rw [count, BitVec.ofNat_toNat, BitVec.setWidth_eq]
    exact ⟨received, count, rfl, respBytes_drained s received (by omega), length_eq,
      (congrArg BitVec.toNat length_eq).symm ▸ nonempty, (congrArg BitVec.toNat length_eq).symm ▸ fits⟩
  · exact ⟨_, toCardDrain_script high (eq_scripted bus) count fits,
      respBytes_received s (by omega), rfl⟩

end Sys2Proof.Machine
end

section

namespace Sys2Proof.Machine

/-! ### The check on the scripted bus (R162 to R172) -/

/-- The bytes steps 7 and 8 read. -/
def ChipAnswers.checkReads (c : ChipAnswers) (p : Params) (cmd : Byte) : List Byte :=
  (if c.timedOut then [] else [c.error]) ++
    (if c.drained p cmd then [c.level, c.control] ++ c.data else [])

/-- The frames steps 7 and 8 send. -/
def ChipAnswers.checkEvents (c : ChipAnswers) (p : Params) (cmd : Byte) : List Event :=
  (if c.timedOut then [] else [gotByte p.aError c.error]) ++
    (if c.drained p cmd then
      [gotByte p.aFifoLevel c.level, gotByte p.aControl c.control] ++
        c.data.map (gotByte p.aFifoData) else [])

/-- The registers steps 7 and 8 leave, in their four ways to end. -/
def State.checked (s : State) (c : ChipAnswers) : State :=
  if c.timedOut then (s.setPhase .check).setCause .protocolTimeout
  else if errorClear c.error then
    if c.drained s.cfg s.cmd then
      ((((s.setPhase .check).setErr c.error).judgeClear.setLevel c.level).measure c.control).received
        c.data
    else ((s.setPhase .check).setErr c.error).judgeClear
  else ((s.setPhase .check).setErr c.error).setCause .readerErrorBits

theorem sent_judgeClear (s : State) (events : List Event) (e : Env) :
    (s.sent events e).judgeClear = s.judgeClear.sent events e := by
  rw [judgeClear_eq, judgeClear_eq, sent_irq, sent_irqEn]
  split <;> rfl

theorem judgeClear_rst (s : State) : s.judgeClear.rst = s.rst := by
  rw [judgeClear_eq]
  split <;> rfl

theorem sent_checked (s : State) (events : List Event) (e : Env) (c : ChipAnswers) :
    (s.sent events e).checked c = (s.checked c).sent events e := by
  have judged : (((s.sent events e).setPhase .check).setErr c.error).judgeClear =
      ((s.setPhase .check).setErr c.error).judgeClear.sent events e :=
    sent_judgeClear ((s.setPhase .check).setErr c.error) events e
  unfold State.checked
  rw [judged, sent_cmd, sent_cfg]
  cases c.timedOut <;> cases errorClear c.error <;> cases c.drained s.cfg s.cmd <;> rfl

/-! ### The order of updates that touch different registers -/

theorem setPhase_setPhase (s : State) (p q : Phase) : (s.setPhase p).setPhase q = s.setPhase q := rfl

theorem setPhase_setIndex (s : State) (p : Phase) (k : BitVec 5) :
    (s.setPhase p).setIndex k = (s.setIndex k).setPhase p := rfl

theorem setPhase_polled (s : State) (p : Phase) (v : Byte) (k : Nat) :
    (s.setPhase p).polled v k = (s.polled v k).setPhase p := rfl

theorem withEnv_eq_self {s : State} {e : Env} (h : s.env = e) : s.withEnv e = s := by
  subst h
  rfl

theorem judgeClear_env (s : State) : s.judgeClear.env = s.env := by
  rw [judgeClear_eq]
  split <;> rfl

theorem ChipAnswers.drained_iff {c : ChipAnswers} {p : Params} {cmd : Byte} :
    c.drained p cmd = true ↔
      c.timedOut = false ∧ errorClear c.error = true ∧ cmd = p.cmdTransceive := by
  simp [ChipAnswers.drained, ChipAnswers.clear, errorClear, and_assoc]

theorem ChipAnswers.clear_iff {c : ChipAnswers} :
    c.clear = true ↔ c.timedOut = false ∧ errorClear c.error = true := by
  simp [ChipAnswers.clear, errorClear]

section Check

variable {s : State} {e : Env} {c : ChipAnswers} {rest : List Byte} (high : s.rst = .high)

include high

/-- Step 7 for TRANSCEIVE: the response is measured and drained. -/
theorem toCardLenDrain_script (env : s.env = e.scripted (c.level :: c.control :: (c.data ++ rest)))
    (count : c.data.length = drainCount c.level) :
    (toCardLen >>= fun _ => toCardDrain) s =
      .ok () ((((s.setLevel c.level).measure c.control).received c.data).sent
        ([gotByte s.cfg.aFifoLevel c.level, gotByte s.cfg.aControl c.control] ++
          c.data.map (gotByte s.cfg.aFifoData)) (e.scripted rest)) := by
  have bounds := drainCount_bounds c.level
  have measured : (((s.setPhase .len).setLevel c.level).measure c.control).m.toNat =
      drainCount c.level := measure_m_toNat _ _
  refine ok_bind (toCardLen_script high env) ?_
  refine (toCardDrain_script (s := (((s.setPhase .len).setLevel c.level).measure c.control).sent _ _)
    (e := e) (rest := rest) (data := c.data) high rfl ?_ ?_).trans ?_
  · rw [sent_m, measured, count]
  · rw [sent_m, measured]
    exact bounds.2
  · simp [State.sent, received_eq, State.measure, State.setLevel, State.setPhase]

/-- Steps 7 and 8 with the error bits clear. -/
theorem toCardClear_script {drains : Bool} (transceive : drains = true ↔ s.cmd = s.cfg.cmdTransceive)
    (env : s.env = e.scripted ((if drains then [c.level, c.control] ++ c.data else []) ++ rest))
    (count : drains = true → c.data.length = drainCount c.level) :
    toCardClear s = .ok () ((if drains then
        ((s.judgeClear.setLevel c.level).measure c.control).received c.data else s.judgeClear).sent
      (if drains then [gotByte s.cfg.aFifoLevel c.level, gotByte s.cfg.aControl c.control] ++
        c.data.map (gotByte s.cfg.aFifoData) else []) (e.scripted rest)) := by
  have judged := judged s
  have judged_high : s.judgeClear.rst = .high := (judgeClear_rst s).trans high
  have judged_env : s.judgeClear.env = s.env := judgeClear_env s
  rw [toCardClear, bind_update, bind_current]
  generalize s.judgeClear = w at judged judged_high judged_env ⊢
  rw [← judged.cmd, ← judged.cfg] at transceive
  cases drains with
  | true =>
    rw [if_pos (transceive.mp rfl), ← judged.cfg]
    exact toCardLenDrain_script judged_high (judged_env.trans env) (count rfl)
  | false =>
    rw [if_neg (by simpa using transceive), pure_run]
    exact congrArg _ ((withEnv_eq_self (judged_env.trans env)).symm.trans (sent_nil _ _).symm)

/-- Steps 7 and 8, given whether the polls ran out and that a drain gets its bytes. -/
theorem toCardCheck_script (timeout : s.cnt = 0 ↔ c.timedOut = true)
    (count : c.drained s.cfg s.cmd = true → c.data.length = drainCount c.level)
    (env : s.env = e.scripted (c.checkReads s.cfg s.cmd ++ rest)) :
    toCardCheck s = .ok () ((s.checked c).sent (c.checkEvents s.cfg s.cmd) (e.scripted rest)) := by
  rw [toCardCheck, bind_update, bind_current]
  by_cases timedOut : c.timedOut = true
  · have not_drained : ¬ c.drained s.cfg s.cmd = true := fun drained => by
      cases (ChipAnswers.drained_iff.mp drained).1.symm.trans timedOut
    rw [ChipAnswers.checkReads, if_pos timedOut, if_neg not_drained] at env
    rw [if_pos (show (s.setPhase .check).cnt = 0 from timeout.mpr timedOut), State.checked,
      if_pos timedOut, ChipAnswers.checkEvents, if_pos timedOut, if_neg not_drained]
    simpa [State.sent, State.setCause, State.setPhase] using env
  · rw [if_neg (show ¬ (s.setPhase .check).cnt = 0 from mt timeout.mp timedOut)]
    rw [ChipAnswers.checkReads, if_neg timedOut] at env
    rw [State.checked, if_neg timedOut, ChipAnswers.checkEvents, if_neg timedOut]
    refine ok_bind (readReg_script (s := s.setPhase .check) high env _) ?_
    rw [bind_update]
    by_cases clear : errorClear c.error = true
    · have transceive : c.drained s.cfg s.cmd = true ↔ s.cmd = s.cfg.cmdTransceive := by
        simp [ChipAnswers.drained_iff, timedOut, clear]
      rw [if_pos clear, if_pos clear]
      refine (toCardClear_script (s := ((s.setPhase .check).sent
        [gotByte s.cfg.aError c.error] _).setErr c.error) (e := e) (c := c) (rest := rest)
        high transceive rfl count).trans ?_
      have judged (env' : Env) : (((s.setPhase .check).sent [gotByte s.cfg.aError c.error]
          env').setErr c.error).judgeClear = _ :=
        sent_judgeClear ((s.setPhase .check).setErr c.error) _ _
      rw [judged]
      cases c.drained s.cfg s.cmd with
      | true => simp [State.sent, received_eq, State.measure, State.setLevel]
      | false => simp [State.sent]
    · have not_drained : ¬ c.drained s.cfg s.cmd = true := fun drained =>
        clear (ChipAnswers.drained_iff.mp drained).2.1
      rw [if_neg clear, if_neg clear, if_neg not_drained, if_neg not_drained]
      rfl

end Check

/-! ### A whole command on the scripted bus (R173) -/

/-- The registers at the check: the masks, the sent bytes, the last poll and the counter. -/
def State.polledBy (s : State) (cmd : Byte) (c : ChipAnswers) : State :=
  (((s.beginCommand cmd).setIndex (BitVec.ofNat 5 s.txBytes.length)).polled c.last
    (2000 - (c.before.length + 1))).setPhase .stop

/-- The stop bits are the timer bit and the wait mask (R152, R159). -/
theorem stopBits_eq (p : Params) (cmd : Byte) : stopBits p cmd = 0x01 ||| waitMask p cmd := by
  unfold stopBits waitMask
  split
  · rfl
  · split <;> rfl

theorem and_stopBits_eq_zero_iff (p : Params) (cmd v : Byte) :
    v &&& stopBits p cmd = 0 ↔ v &&& 0x01 = 0 ∧ v &&& waitMask p cmd = 0 := by
  rw [stopBits_eq, BitVec.and_or_distrib_left]
  exact BitVec.or_eq_zero_iff

theorem enableValue_eq (p : Params) (cmd : Byte) :
    enableValue p cmd = orMask (enableMask p cmd) ienTop := by
  unfold enableValue enableMask
  split
  · rfl
  · split <;> rfl

/-- A run of a command on answers that fit: its registers, all its frames, and what is left of the
script. -/
theorem runCommand_script {s : State} {e : Env} {c : ChipAnswers} {cmd : Byte} {rest : List Byte}
    (high : s.rst = .high) (fits : c.Fits s.cfg cmd)
    (env : s.env = e.scripted (c.reads s.cfg cmd ++ rest)) :
    runCommand cmd s = .ok () ((((s.polledBy cmd c).checked c).setPhase .idle).sent
      (c.events s.cfg cmd s.txBytes) (e.scripted rest)) := by
  have bound := fits.bound
  have counter : (BitVec.ofNat 11 (2000 - (c.before.length + 1))).toNat =
      2000 - (c.before.length + 1) := by
    rw [BitVec.toNat_ofNat]
    omega
  have stops : pollStops (2000 - (c.before.length + 1)) c.last (waitMask s.cfg cmd) = true := by
    rw [pollStops_iff]
    by_cases timedOut : c.timedOut = true
    · left
      have last_poll : c.before.length = 1999 := by simpa [ChipAnswers.timedOut] using timedOut
      omega
    · right
      have signal := mt (and_stopBits_eq_zero_iff s.cfg cmd c.last).mpr
        (fits.stops (by simpa using timedOut))
      tauto
  have reads : c.reads s.cfg cmd ++ rest = c.comIrq :: c.flush ::
      ((if cmd = s.cfg.cmdTransceive then [c.framing] else []) ++
        (c.before ++ c.last :: (c.framingAfter :: (c.checkReads s.cfg cmd ++ rest)))) := by
    simp [ChipAnswers.reads, ChipAnswers.checkReads]
  rw [reads] at env
  rw [runCommand, bind_update]
  refine ok_bind (toCardArm_script (s := s.beginCommand cmd) high env) ?_
  refine ok_bind (toCardLoad_script (s := ((s.beginCommand cmd).setPhase .arm).sent _ _) high rfl) ?_
  rw [sent_setPhase', sent_setIndex', sent_sent, setPhase_setPhase, setPhase_setIndex, sent_txBytes,
    setPhase_txBytes]
  refine ok_bind (toCardStart_script (s := (((s.beginCommand cmd).setIndex _).setPhase .load).sent _ _)
    (framing := c.framing) high rfl) ?_
  rw [sent_setPhase', sent_sent, setPhase_setPhase]
  refine ok_bind (toCardPoll_script (s := (((s.beginCommand cmd).setIndex _).setPhase .start).sent _ _)
    high rfl (by omega) (fun v mem => (and_stopBits_eq_zero_iff _ _ v).mp (fits.goesOn v mem))
    stops) ?_
  rw [sent_setPhase', sent_polled', sent_sent, setPhase_setPhase, setPhase_polled]
  refine ok_bind (toCardStop_script
    (s := ((((s.beginCommand cmd).setIndex _).polled _ _).setPhase .poll).sent _ _) high rfl) ?_
  rw [sent_setPhase', sent_sent, setPhase_setPhase]
  change (toCardCheck >>= _) ((s.polledBy cmd c).sent _ _) = _
  refine ok_bind (toCardCheck_script (s := (s.polledBy cmd c).sent _ _) (e := e) (c := c)
    (rest := rest) high ?_ ?_ rfl) ?_
  · change BitVec.ofNat 11 _ = 0 ↔ _
    rw [← BitVec.toNat_inj, counter, show (0 : BitVec 11).toNat = 0 from rfl, ChipAnswers.timedOut,
      beq_iff_eq]
    omega
  · intro drained
    rw [drainCount_eq_max_min]
    exact fits.count drained
  · rw [bind_update, update_run, sent_checked, sent_sent, sent_setPhase', sent_setPhase',
      setPhase_setPhase]
    have top_cleared : c.comIrq &&& 0x7F = andNotMask c.comIrq irqTop := rfl
    have flushed : c.flush ||| 0x80 = orMask c.flush fifoFlush := rfl
    rw [ChipAnswers.events, enableValue_eq, top_cleared, flushed]
    refine congrArg (fun x => EStateM.Result.ok () (State.sent _ x _)) ?_
    simp only [ChipAnswers.checkEvents, List.append_assoc]
    rfl

end Sys2Proof.Machine
end

section

namespace Sys2Proof.Machine

/-! ### The result of a scripted command (R164 to R172) -/

/-- The registers hold the result and the cause of a command on these answers. -/
structure Answered (c : ChipAnswers) (p : Params) (cmd : Byte) (u : State) : Prop where
  status : u.status = c.status p cmd
  cause : u.cause = c.cause p cmd
  resp : u.respBytes = c.resp p cmd
  respLen : u.respLen = BitVec.ofNat 5 (c.resp p cmd).length
  bitlen : u.bitlen = BitVec.ofInt 12 (c.bitlen p cmd)

/-- The timer bit of the last poll is seen by TRANSCEIVE alone (R152, R165). -/
theorem timerSeen_enableMask_iff {p : Params} (codes_differ : p.cmdAuthent ≠ p.cmdTransceive)
    (cmd v : Byte) :
    timerSeen v (enableMask p cmd) = true ↔ cmd = p.cmdTransceive ∧ v &&& 0x01 ≠ 0 := by
  by_cases transceive : cmd = p.cmdTransceive
  · rw [timerSeen_iff, enableMask, transceive, if_neg codes_differ.symm, if_pos rfl, BitVec.and_assoc,
      show (0x77 : Byte) &&& 0x01 = 0x01 from rfl]
    simp
  · simp [timerSeen_of_not_transceive v transceive, transceive]

theorem respBytes_of_respLen_zero {u : State} (h : u.respLen = 0) : u.respBytes = [] := by
  rw [State.respBytes, validBytes, h]
  rfl

/-- A command that drains nothing has an empty response and a bit length of zero. -/
theorem Answered.of_not_drained {c : ChipAnswers} {p : Params} {cmd : Byte} {u : State}
    (not_drained : c.drained p cmd = false) (status : u.status = c.status p cmd)
    (cause : u.cause = c.cause p cmd) (no_resp : u.respLen = 0) (no_bits : u.bitlen = 0) :
    Answered c p cmd u := by
  have resp : c.resp p cmd = [] := by rw [ChipAnswers.resp, not_drained, if_neg (by simp)]
  have bitlen : c.bitlen p cmd = 0 := by rw [ChipAnswers.bitlen, not_drained, if_neg (by simp)]
  exact ⟨status, cause, by rw [resp, respBytes_of_respLen_zero no_resp], by rw [resp, no_resp]; rfl,
    by rw [bitlen, no_bits]; rfl⟩

section Answers

variable {s : State} {c : ChipAnswers} {cmd : Byte}

/-- The judgement with the error bits clear, on the last poll. -/
theorem judged_polledBy (codes_differ : s.cfg.cmdAuthent ≠ s.cfg.cmdTransceive) :
    let w := (((s.polledBy cmd c).setPhase .check).setErr c.error).judgeClear
    w.status = (if cmd = s.cfg.cmdTransceive ∧ c.last &&& 0x01 ≠ 0 then .noTag else .ok) ∧
      w.cause = (if cmd = s.cfg.cmdTransceive ∧ c.last &&& 0x01 ≠ 0 then .noTag else .none) ∧
      w.respLen = 0 ∧ w.bitlen = 0 := by
  intro w
  have j : Judged (((s.polledBy cmd c).setPhase .check).setErr c.error) w := judged _
  have seen : timerSeen w.irq w.irqEn = true ↔ cmd = s.cfg.cmdTransceive ∧ c.last &&& 0x01 ≠ 0 := by
    rw [j.irq, j.irqEn]
    exact timerSeen_enableMask_iff codes_differ cmd c.last
  have status := j.status
  have cause := j.cause
  simp only [seen] at status cause
  exact ⟨status, cause, j.respLen, j.bitlen⟩

/-- The registers a scripted command leaves hold its result. -/
theorem answered_checked (codes_differ : s.cfg.cmdAuthent ≠ s.cfg.cmdTransceive)
    (fits : c.Fits s.cfg cmd) :
    Answered c s.cfg cmd (((s.polledBy cmd c).checked c).setPhase .idle) := by
  obtain ⟨status, cause, no_resp, no_bits⟩ := judged_polledBy (c := c) (cmd := cmd) codes_differ
  have drained_iff := ChipAnswers.drained_iff (c := c) (p := s.cfg) (cmd := cmd)
  have clear_iff := ChipAnswers.clear_iff (c := c)
  have same_drained : c.drained (s.polledBy cmd c).cfg (s.polledBy cmd c).cmd =
      c.drained s.cfg cmd := rfl
  rw [State.checked, same_drained]
  generalize (((s.polledBy cmd c).setPhase .check).setErr c.error).judgeClear = w at *
  by_cases timedOut : c.timedOut = true
  · rw [if_pos timedOut]
    refine .of_not_drained ?_ ?_ ?_ rfl rfl
    · simp [← Bool.not_eq_true, drained_iff, timedOut]
    · simp [ChipAnswers.status, ← Bool.not_eq_true, clear_iff, timedOut, State.polledBy]
    · simp [ChipAnswers.cause, timedOut]
  · rw [if_neg timedOut]
    by_cases clear : errorClear c.error = true
    · have is_clear : c.clear = true := clear_iff.mpr ⟨by simpa using timedOut, clear⟩
      have answered_status := status.trans (b := _) (c := c.status s.cfg cmd)
        (by rw [ChipAnswers.status, is_clear, Bool.not_true, if_neg Bool.false_ne_true])
      have answered_cause := cause.trans (b := _) (c := c.cause s.cfg cmd)
        (by rw [ChipAnswers.cause, if_neg timedOut, is_clear, Bool.not_true,
          if_neg Bool.false_ne_true])
      rw [if_pos clear]
      by_cases drained : c.drained s.cfg cmd = true
      · rw [if_pos drained]
        have resp : c.resp s.cfg cmd = c.data := if_pos drained
        have bitlen : c.bitlen s.cfg cmd = bitLength c.level (lastBitsOf c.control) := by
          rw [ChipAnswers.bitlen, if_pos drained, bitLength_lastBitsOf]
        have fits_buffer : c.data.length ≤ 16 := by
          have count := fits.count drained
          omega
        exact ⟨answered_status, answered_cause,
          (respBytes_received _ fits_buffer).trans resp.symm,
          by rw [resp, setPhase_respLen, received_eq],
          by rw [bitlen]; rfl⟩
      · rw [if_neg drained]
        exact .of_not_drained (by simpa using drained) answered_status
          answered_cause no_resp no_bits
    · rw [if_neg clear]
      refine .of_not_drained ?_ ?_ ?_ rfl rfl
      · simp [← Bool.not_eq_true, drained_iff, clear]
      · simp [ChipAnswers.status, ← Bool.not_eq_true, clear_iff, clear, State.polledBy]
      · simp [ChipAnswers.cause, ← Bool.not_eq_true, clear_iff, clear, timedOut]

end Answers

/-- Steps 7 and 8 leave the trace to their frames. -/
theorem checked_trace (s : State) (c : ChipAnswers) : (s.checked c).trace = s.trace := by
  have judged := (judged ((s.setPhase .check).setErr c.error)).trace
  unfold State.checked
  by_cases timedOut : c.timedOut = true
  · rw [if_pos timedOut]
    rfl
  · rw [if_neg timedOut]
    by_cases clear : errorClear c.error = true
    · rw [if_pos clear]
      split <;> exact judged
    · rw [if_neg clear]
      rfl

/-- A scripted command, from a state that may have a trace: its result, its frames, and what is left of
the script. -/
theorem runCommand_answered {s : State} {c : ChipAnswers} {cmd : Byte} {rest : List Byte}
    (high : s.rst = .high) (codes_differ : s.cfg.cmdAuthent ≠ s.cfg.cmdTransceive)
    (fits : c.Fits s.cfg cmd) (bus : s.env.bus = .script (c.reads s.cfg cmd ++ rest)) :
    ∃ u, runCommand cmd s = .ok () u ∧ Answered c s.cfg cmd u ∧
      u.env = { s.env with bus := .script rest } ∧
      u.trace = s.trace ++ c.events s.cfg cmd s.txBytes := by
  have run := runCommand_script high fits (eq_scripted bus)
  have answered := answered_checked codes_differ fits
  refine ⟨_, run, ⟨answered.status, answered.cause, answered.resp, answered.respLen, answered.bitlen⟩,
    rfl, congrArg (· ++ _) (checked_trace (s.polledBy cmd c) c)⟩

end Sys2Proof.Machine
end

section

namespace Sys2Proof.Machine

/-- Settles O31: the scripted command's registers give the result, and its frames and its reads are
those of the closed form. -/
theorem commandSendsTheseFrames : Obligations.CommandSendsTheseFrames := by
  rintro s i cmd c rest ⟨outside, opened, high⟩ ⟨-, -, codes_differ⟩ wf chip fits bus
  have not_init := ne_init (.inr (runsCommand_of_chipCommand chip))
  obtain ⟨u, run, answered, env, trace⟩ := runCommand_answered (s := loaded s i) (c := c) (cmd := cmd)
    (rest := rest) (by simpa) (by simpa) (by simpa) (by simpa)
  have ends : operationOf s.cfg i s = .ok (.result u.status u.respBytes u.bitlen) u := by
    rw [operationOf_chipCommand chip, bind_of_ok run]
    rfl
  have fault := (idle_runCommand _ _ _ _ run).1
  simp only [loaded_cfg, loaded_env, loaded_trace, loaded_txBytes wf, loaded_fault]
    at answered env trace fault
  refine ⟨_, exec_of_ok (denialOf_admitted ⟨outside, opened⟩ not_init wf) ends, ?_, answered.cause,
    fault.trans outside, env, trace⟩
  rw [← answered.status, ← answered.resp, ← answered.bitlen]
  rfl

/-! ### REQUEST and ANTICOLL as a framing write, a TRANSCEIVE and a judgement (R190, R192) -/

/-- The state the command of a card operation begins in, once the framing write is answered. -/
def State.framed (s : State) (framing : Byte) (rx : List Byte) (e : Env) (tx : List Byte) : State :=
  ((s.setCause .none).sent [.bus (writeFrame s.cfg.aBitFraming framing) rx] e).loadTx tx

/-- REQUEST's and ANTICOLL's common course. -/
def cardOperation (framing : Byte) (tx : List Byte) (judge : State → State) : Op Status := do
  update (·.setCause .none)
  let s ← current
  writeReg s.cfg.aBitFraming framing
  toCard s.cfg.cmdTransceive tx
  update judge
  let t ← current
  pure t.status

theorem request_eq (mode : Byte) :
    request mode = cardOperation framingShort [mode] State.judgeRequest := rfl

theorem anticoll_run (s : State) : anticoll s =
    cardOperation framingFull [s.cfg.piccAnticoll, nvbAnticoll] State.judgeAnticoll s := rfl

section CardOperation

variable {framing : Byte} {tx : List Byte} {judge : State → State} {s : State}

/-- It ends well exactly when its framing write and its command do. -/
theorem cardOperation_ok {st : Status} {t : State} (h : cardOperation framing tx judge s = .ok st t) :
    ∃ rx e u, runCommand s.cfg.cmdTransceive (s.framed framing rx e tx) = .ok () u ∧ t = judge u ∧
      st = t.status := by
  rw [cardOperation, bind_update, bind_current] at h
  obtain ⟨_, v, write, rest⟩ := bind_ok_iff.mp h
  obtain ⟨-, rx, e, -, rfl⟩ := writeReg_ok_iff.mp write
  obtain ⟨_, u, run, rest⟩ := bind_ok_iff.mp rest
  rw [bind_update, bind_current] at rest
  cases rest
  exact ⟨rx, e, u, run, rfl, rfl⟩

/-- On the scripted bus the framing write is answered and reads nothing. -/
theorem cardOperation_script {reads : List Byte} {u : State} (high : s.rst = .high)
    (bus : s.env.bus = .script reads)
    (run : runCommand s.cfg.cmdTransceive (s.framed framing [0, 0] s.env tx) = .ok () u) :
    cardOperation framing tx judge s = .ok (judge u).status (judge u) := by
  have write : writeReg s.cfg.aBitFraming framing (s.setCause .none) =
      .ok () ((s.setCause .none).sent [wrote s.cfg.aBitFraming framing] s.env) :=
    writeReg_ok high (script_write bus _ _)
  rw [cardOperation, bind_update, bind_current]
  refine ok_bind write (ok_bind run ?_)
  rw [bind_update, bind_current]
  rfl

/-- A card operation on the scripted bus: the result of its command, and its frames. -/
theorem cardOperation_answered {c : ChipAnswers} {rest : List Byte} (high : s.rst = .high)
    (codes_differ : s.cfg.cmdAuthent ≠ s.cfg.cmdTransceive) (length_le : tx.length ≤ 16)
    (fits : c.Fits s.cfg s.cfg.cmdTransceive)
    (bus : s.env.bus = .script (c.reads s.cfg s.cfg.cmdTransceive ++ rest)) :
    ∃ u, cardOperation framing tx judge s = .ok (judge u).status (judge u) ∧
      Answered c s.cfg s.cfg.cmdTransceive u ∧ u.fault = s.fault ∧ u.uid = s.uid ∧
      u.env = { s.env with bus := .script rest } ∧
      u.trace = s.trace ++
        wrote s.cfg.aBitFraming framing :: c.events s.cfg s.cfg.cmdTransceive tx := by
  obtain ⟨u, run, answered, env, trace⟩ := runCommand_answered
    (s := s.framed framing [0, 0] s.env tx) (c := c) (cmd := s.cfg.cmdTransceive) (rest := rest) high
    codes_differ fits bus
  have change := runCommand_change s.cfg.cmdTransceive (s.framed framing [0, 0] s.env tx)
  rw [run] at change
  refine ⟨u, cardOperation_script high bus run, answered, (idle_runCommand _ _ _ _ run).1, change.uid,
    env, ?_⟩
  rw [trace, State.framed, txBytes_loadTx _ _ length_le]
  simp [wrote]

end CardOperation

/-- What a command that ends well leaves, as the card protocol looks at it (R177). -/
theorem runCommand_outcome {s u : State} (run : runCommand s.cfg.cmdTransceive s = .ok () u) :
    CommandOutcome u.cfg.cmdTransceive u ∧ u.pc = .idle ∧ u.fault = s.fault ∧ u.uid = s.uid := by
  obtain ⟨_, _, _, _, _, _, done⟩ := runCommand_done run
  have change := runCommand_change s.cfg.cmdTransceive s
  rw [run] at change
  have outcome := done.row.outcome done.masks
  rw [← done.cfg] at outcome
  exact ⟨outcome, done.pc, done.fault, change.uid⟩

/-! ### The status rule of REQUEST (R191) -/

theorem requestOk_iff (st : Status) (bits : BitVec 12) :
    requestOk st bits = true ↔ st = .ok ∧ bits = 16 := by simp [requestOk]

section JudgeRequest

variable {u : State}

theorem judgeRequest_of_ok (status : u.status = .ok) (bits : u.bitlen = 16) : u.judgeRequest = u := by
  rw [State.judgeRequest, if_pos ((requestOk_iff _ _).mpr ⟨status, bits⟩), setStatus_eq_self status]

theorem judgeRequest_of_length (status : u.status = .ok) (bits : u.bitlen ≠ 16) :
    u.judgeRequest = (u.setCause .frameLengthError).setStatus .error := by
  rw [State.judgeRequest, if_neg fun ok => bits ((requestOk_iff _ _).mp ok).2, if_pos status]

theorem judgeRequest_of_not_ok (status : u.status ≠ .ok) : u.judgeRequest = u.setStatus .error := by
  rw [State.judgeRequest, if_neg fun ok => status ((requestOk_iff _ _).mp ok).1, if_neg status]

theorem judgeRequest_status :
    u.judgeRequest.status = if requestOk u.status u.bitlen then .ok else .error := by
  unfold State.judgeRequest
  split
  · rfl
  · split <;> rfl

theorem judgeRequest_frame : u.judgeRequest.respLen = u.respLen ∧ u.judgeRequest.resp = u.resp ∧
    u.judgeRequest.env = u.env ∧ u.judgeRequest.trace = u.trace := by
  unfold State.judgeRequest
  split
  · exact ⟨rfl, rfl, rfl, rfl⟩
  · split <;> exact ⟨rfl, rfl, rfl, rfl⟩

end JudgeRequest

/-- Sixteen bits are two whole bytes: no other level and last bits give that number (R168). -/
theorem bitLength_eq_sixteen_iff (n : Byte) (lastBits : BitVec 3) :
    bitLength n lastBits = 16 ↔ n = 2 ∧ lastBits = 0 := by
  have lastBits_lt := lastBits.isLt
  have level : n = 2 ↔ n.toNat = 2 := (BitVec.toNat_inj (y := 2)).symm
  have last : lastBits = 0 ↔ lastBits.toNat = 0 := (BitVec.toNat_inj (y := 0)).symm
  rw [bitLength, level]
  split <;> rename_i whole <;> rw [last] at whole ⊢ <;> omega

theorem toInt_eq_sixteen_iff (bits : BitVec 12) : bits.toInt = 16 ↔ bits = 16 :=
  BitVec.toInt_inj (y := 16)

/-- The outcomes of REQUEST, from the row its command ended in. -/
theorem judgeRequest_outcome {u : State} (outcome : CommandOutcome u.cfg.cmdTransceive u) :
    let t := u.judgeRequest
    (t.status = .ok ∧ t.cause = .none ∧ t.bitlen = 16 ∧ t.respLen = 2 ∧ t.n = 2 ∧ t.lastBits = 0) ∨
    (t.status = .error ∧ t.cause = .frameLengthError ∧ t.bitlen ≠ 16 ∧ t.respLen ≠ 0) ∨
    (t.status = .error ∧ t.cause = .protocolTimeout ∧ t.respLen = 0) ∨
    (t.status = .error ∧ t.cause = .readerErrorBits ∧ t.respLen = 0) ∨
    (t.status = .error ∧ t.cause = .noTag ∧ t.respLen ≠ 0) := by
  rcases outcome with ⟨-, status, len, -, cause⟩ | ⟨-, -, status, len, -, cause⟩ |
    ⟨-, -, -, judged, len, bits⟩ | ⟨-, -, other, -⟩
  · rw [judgeRequest_of_not_ok (by simp [status])]
    exact .inr (.inr (.inl ⟨rfl, cause, len⟩))
  · rw [judgeRequest_of_not_ok (by simp [status])]
    exact .inr (.inr (.inr (.inl ⟨rfl, cause, len⟩)))
  · have nonempty : u.respLen ≠ 0 := by
      intro empty
      rw [empty, show (0 : BitVec 5).toNat = 0 from rfl] at len
      omega
    rcases judged with ⟨-, status, cause⟩ | ⟨-, status, cause⟩
    · by_cases sixteen : u.bitlen = 16
      · rw [judgeRequest_of_ok status sixteen]
        rw [(toInt_eq_sixteen_iff _).mpr sixteen] at bits
        obtain ⟨level, last⟩ := (bitLength_eq_sixteen_iff u.n u.lastBits).mp bits.symm
        rw [level] at len
        exact .inl ⟨status, cause, sixteen, BitVec.eq_of_toNat_eq len, level, last⟩
      · rw [judgeRequest_of_length status sixteen]
        exact .inr (.inl ⟨rfl, rfl, sixteen, nonempty⟩)
    · rw [judgeRequest_of_not_ok (by simp [status])]
      exact .inr (.inr (.inr (.inr ⟨rfl, cause, nonempty⟩)))
  · exact absurd rfl other

/-- On the script, REQUEST's test is that the chip answers sixteen bits. -/
theorem requestOk_answered {c : ChipAnswers} {p : Params} {u : State}
    (answered : Answered c p p.cmdTransceive u) : requestOk u.status u.bitlen = c.sixteenBits := by
  rw [answered.status, answered.bitlen, Bool.eq_iff_iff, requestOk_iff]
  cases clear : c.clear with
  | false => simp [ChipAnswers.status, ChipAnswers.sixteenBits, clear]
  | true =>
    have bitlen : c.bitlen p p.cmdTransceive = bitLength c.level (lastBitsOf c.control) := by
      rw [ChipAnswers.bitlen, bitLength_lastBitsOf, ChipAnswers.drained, clear]
      simp
    have sixteen : BitVec.ofInt 12 (c.bitlen p p.cmdTransceive) = 16 ↔
        c.level = 2 ∧ c.control &&& 0x07 = 0 := by
      rw [bitlen, ← toInt_eq_sixteen_iff, ← bitLengthReg, bitLengthReg_toInt,
        bitLength_eq_sixteen_iff, lastBitsOf_eq_zero_iff]
    rw [sixteen]
    simp [ChipAnswers.status, ChipAnswers.sixteenBits, clear, and_assoc]

/-- REQUEST and its card frame run REQUEST of a mode. -/
theorem operationOf_request {p : Params} {i : Instr} {mode : Byte}
    (h : i = .request mode ∨ (i = .piccRequest ∧ mode = p.piccReqidl)) :
    operationOf p i = (request mode >>= fun st => pure (.status st)) ∧
      ∀ s : State, denialOf s i = s.admission := by
  rcases h with rfl | ⟨rfl, rfl⟩ <;> exact ⟨rfl, fun _ => rfl⟩

/-- Settles O38: the row of its TRANSCEIVE decides what REQUEST reports; on the script the sixteen bits
do. -/
theorem requestReportsSixteenBitsOrError : Obligations.RequestReportsSixteenBitsOrError := by
  refine ⟨?_, ?_⟩
  · rintro s i ⟨outside, opened, high⟩ noFailure kind
    obtain ⟨mode, form⟩ : ∃ mode, i = .request mode ∨
        (i = .piccRequest ∧ mode = s.cfg.piccReqidl) := by
      rcases kind with rfl | ⟨mode, rfl⟩
      · exact ⟨_, .inr ⟨rfl, rfl⟩⟩
      · exact ⟨mode, .inl rfl⟩
    obtain ⟨operation, denial⟩ := operationOf_request form
    obtain ⟨st, t, run, -, -⟩ := ends_request mode s high noFailure
    obtain ⟨rx, e, u, command, rfl, rfl⟩ := cardOperation_ok run
    obtain ⟨outcome, pc, fault, -⟩ := runCommand_outcome command
    obtain ⟨fault', pc'⟩ := judgeRequest_keeps u
    have ends : operationOf s.cfg i s = .ok (.status u.judgeRequest.status) u.judgeRequest := by
      rw [operation]
      exact bind_of_ok run
    exact ⟨_, exec_of_ok ((denial s).trans (admission_none.mpr ⟨outside, opened⟩)) ends,
      (fault'.trans fault).trans outside, pc'.trans pc, rfl,
      judgeRequest_outcome outcome⟩
  · rintro s i mode c rest ⟨outside, opened, high⟩ ⟨-, -, codes_differ⟩ form fits bus
    obtain ⟨operation, denial⟩ := operationOf_request form
    obtain ⟨u, run, answered, fault, -, env, trace⟩ := cardOperation_answered
      (framing := framingShort) (tx := [mode]) (judge := State.judgeRequest) high codes_differ
      (by simp) fits bus
    obtain ⟨len, resp, env', trace'⟩ := judgeRequest_frame (u := u)
    have ends : operationOf s.cfg i s = .ok (.status u.judgeRequest.status) u.judgeRequest := by
      rw [operation]
      exact bind_of_ok (x := request mode) run
    refine ⟨_, exec_of_ok ((denial s).trans (admission_none.mpr ⟨outside, opened⟩)) ends,
      ((judgeRequest_keeps u).1.trans fault).trans outside, ?_, ?_,
      env'.trans env, trace'.trans trace⟩
    · rw [← requestOk_answered answered, ← judgeRequest_status]
      rfl
    · rw [← answered.resp]
      simp [State.respBytes, len, resp]

/-! ### The validation of ANTICOLL (R193) -/

/-- The five bytes of a UID are the first five of the response. -/
theorem uidOfResp_bytes (v : Vector Byte 16) : (uidOfResp v).bytes = v.toList.take 5 := by
  obtain ⟨⟨bytes⟩, size⟩ := v
  match bytes, size with
  | [a, b, c, d, e, _, _, _, _, _, _, _, _, _, _, _], _ => rfl

theorem uid_bytes_injective {u v : Uid} (h : u.bytes = v.bytes) : u = v := by
  cases u
  cases v
  simpa [Uid.bytes] using h

section JudgeAnticoll

variable {u : State}

theorem judgeAnticoll_of_not_ok (status : u.status ≠ .ok) : u.judgeAnticoll = u := by
  rw [State.judgeAnticoll, if_neg status]

theorem judgeAnticoll_of_length (status : u.status = .ok) (length : u.respLen ≠ 5) :
    u.judgeAnticoll = (u.setStatus .error).setCause .frameLengthError := by
  have verdict : anticollVerdict u.respLen (uidOfResp u.resp) = .badLength := if_pos length
  simp only [State.judgeAnticoll, if_pos status, verdict]

theorem judgeAnticoll_frame :
    u.judgeAnticoll.env = u.env ∧ u.judgeAnticoll.trace = u.trace := by
  unfold State.judgeAnticoll
  split
  · split <;> exact ⟨rfl, rfl⟩
  · exact ⟨rfl, rfl⟩

/-- Five bytes are the whole response. -/
theorem uidOfResp_bytes_of_five (five : u.respLen = 5) : (uidOfResp u.resp).bytes = u.respBytes := by
  rw [uidOfResp_bytes, State.respBytes, validBytes, five]
  rfl

end JudgeAnticoll

/-- The outcomes of ANTICOLL, from the row its command ended in. -/
theorem judgeAnticoll_outcome {u : State} (outcome : CommandOutcome u.cfg.cmdTransceive u) :
    let t := u.judgeAnticoll
    (t.status = .ok ∧ t.cause = .none ∧ t.respLen = 5 ∧ t.uid.bytes = t.respBytes ∧
      t.uid.b0 ^^^ t.uid.b1 ^^^ t.uid.b2 ^^^ t.uid.b3 = t.uid.b4) ∨
    (t.status = .error ∧ t.uid = u.uid ∧
      ((t.cause = .frameLengthError ∧ t.respLen ≠ 5) ∨ (t.cause = .checksumError ∧ t.respLen = 5) ∨
       (t.cause = .protocolTimeout ∧ t.respLen = 0) ∨ (t.cause = .readerErrorBits ∧ t.respLen = 0))) ∨
    (t.status = .noTag ∧ t.cause = .noTag ∧ t.uid = u.uid) := by
  rcases outcome with ⟨-, status, len, -, cause⟩ | ⟨-, -, status, len, -, cause⟩ |
    ⟨-, -, -, judged, -, -⟩ | ⟨-, -, other, -⟩
  · rw [judgeAnticoll_of_not_ok (by simp [status])]
    exact .inr (.inl ⟨status, rfl, .inr (.inr (.inl ⟨cause, len⟩))⟩)
  · rw [judgeAnticoll_of_not_ok (by simp [status])]
    exact .inr (.inl ⟨status, rfl, .inr (.inr (.inr ⟨cause, len⟩))⟩)
  · rcases judged with ⟨-, status, cause⟩ | ⟨-, status, cause⟩
    · by_cases five : u.respLen = 5
      · by_cases valid : uidValid (uidOfResp u.resp) = true
        · rw [judgeAnticoll_of_uidValid status five valid]
          exact .inl ⟨status, cause, five, uidOfResp_bytes_of_five five, (uidValid_iff _).mp valid⟩
        · rw [judgeAnticoll_of_not_uidValid status five valid]
          exact .inr (.inl ⟨rfl, rfl, .inr (.inl ⟨rfl, five⟩)⟩)
      · rw [judgeAnticoll_of_length status five]
        exact .inr (.inl ⟨rfl, rfl, .inl ⟨rfl, five⟩⟩)
    · rw [judgeAnticoll_of_not_ok (by simp [status])]
      exact .inr (.inr ⟨status, cause, rfl⟩)
  · exact absurd rfl other

/-- What ANTICOLL gives back: its status, with the UID on success alone. -/
theorem anticoll_gives {s t : State} {st : Status} (run : anticoll s = .ok st t) :
    (anticoll >>= anticollResult) s = .ok (.statusUid st (if st = .ok then some t.uid else none)) t :=
  bind_of_ok run

/-- On the script, ANTICOLL succeeds with this UID exactly when the chip gives it. -/
theorem judgeAnticoll_gives_iff {c : ChipAnswers} {p : Params} {u : State} (v : Uid)
    (fits : c.Fits p p.cmdTransceive) (answered : Answered c p p.cmdTransceive u) :
    u.judgeAnticoll.status = .ok ∧ u.judgeAnticoll.uid = v ↔ c.GivesUid v := by
  have not_ok (failed : u.judgeAnticoll.status ≠ .ok) (not_given : ¬ c.GivesUid v) :
      u.judgeAnticoll.status = .ok ∧ u.judgeAnticoll.uid = v ↔ c.GivesUid v :=
    iff_of_false (fun ok => failed ok.1) not_given
  have status := answered.status
  by_cases good : c.clear = true ∧ c.last &&& 0x01 = 0
  · obtain ⟨clear, quiet⟩ := good
    have drained : c.drained p p.cmdTransceive = true := by simp [ChipAnswers.drained, clear]
    have resp : c.resp p p.cmdTransceive = c.data := if_pos drained
    have ok : u.status = .ok := by
      rw [status, ChipAnswers.status, clear, Bool.not_true, if_neg Bool.false_ne_true,
        if_neg fun seen => seen.2 quiet]
    have count := fits.count drained
    have bytes := answered.resp
    have len := answered.respLen
    rw [resp] at bytes len
    by_cases five : c.data.length = 5
    · rw [five] at len
      have data : (uidOfResp u.resp).bytes = c.data := (uidOfResp_bytes_of_five len).trans bytes
      have checksum := uidValid_iff_xor_eq_zero (uidOfResp u.resp)
      by_cases valid : uidValid (uidOfResp u.resp) = true
      · rw [judgeAnticoll_of_uidValid ok len valid]
        constructor
        · rintro ⟨-, rfl⟩
          exact ⟨clear, quiet, data.symm, checksum.mp valid⟩
        · rintro ⟨-, -, given, -⟩
          exact ⟨ok, uid_bytes_injective (data.trans given)⟩
      · refine not_ok ?_ fun given => valid (checksum.mpr ?_)
        · rw [judgeAnticoll_of_not_uidValid ok len valid]
          simp
        · obtain ⟨-, -, bytes_given, xor⟩ := given
          rwa [uid_bytes_injective (data.trans bytes_given)]
    · refine not_ok ?_ fun given => five (by rw [given.2.2.1]; rfl)
      rw [judgeAnticoll_of_length ok ?_]
      · simp
      · intro respLen_five
        have := congrArg BitVec.toNat (len.symm.trans respLen_five)
        rw [BitVec.toNat_ofNat, show (5 : BitVec 5).toNat = 5 from rfl] at this
        omega
  · have bad : u.status ≠ .ok := by
      rw [status, ChipAnswers.status]
      cases clear : c.clear with
      | false => simp
      | true => simpa [clear] using good
    refine not_ok ?_ fun given => good ⟨given.1, given.2.1⟩
    rwa [judgeAnticoll_of_not_ok bad]

/-- ANTICOLL and its card frame run ANTICOLL. -/
theorem operationOf_anticoll {p : Params} {i : Instr} (h : i = .anticoll ∨ i = .piccAnticoll) :
    operationOf p i = (anticoll >>= anticollResult) ∧ ∀ s : State, denialOf s i = s.admission := by
  rcases h with rfl | rfl <;> exact ⟨rfl, fun _ => rfl⟩

/-- Settles O39: the row of its TRANSCEIVE and the validation decide what ANTICOLL reports; on the script
the five bytes do. -/
theorem anticollReportsValidUidOrNone : Obligations.AnticollReportsValidUidOrNone := by
  refine ⟨?_, ?_⟩
  · rintro s i ⟨outside, opened, high⟩ noFailure kind
    obtain ⟨operation, denial⟩ := operationOf_anticoll (p := s.cfg) kind
    obtain ⟨st, t, run, -, -⟩ := ends_anticoll s high noFailure
    obtain ⟨rx, e, u, command, rfl, rfl⟩ := cardOperation_ok ((anticoll_run s).symm.trans run)
    obtain ⟨outcome, pc, fault, uid⟩ := runCommand_outcome command
    obtain ⟨fault', pc'⟩ := judgeAnticoll_keeps u
    refine ⟨_, exec_of_ok ((denial s).trans (admission_none.mpr ⟨outside, opened⟩))
      ((congrFun operation s).trans (anticoll_gives run)), (fault'.trans fault).trans outside,
      pc'.trans pc, ?_⟩
    rcases judgeAnticoll_outcome outcome with ⟨status, cause, five, bytes, xor⟩ |
      ⟨status, same, causes⟩ | ⟨status, cause, same⟩
    · exact .inl ⟨status, cause, five, bytes, xor, by simp [status]⟩
    · exact .inr (.inl ⟨status, same.trans uid, by simp [status], causes⟩)
    · exact .inr (.inr ⟨status, cause, same.trans uid, by simp [status]⟩)
  · rintro s i c rest ⟨outside, opened, high⟩ ⟨-, -, codes_differ⟩ kind fits bus
    obtain ⟨operation, denial⟩ := operationOf_anticoll (p := s.cfg) kind
    obtain ⟨u, run, answered, fault, -, env, trace⟩ := cardOperation_answered
      (framing := framingFull) (tx := [s.cfg.piccAnticoll, nvbAnticoll]) (judge := State.judgeAnticoll)
      high codes_differ (by simp) fits bus
    obtain ⟨env', trace'⟩ := judgeAnticoll_frame (u := u)
    have gives := fun v => judgeAnticoll_gives_iff v fits answered
    refine ⟨_, exec_of_ok ((denial s).trans (admission_none.mpr ⟨outside, opened⟩))
      ((congrFun operation s).trans (anticoll_gives ((anticoll_run s).trans run))),
      ((judgeAnticoll_keeps u).1.trans fault).trans outside, fun v => ?_,
      fun v given => ((gives v).mpr given).2, env'.trans env, trace'.trans trace⟩
    rw [← gives v, withRet_ret, Ret.statusUid.injEq]
    by_cases ok : u.judgeAnticoll.status = .ok <;> simp [ok]

end Sys2Proof.Machine
end

section

namespace Sys2Proof.Machine

/-! ### Calls on the external ports with listed answers (spec/44_scan_loop.md R221 to R226) -/

/-- The state after calls that returned: their events, the answers left, and a failure's cause. -/
def State.called (s : State) (events : List Event) (failed : Bool) (e : Env) : State :=
  { s with trace := s.trace ++ events, env := e,
           cause := if failed then .externalServiceError else s.cause }

theorem called_called (s : State) (x y : List Event) (a b : Bool) (e f : Env) :
    (s.called x a e).called y b f = s.called (x ++ y) (a || b) f := by
  cases a <;> cases b <;> simp [State.called]

theorem callPort_returns {s : State} {a : CallAnswer} {rest : List CallAnswer} (ev : Event)
    (listed : s.env.calls = a :: rest) (returns : a ≠ .never) :
    callPort ev s = .ok () (s.called [ev] (a == .failed) { s.env with calls := rest }) := by
  rw [callPort, Env.nextCall, listed]
  cases a with
  | done | failed => rfl
  | never => exact absurd rfl returns

theorem callPort_never {s : State} {rest : List CallAnswer} (ev : Event)
    (listed : s.env.calls = .never :: rest) :
    callPort ev s = .error .stalled ((s.withEnv { s.env with calls := rest }).stall) := by
  rw [callPort, Env.nextCall, listed]

/-- Calls that all return leave every event and use one answer each. -/
theorem callPorts_return {answers rest : List CallAnswer} (returns : .never ∉ answers) :
    ∀ {s : State} {events : List Event}, answers.length = events.length →
      s.env.calls = answers ++ rest →
      callPorts events s =
        .ok () (s.called events (answers.contains .failed) { s.env with calls := rest }) := by
  induction answers with
  | nil =>
    intro s events same listed
    obtain rfl := List.length_eq_zero_iff.mp same.symm
    rw [List.nil_append] at listed
    simp [callPorts, State.called, ← listed]
  | cons a others ih =>
    intro s events same listed
    obtain ⟨ev, events, rfl⟩ := List.exists_cons_of_length_pos (l := events) (by simp_all; omega)
    obtain ⟨first, later⟩ := List.ne_and_not_mem_of_not_mem_cons returns
    rw [callPorts, bind_of_ok (callPort_returns ev listed first.symm),
      ih later (by simpa using same) rfl, called_called]
    cases a <;> rfl

/-- A call that hangs stops the calls after it: the events are those of the calls before it. -/
theorem callPorts_hang {ends rest : List CallAnswer} (returns : .never ∉ ends) :
    ∀ {s : State} {events : List Event}, ends.length < events.length →
      s.env.calls = ends ++ .never :: rest →
      ∃ u, callPorts events s = .error .stalled u ∧ u.stalled = true ∧ u.scan = s.scan ∧
        u.trace = s.trace ++ events.take ends.length := by
  induction ends with
  | nil =>
    intro s events more listed
    obtain ⟨ev, events, rfl⟩ := List.exists_cons_of_length_pos more
    exact ⟨_, bind_of_error (callPort_never ev listed), rfl, rfl, by simp⟩
  | cons a others ih =>
    intro s events more listed
    obtain ⟨ev, events, rfl⟩ := List.exists_cons_of_length_pos (Nat.zero_lt_of_lt more)
    obtain ⟨first, later⟩ := List.ne_and_not_mem_of_not_mem_cons returns
    obtain ⟨u, run, stalled, scan, trace⟩ := ih later
      (s := s.called [ev] (a == .failed) { s.env with calls := others ++ .never :: rest })
      (by simpa using more) rfl
    refine ⟨u, (bind_of_ok (callPort_returns ev listed first.symm)).trans run, stalled, scan, ?_⟩
    rw [trace]
    simp [State.called]

/-- Calls that end leave all their events. -/
theorem callPorts_ok {events : List Event} : ∀ {s t : State} {r : Unit},
    callPorts events s = .ok r t → ∃ failed e, t = s.called events failed e := by
  induction events with
  | nil =>
    intro s t r run
    cases run
    exact ⟨false, s.env, by simp [State.called]⟩
  | cons ev events ih =>
    intro s t r run
    obtain ⟨_, u, first, rest⟩ := bind_ok_iff.mp run
    obtain ⟨failed, e, rfl⟩ := ih rest
    rcases callPort_cases ev s with ⟨f, -, one⟩ | ⟨f, -, one⟩ | ⟨f, -, one⟩ <;> rw [one] at first <;>
      cases first
    · exact ⟨false || failed, e, called_called s [ev] events false failed f e⟩
    · exact ⟨true || failed, e, called_called s [ev] events true failed f e⟩

/-- The oracle's answer, whatever it is but never returning. -/
theorem askAuthorized_returns {s : State} {a : AuthAnswer} {e : Env} (text : UidText)
    (asked : s.env.nextAuth = (a, e)) (returns : a ≠ .never) :
    askAuthorized text s =
      .ok (a == .granted) (s.called [.authQ text (a == .granted)] (a == .failed) e) := by
  rw [askAuthorized, asked]
  cases a with
  | granted | denied | failed => rfl
  | never => exact absurd rfl returns

theorem askAuthorized_never {s : State} {e : Env} (text : UidText)
    (asked : s.env.nextAuth = (.never, e)) :
    askAuthorized text s = .error .stalled ((s.withEnv e).stall) := by rw [askAuthorized, asked]

/-- Where the oracle answers, its event carries the answer. -/
theorem askAuthorized_ok {s t : State} {a : Bool} {text : UidText}
    (run : askAuthorized text s = .ok a t) :
    ∃ failed e, t = s.called [.authQ text a] failed e := by
  rcases askAuthorized_cases text s with ⟨e, -, one⟩ | ⟨e, -, one⟩ | ⟨e, -, one⟩ | ⟨e, -, one⟩ <;>
    rw [one] at run <;> cases run
  · exact ⟨false, e, rfl⟩
  · exact ⟨false, e, rfl⟩
  · exact ⟨true, e, rfl⟩

/-! ### The blocks that call the ports -/

section PortBlocks

variable {α : Type} {x : Op α} {next : α → ScanState} {s u : State}

theorem settleBlock_ok {a : α} (run : x s = .ok a u) :
    settleBlock ((x >>= fun a => update (·.setScan (next a))) s) = u.setScan (next a) := by
  rw [bind_of_ok run]
  rfl

theorem settleBlock_stalled (run : x s = .error .stalled u) :
    settleBlock ((x >>= fun a => update (·.setScan (next a))) s) = u := by
  rw [bind_of_error run]
  rfl

end PortBlocks

section Steps

variable {s : State} (returns : s.stalled = false) (scanning : s.scanning = true)

include returns scanning

/-- A step that hangs in the calls of AUTHORIZED or DENIED. -/
theorem step_hangs {x : Op Unit} {events : List Event} {count : Nat}
    (block : scanBlock s.tick.scan s.tick =
      (x >>= fun _ => update (·.setScan .idleScan) : Op Unit) s.tick)
    (hangs : ∃ u, x s.tick = .error .stalled u ∧ u.stalled = true ∧ u.scan = s.tick.scan ∧
      u.trace = s.tick.trace ++ events.take count) :
    ∃ t, step s = .next t ∧ t.stalled = true ∧ t.scan = s.scan ∧
      t.trace = s.trace ++ events.take count ∧ step t = .fault .externalCallNeverReturns := by
  obtain ⟨u, run, stalled, scan, trace⟩ := hangs
  rw [tick_scan] at scan
  rw [tick_trace] at trace
  refine ⟨u, ?_, stalled, scan, trace, step_stalled stalled⟩
  rw [step_scanning returns scanning, scanStep_eq, block, settleBlock_stalled run]

end Steps

/-- Settles O47: IDLE_SCAN with the flag set is the end of SCAN. -/
theorem cancelledScanShutsDown : Obligations.CancelledScanShutsDown := by
  intro s returns scanning scan cancelled
  rw [step_scanning returns scanning, scanStep_cancelled (by simpa) cancelled]
  simp [State.endScan, State.closeHandle, State.setScan, State.emit, State.setOpen, State.setRst,
    State.setScanning, State.withRet]

/-- Settles O49: the oracle's answer chooses the scan state, and a failure is a denial. -/
theorem authorizationFailsClosed : Obligations.AuthorizationFailsClosed := by
  intro s a e returns scanning scan asked answered
  have run := askAuthorized_returns (s := s.tick) (uidString s.tick.uid) (by simpa) answered
  rw [step_scanning returns scanning, scanStep_eq, scanBlock_uidResolved (by simpa),
    settleBlock_ok run]
  cases a with
  | granted | denied | failed => simp [State.called, State.setScan]
  | never => exact absurd rfl answered

/-- Settles O50: three calls that return, whatever fails. -/
theorem authorizedActuatesThenAudits : Obligations.AuthorizedActuatesThenAudits := by
  intro s a b c rest returns scanning scan listed first second third
  have run := callPorts_return (answers := [a, b, c]) (rest := rest) (s := s.tick)
    (events := authorizedEvents s.tick) (by simp [first.symm, second.symm, third.symm]) rfl (by simpa)
  rw [step_scanning returns scanning, scanStep_eq, scanBlock_authorized (by simpa),
    settleBlock_ok run]
  simp [State.called, State.setScan, authorizedEvents, eq_comm (a := CallAnswer.failed)]

/-- Settles O51: the audit, and where the parameter says so the registry. -/
theorem deniedAuditsThenRecords : Obligations.DeniedAuditsThenRecords := by
  intro s a b rest returns scanning scan listed first second
  rw [step_scanning returns scanning, scanStep_eq, scanBlock_denied (by simpa)]
  refine ⟨fun recorded => ?_, fun unrecorded => ?_⟩
  · have run := callPorts_return (answers := [a, b]) (rest := rest) (s := s.tick)
      (events := deniedEvents s.tick) (by simp [first.symm, second.symm])
      (by simp [deniedEvents, recorded]) (by simpa)
    rw [settleBlock_ok run]
    simp [State.called, State.setScan, deniedEvents, recorded, eq_comm (a := CallAnswer.failed)]
  · have run := callPorts_return (answers := [a]) (rest := b :: rest) (s := s.tick)
      (events := deniedEvents s.tick) (by simp [first.symm])
      (by simp [deniedEvents, unrecorded]) (by simpa)
    rw [settleBlock_ok run]
    simp [State.called, State.setScan, deniedEvents, unrecorded, eq_comm (a := CallAnswer.failed)]

/-- DENIED's first call is the audit. -/
theorem deniedEvents_take {s : State} {count : Nat} (few : count ≤ 1) :
    (deniedEvents s).take count = [Event.audit (uidString s.uid) false].take count :=
  List.take_append_of_le_length (l₁ := [Event.audit (uidString s.uid) false]) few

/-- Settles O52: the hanging call leaves a stalled state with the events before it. -/
theorem neverReturningCallStalls : Obligations.NeverReturningCallStalls := by
  refine ⟨?_, ?_⟩
  · intro s e returns scanning scan asked
    have run := askAuthorized_never (s := s.tick) (uidString s.tick.uid) (by simpa)
    refine ⟨(s.tick.withEnv e).stall, ?_, rfl, (tick_scan s).trans scan, tick_trace s,
      step_stalled (s := (s.tick.withEnv e).stall) rfl⟩
    rw [step_scanning returns scanning, scanStep_eq, scanBlock_uidResolved (by simpa),
      settleBlock_stalled run]
  · intro s ends rest returns scanning answered listed
    refine ⟨fun scan few => ?_, fun scan few => ?_⟩
    · have hangs := step_hangs returns scanning (scanBlock_authorized (by simpa))
        (callPorts_hang answered (events := authorizedEvents s.tick)
          (Nat.lt_succ_of_le few) ((congrArg Env.calls (tick_env s)).trans listed))
      have before : (authorizedEvents s.tick).take ends.length =
          [Event.out true, .out false].take ends.length :=
        List.take_append_of_le_length (l₁ := [Event.out true, .out false]) few
      rwa [before, scan] at hangs
    · have more : ends.length < (deniedEvents s.tick).length ∧ ends.length ≤ 1 := by
        cases recorded : s.cfg.recordUnknown <;> simp [recorded] at few <;>
          simp [deniedEvents, recorded, few]
      have hangs := step_hangs returns scanning (scanBlock_denied (by simpa))
        (callPorts_hang answered more.1 ((congrArg Env.calls (tick_env s)).trans listed))
      rwa [deniedEvents_take more.2, scan, tick_uid] at hangs

end Sys2Proof.Machine
end

section

namespace Sys2Proof.Machine

/-! ### A cancelled scan ends (spec/44_scan_loop.md sections 1 and 2) -/

/-- How many blocks a cancelled SCAN performs at most from a scan state on. -/
def blocksLeft : ScanState → Nat
  | .cardDetected => 4
  | .uidResolved => 3
  | .authorized => 2
  | .denied => 2
  | .idleScan => 1
  | .shutdown => 1

theorem blocksLeft_le_four (c : ScanState) : blocksLeft c ≤ 4 := by cases c <;> decide

theorem blocksLeft_of_portBlock {s : State} {c : ScanState} (h : PortBlock s c) :
    blocksLeft c < blocksLeft s.scan := by
  cases h with
  | authorized scan | denied scan | actuated scan | recorded scan => rw [scan]; decide

/-- A block of a cancelled SCAN ends it, hangs, or leaves fewer blocks. -/
theorem Block.nearer {s t : State} (h : Block s t) (cancelled : s.cancel = true) :
    t.scanning = false ∨ t.stalled = true ∨ blocksLeft t.scan < blocksLeft s.scan := by
  cases h with
  | ended => exact .inl rfl
  | card x found kind st u run =>
    cases kind with
    | request _ going => rw [going] at cancelled; cases cancelled
    | anticoll scan =>
      refine .inr (.inr ?_)
      rw [scan]
      change blocksLeft (if st = .ok then .uidResolved else .idleScan) < blocksLeft .cardDetected
      split <;> decide
  | faulted x found kind u run => exact .inl (stops_cardBlock kind run).2.2.1
  | port c kind u change => exact .inr (.inr (blocksLeft_of_portBlock kind))
  | hung => exact .inr (.inl rfl)

/-- A run begins with its first step. -/
theorem run_succ {s t : State} (first : step s = .next t) (k : Nat) :
    Host.Core.run Sys2Proof.core (k + 1) s = Host.Core.run Sys2Proof.core k t := by
  have begins : Sys2Proof.core.step s = .next t := first
  simp only [Host.Core.run, begins]

theorem cancelled_run_ends (n : Nat) : ∀ s : State, s.stalled = false → s.scanning = true →
    s.cancel = true → blocksLeft s.scan ≤ n →
    ∃ k t, k ≤ n ∧ Host.Core.run Sys2Proof.core k s = .next t ∧
      (t.scanning = false ∨ t.stalled = true) := by
  induction n with
  | zero =>
    intro s _ _ _ few
    cases scan : s.scan <;> simp [scan, blocksLeft] at few
  | succ n ih =>
    intro s returns scanning cancelled few
    have run := run_succ (step_scanning returns scanning)
    have block := scanStep_block s.tick
    have still := tick_cancel_of_set cancelled
    by_cases ended : (scanStep s.tick).scanning = false ∨ (scanStep s.tick).stalled = true
    · exact ⟨1, _, Nat.succ_pos n, run 0, ended⟩
    · obtain ⟨goes_on, returns'⟩ := not_or.mp ended
      have fewer := ((block.nearer still).resolve_left goes_on).resolve_left returns'
      rw [tick_scan] at fewer
      obtain ⟨k, t, bound, rest, ends⟩ := ih (scanStep s.tick) (Bool.not_eq_true _ ▸ returns')
        (Bool.not_eq_false _ ▸ goes_on) (block.grows.cancel still) (by omega)
      exact ⟨k + 1, t, Nat.succ_le_succ bound, (run k).trans rest, ends⟩

/-- Settles O54: from no scan state are there more than four blocks to go. -/
theorem cancelledScanEndsInFourSteps : Obligations.CancelledScanEndsInFourSteps :=
  fun s returns scanning cancelled =>
    cancelled_run_ends 4 s returns scanning cancelled (blocksLeft_le_four s.scan)

/-! ### The transition table (spec/44_scan_loop.md section 3) -/

/-- The status a card operation yields is the one it leaves. -/
theorem status_of_cardBlock {s u : State} {x : Op Status} {found : ScanState} {st : Status}
    (kind : CardBlock s x found) (run : x s = .ok st u) : st = u.status := by
  cases kind with
  | request =>
    obtain ⟨_, _, _, -, -, status⟩ := cardOperation_ok ((congrFun (request_eq _) s).symm.trans run)
    exact status
  | anticoll =>
    obtain ⟨_, _, _, -, -, status⟩ := cardOperation_ok ((anticoll_run s).symm.trans run)
    exact status

/-- A card block that does not fault: bus events alone, and the status chooses the next state. -/
theorem scanStep_card_transition {s : State} {x : Op Status} {found : ScanState}
    (outside : (scanStep s).fault = false) (kind : CardBlock s x found) :
    ∃ events, (scanStep s).trace = s.trace ++ events ∧ BusOnly events ∧
      (scanStep s).scan = if (scanStep s).status = .ok then found else .idleScan := by
  rcases scanStep_card kind with ⟨st, u, run, step⟩ | ⟨u, run, step⟩ <;> rw [step] at outside ⊢
  · have change := protocol_cardBlock kind s
    rw [run] at change
    obtain ⟨events, busOnly, -, trace⟩ := change.events
    obtain rfl := status_of_cardBlock kind run
    exact ⟨events, trace, busOnly, rfl⟩
  · obtain ⟨-, fault, -⟩ := stops_cardBlock kind run
    exact absurd (outside.symm.trans fault) (by simp)

/-- A block that neither faults nor hangs leaves SCAN running, but for the block that ends it. -/
theorem Block.goes_on {s t : State} (h : Block s t) (outside : t.fault = false)
    (returned : t.stalled = false) :
    t.scanning = s.scanning ∨ s.scan = .shutdown ∨ (s.scan = .idleScan ∧ s.cancel = true) := by
  cases h with
  | ended ends => exact .inr ends
  | card x found kind st u run =>
    have change := protocol_cardBlock kind s
    rw [run] at change
    exact .inl (change.scanning outside)
  | faulted x found kind u run =>
    obtain ⟨-, fault, -⟩ := stops_cardBlock kind run
    exact absurd (outside.symm.trans fault) (by simp)
  | port c kind u change =>
    obtain ⟨_, _, _, -, rfl⟩ := change
    exact .inl rfl
  | hung => cases returned

section PortTransitions

variable {s : State} (returns : (scanStep s).stalled = false)

include returns

theorem scanStep_uidResolved (scan : s.scan = .uidResolved) : ∃ answer failed e, scanStep s =
    (s.called [.authQ (uidString s.uid) answer] failed e).setScan
      (if answer then .authorized else .denied) := by
  rw [scanStep_eq, scanBlock_uidResolved scan] at returns ⊢
  obtain ⟨_, -, ⟨answer, run⟩ | run⟩ := calls_askAuthorized (uidString s.uid) s
  · obtain ⟨failed, e, rfl⟩ := askAuthorized_ok run
    exact ⟨answer, failed, e, settleBlock_ok run⟩
  · rw [settleBlock_stalled run] at returns
    cases returns

theorem scanStep_calls {events : List Event} (kind : ∀ ev ∈ events, PortEvent ev)
    (block : scanBlock s.scan s =
      (do callPorts events; update (·.setScan .idleScan) : Op Unit) s) :
    ∃ failed e, scanStep s = (s.called events failed e).setScan .idleScan := by
  rw [scanStep_eq, block] at returns ⊢
  obtain ⟨_, -, ⟨_, run⟩ | run⟩ := calls_callPorts kind s
  · obtain ⟨failed, e, rfl⟩ := callPorts_ok run
    exact ⟨failed, e, settleBlock_ok run⟩
  · rw [settleBlock_stalled run] at returns
    cases returns

end PortTransitions

/-- The host's operation that a card block runs (R211, R212). -/
theorem exec_of_cardBlock {s : State} {x : Op Status} {found : ScanState} {i : Instr}
    {give : Status → Op Ret} (kind : CardBlock s x found) (admitted : s.Admitted)
    (denial : denialOf s i = s.admission) (operation : operationOf s.cfg i s = (x >>= give) s)
    (gives : ∀ st u, ∃ r, give st u = .ok r u) :
    ∃ u, exec i s = .next u ∧ scanStep s = if u.fault = true then u else
      { u with ret := s.ret, scan := if u.status = .ok then found else .idleScan } := by
  have runs := denial.trans (admission_none.mpr admitted)
  rcases scanStep_card kind with ⟨st, u, run, step⟩ | ⟨u, run, step⟩
  · obtain ⟨r, given⟩ := gives st u
    obtain rfl := status_of_cardBlock kind run
    have change := protocol_cardBlock kind s
    rw [run] at change
    have ret : u.ret = s.ret := change.ret
    have outside : u.fault = false := (idle_cardBlock kind _ _ _ run).1.trans admitted.1
    refine ⟨_, exec_of_ok runs (operation.trans ((bind_of_ok run).trans given)), ?_⟩
    refine step.trans (.trans ?_ (if_neg (by simp [outside])).symm)
    rw [← ret]
    rfl
  · obtain ⟨-, fault, -⟩ := stops_cardBlock kind run
    exact ⟨_, exec_of_error runs (operation.trans (bind_of_error run)),
      step.trans (if_pos fault).symm⟩

/-- Settles O48: each block's transition, and the two card blocks as the host's operations. -/
theorem scanFollowsTransitionTable : Obligations.ScanFollowsTransitionTable := by
  refine ⟨?_, ?_⟩
  · intro s t returns scanning step outside returned going
    rw [step_scanning returns scanning] at step
    cases step
    refine ⟨fun scan => ?_, fun scan => ?_, fun scan => ?_, fun scan => ?_, fun scan => ?_, ?_⟩
    · have going := going.resolve_right (absurd scan)
      simpa using scanStep_card_transition outside (.request (by simpa) going)
    · simpa using scanStep_card_transition outside (.anticoll (by simpa))
    · obtain ⟨answer, failed, e, step⟩ := scanStep_uidResolved returned (by simpa)
      rw [step]
      exact ⟨answer, by simp [State.called], rfl⟩
    · obtain ⟨failed, e, step⟩ := scanStep_calls returned (authorizedEvents_kind _)
        (scanBlock_authorized (by simpa))
      rw [step]
      exact ⟨rfl, by simp [State.called, authorizedEvents]⟩
    · obtain ⟨failed, e, step⟩ := scanStep_calls returned (deniedEvents_kind _)
        (scanBlock_denied (by simpa))
      rw [step]
      exact ⟨rfl, by simp [State.called, deniedEvents]⟩
    · rcases (scanStep_block s.tick).goes_on outside returned with same | ended | ⟨scan, cancelled⟩
      · exact .inl (same.trans ((tick_scanning s).trans scanning))
      · exact .inr ((tick_scan s).symm.trans ended)
      · have going := going.resolve_right (absurd ((tick_scan s).symm.trans scan))
        exact absurd (going.symm.trans cancelled) (by simp)
  · intro s admitted returns scanning
    have admitted' : s.tick.Admitted :=
      ⟨(tick_fault s).trans admitted.1, (tick_isOpen s).trans admitted.2⟩
    rw [step_scanning returns scanning]
    refine ⟨fun scan going => ?_, fun scan => ?_⟩
    · obtain ⟨u, run, step⟩ := exec_of_cardBlock (i := .request s.tick.cfg.piccReqidl)
        (.request (by simpa) going) admitted' rfl rfl fun st u => ⟨_, rfl⟩
      rw [tick_cfg] at run
      exact ⟨u, run, by simpa using step⟩
    · obtain ⟨u, run, step⟩ := exec_of_cardBlock (i := .anticoll)
        (.anticoll (by simpa)) admitted' rfl rfl fun st u => ⟨_, rfl⟩
      exact ⟨u, run, by simpa using step⟩

end Sys2Proof.Machine
end

section

namespace Sys2Proof.Machine

/-! ### The cancel flag plays no part outside IDLE_SCAN (spec/44_scan_loop.md section 1) -/

/-- The cancel flag set or cleared. -/
def State.withCancel (s : State) (b : Bool) : State := { s with cancel := b }

/-- A result with its state changed. -/
def mapState {α : Type} (g : State → State) :
    EStateM.Result Halt State α → EStateM.Result Halt State α
  | .ok a t => .ok a (g t)
  | .error h t => .error h (g t)

/-- An operation that does the same whatever the cancel flag is, and keeps the flag. -/
def Blind {α : Type} (x : Op α) : Prop :=
  ∀ (b : Bool) (s : State), x (s.withCancel b) = mapState (·.withCancel b) (x s)

theorem blind_bind {α β : Type} {x : Op α} {f : α → Op β} (hx : Blind x) (hf : ∀ a, Blind (f a)) :
    Blind (x >>= f) := by
  intro b s
  have first := hx b s
  cases run : x s with
  | ok a t =>
    rw [run] at first
    rw [bind_of_ok first, bind_of_ok run]
    exact hf a b t
  | error h t =>
    rw [run] at first
    rw [bind_of_error first, bind_of_error run]
    rfl

theorem blind_pure {α : Type} (a : α) : Blind (pure a : Op α) := fun _ _ => rfl

theorem blind_update {g : State → State} (h : ∀ b s, g (s.withCancel b) = (g s).withCancel b) :
    Blind (update g) := by
  intro b s
  rw [update_run, h]
  rfl

/-- What is read of the state is anything but the flag. -/
theorem blind_current {α : Type} {f : State → Op α} (same : ∀ b s, f (s.withCancel b) = f s)
    (hf : ∀ s, Blind (f s)) : Blind (current >>= f) := by
  intro b s
  rw [bind_current, bind_current, same]
  exact hf s b s

theorem blind_ite {α : Type} {c : Prop} [Decidable c] {x y : Op α} (hx : Blind x) (hy : Blind y) :
    Blind (if c then x else y) := by
  split <;> assumption

/-! Exchanges and calls look at the line and the answers to come alone. -/

theorem blind_xfer (tx : List Byte) : Blind (xfer tx) := by
  intro b s
  unfold xfer
  change (match s.env.exchange tx with | (some rx, e) => _ | (none, e) => _) = _
  rcases s.env.exchange tx with ⟨_ | rx, e⟩ <;> rfl

theorem blind_registerXfer (tx : List Byte) : Blind (registerXfer tx) := by
  intro b s
  by_cases high : s.rst = .high
  · rw [registerXfer_high high, registerXfer_high (s := s.withCancel b) high]
    exact blind_xfer tx b s
  · rw [registerXfer_low high, registerXfer_low (s := s.withCancel b) high]
    rfl

theorem blind_writeReg (addr : Addr) (value : Byte) : Blind (writeReg addr value) :=
  blind_bind (blind_registerXfer _) fun _ => blind_pure _

theorem blind_readReg (addr : Addr) : Blind (readReg addr) :=
  blind_bind (blind_registerXfer _) fun _ => blind_pure _

theorem blind_setBits (addr : Addr) (mask : Byte) : Blind (setBits addr mask) :=
  blind_bind (blind_readReg _) fun _ => blind_writeReg _ _

theorem blind_clearBits (addr : Addr) (mask : Byte) : Blind (clearBits addr mask) :=
  blind_bind (blind_readReg _) fun _ => blind_writeReg _ _

theorem blind_antennaOn : Blind antennaOn :=
  blind_current (fun _ _ => rfl) fun _ => blind_bind (blind_readReg _) fun _ =>
    blind_ite (blind_pure _) (blind_writeReg _ _)

theorem blind_writeAll (ws : List (Addr × Byte)) : Blind (writeAll ws) := by
  induction ws with
  | nil => exact blind_pure ()
  | cons w rest ih => exact blind_bind (blind_writeReg _ _) fun _ => ih

theorem blind_openHandle : Blind openHandle := by
  intro b s
  unfold openHandle
  change (match s.env.nextOpen with | (true, e) => _ | (false, e) => _) = _
  rcases s.env.nextOpen with ⟨_ | _, e⟩ <;> rfl

theorem blind_callPort (ev : Event) : Blind (callPort ev) := by
  intro b s
  unfold callPort
  change (match s.env.nextCall with | (.done, e) => _ | (.failed, e) => _ | (.never, e) => _) = _
  rcases s.env.nextCall with ⟨_ | _ | _, e⟩ <;> rfl

theorem blind_askAuthorized (text : UidText) : Blind (askAuthorized text) := by
  intro b s
  unfold askAuthorized
  change (match s.env.nextAuth with
    | (.granted, e) => _ | (.denied, e) => _ | (.failed, e) => _ | (.never, e) => _) = _
  rcases s.env.nextAuth with ⟨_ | _ | _ | _, e⟩ <;> rfl

/-! The Command Engine and the card protocol read their registers and the parameters alone. -/

theorem blind_setPhase (p : Phase) : Blind (update (·.setPhase p)) := blind_update fun _ _ => rfl

theorem blind_toCardArm : Blind toCardArm :=
  blind_bind (blind_setPhase _) fun _ => blind_current (fun _ _ => rfl) fun _ =>
    blind_bind (blind_writeReg _ _) fun _ => blind_bind (blind_clearBits _ _) fun _ =>
      blind_bind (blind_setBits _ _) fun _ => blind_writeReg _ _

theorem blind_loadBytes (bytes : List Byte) : Blind (loadBytes bytes) := by
  induction bytes with
  | nil => exact blind_pure ()
  | cons b rest ih =>
    exact blind_current (fun _ _ => rfl) fun _ => blind_bind (blind_writeReg _ _) fun _ =>
      blind_bind (blind_update fun _ _ => rfl) fun _ => ih

theorem blind_toCardLoad : Blind toCardLoad :=
  blind_bind (blind_setPhase _) fun _ => blind_bind (blind_update fun _ _ => rfl) fun _ =>
    blind_current (fun _ _ => rfl) fun _ => blind_loadBytes _

theorem blind_toCardStart : Blind toCardStart :=
  blind_bind (blind_setPhase _) fun _ => blind_current (fun _ _ => rfl) fun _ =>
    blind_bind (blind_writeReg _ _) fun _ => blind_ite (blind_setBits _ _) (blind_pure _)

theorem blind_pollLoop (k : Nat) : Blind (pollLoop k) := by
  induction k with
  | zero => exact blind_pure ()
  | succ k ih =>
    exact blind_current (fun _ _ => rfl) fun _ => blind_bind (blind_readReg _) fun _ =>
      blind_bind (blind_update fun _ _ => rfl) fun _ => blind_ite (blind_pure _) ih

theorem blind_toCardPoll : Blind toCardPoll :=
  blind_bind (blind_setPhase _) fun _ => blind_bind (blind_update fun _ _ => rfl) fun _ =>
    blind_pollLoop _

theorem blind_toCardStop : Blind toCardStop :=
  blind_bind (blind_setPhase _) fun _ => blind_current (fun _ _ => rfl) fun _ => blind_clearBits _ _

theorem blind_toCardLen : Blind toCardLen :=
  blind_bind (blind_setPhase _) fun _ => blind_current (fun _ _ => rfl) fun _ =>
    blind_bind (blind_readReg _) fun _ => blind_bind (blind_update fun _ _ => rfl) fun _ =>
      blind_bind (blind_readReg _) fun _ => blind_update fun _ _ => rfl

theorem blind_drainBytes (k : Nat) : Blind (drainBytes k) := by
  induction k with
  | zero => exact blind_pure ()
  | succ k ih =>
    exact blind_current (fun _ _ => rfl) fun _ => blind_bind (blind_readReg _) fun _ =>
      blind_bind (blind_update fun _ _ => rfl) fun _ => ih

theorem blind_toCardDrain : Blind toCardDrain :=
  blind_bind (blind_setPhase _) fun _ => blind_bind (blind_update fun _ _ => rfl) fun _ =>
    blind_current (fun _ _ => rfl) fun _ => blind_bind (blind_drainBytes _) fun _ =>
      blind_update fun _ _ => rfl

theorem judgeClear_withCancel (b : Bool) (s : State) :
    (s.withCancel b).judgeClear = s.judgeClear.withCancel b := by
  unfold State.judgeClear
  rw [apply_ite (State.withCancel · b)]
  rfl

theorem judgeRequest_withCancel (b : Bool) (s : State) :
    (s.withCancel b).judgeRequest = s.judgeRequest.withCancel b := by
  unfold State.judgeRequest
  rw [apply_ite (State.withCancel · b), apply_ite (State.withCancel · b)]
  rfl

theorem judgeAnticoll_withCancel (b : Bool) (s : State) :
    (s.withCancel b).judgeAnticoll = s.judgeAnticoll.withCancel b := by
  unfold State.judgeAnticoll
  rw [apply_ite (State.withCancel · b)]
  change (if s.status = .ok then match anticollVerdict s.respLen (uidOfResp s.resp) with
    | .badLength => _ | .badChecksum => _ | .valid => _ else _) = _
  cases anticollVerdict s.respLen (uidOfResp s.resp) <;> rfl

theorem blind_toCardClear : Blind toCardClear :=
  blind_bind (blind_update judgeClear_withCancel) fun _ => blind_current (fun _ _ => rfl) fun _ =>
    blind_ite (blind_bind blind_toCardLen fun _ => blind_toCardDrain) (blind_pure _)

theorem blind_toCardCheck : Blind toCardCheck :=
  blind_bind (blind_setPhase _) fun _ => blind_current (fun _ _ => rfl) fun _ =>
    blind_ite (blind_update fun _ _ => rfl) <| blind_bind (blind_readReg _) fun _ =>
      blind_bind (blind_update fun _ _ => rfl) fun _ =>
        blind_ite blind_toCardClear (blind_update fun _ _ => rfl)

theorem blind_runCommand (c : Byte) : Blind (runCommand c) :=
  blind_bind (blind_update fun _ _ => rfl) fun _ => blind_bind blind_toCardArm fun _ =>
    blind_bind blind_toCardLoad fun _ => blind_bind blind_toCardStart fun _ =>
      blind_bind blind_toCardPoll fun _ => blind_bind blind_toCardStop fun _ =>
        blind_bind blind_toCardCheck fun _ => blind_bind (blind_setPhase _) fun _ =>
          blind_setPhase _

theorem blind_toCard (c : Byte) (tx : List Byte) : Blind (toCard c tx) :=
  blind_bind (blind_update fun _ _ => rfl) fun _ => blind_runCommand c

theorem blind_request (mode : Byte) : Blind (request mode) :=
  blind_bind (blind_update fun _ _ => rfl) fun _ => blind_current (fun _ _ => rfl) fun _ =>
    blind_bind (blind_writeReg _ _) fun _ => blind_bind (blind_toCard _ _) fun _ =>
      blind_bind (blind_update judgeRequest_withCancel) fun _ =>
        blind_current (fun _ _ => rfl) fun _ => blind_pure _

theorem blind_anticoll : Blind anticoll :=
  blind_bind (blind_update fun _ _ => rfl) fun _ => blind_current (fun _ _ => rfl) fun _ =>
    blind_bind (blind_writeReg _ _) fun _ => blind_bind (blind_toCard _ _) fun _ =>
      blind_bind (blind_update judgeAnticoll_withCancel) fun _ =>
        blind_current (fun _ _ => rfl) fun _ => blind_pure _

theorem blind_commandResult : Blind commandResult :=
  blind_current (fun _ _ => rfl) fun _ => blind_pure _

theorem blind_anticollResult (st : Status) : Blind (anticollResult st) :=
  blind_current (fun _ _ => rfl) fun _ => blind_pure _

theorem blind_initSequence : Blind initSequence :=
  blind_bind blind_openHandle fun _ => blind_bind (blind_update fun _ _ => rfl) fun _ =>
    blind_current (fun _ _ => rfl) fun _ => blind_bind (blind_writeAll _) fun _ =>
      blind_bind blind_antennaOn fun _ => blind_pure _

/-- No instruction looks at the flag. -/
theorem blind_operationOf (p : Params) (i : Instr) : Blind (operationOf p i) := by
  cases i with
  | spiWriteFrame | writeReg => exact blind_bind (blind_writeReg _ _) fun _ => blind_pure _
  | spiReadFrame | readReg => exact blind_bind (blind_readReg _) fun _ => blind_pure _
  | cmdIdle | cmdAuthent | cmdTransceive =>
    exact blind_bind (blind_runCommand _) fun _ => blind_commandResult
  | piccRequest | request => exact blind_bind (blind_request _) fun _ => blind_pure _
  | piccAnticoll | anticoll => exact blind_bind blind_anticoll fun _ => blind_anticollResult _
  | transfer => exact blind_bind (blind_xfer _) fun _ => blind_pure _
  | resetWrite | selectTag | shutdown | scan =>
    exact blind_bind (blind_update fun _ _ => rfl) fun _ => blind_pure _
  | setBits => exact blind_bind (blind_setBits _ _) fun _ => blind_pure _
  | clearBits => exact blind_bind (blind_clearBits _ _) fun _ => blind_pure _
  | antennaOn => exact blind_bind blind_antennaOn fun _ => blind_pure _
  | toCard => exact blind_bind (blind_toCard _ _) fun _ => blind_commandResult
  | init => exact blind_initSequence

/-- No block but IDLE_SCAN's looks at the flag. -/
theorem blind_scanBlock {c : ScanState} (other : c ≠ .idleScan) : Blind (scanBlock c) := by
  cases c with
  | idleScan => exact absurd rfl other
  | cardDetected => exact blind_bind blind_anticoll fun _ => blind_update fun _ _ => rfl
  | uidResolved =>
    exact blind_current (fun _ _ => rfl) fun _ => blind_bind (blind_askAuthorized _) fun _ =>
      blind_update fun _ _ => rfl
  | authorized =>
    exact blind_current (fun _ _ => rfl) fun _ => blind_bind (blind_callPort _) fun _ =>
      blind_bind (blind_callPort _) fun _ => blind_bind (blind_callPort _) fun _ =>
        blind_update fun _ _ => rfl
  | denied =>
    exact blind_current (fun _ _ => rfl) fun _ => blind_bind (blind_callPort _) fun _ =>
      blind_ite (blind_bind (blind_callPort _) fun _ => blind_update fun _ _ => rfl)
        (blind_update fun _ _ => rfl)
  | shutdown => exact blind_update fun _ _ => rfl

theorem settle_mapState (b : Bool) (r : EStateM.Result Halt State Ret) :
    settle (mapState (·.withCancel b) r) = (settle r).withCancel b := by
  rcases r with _ | ⟨_ | _, _⟩ <;> rfl

theorem settleBlock_mapState (b : Bool) (r : EStateM.Result Halt State Unit) :
    settleBlock (mapState (·.withCancel b) r) = (settleBlock r).withCancel b := by
  rcases r with _ | ⟨_ | _, _⟩ <;> rfl

theorem denialOf_withCancel (s : State) (b : Bool) (i : Instr) :
    denialOf (s.withCancel b) i = denialOf s i := by cases i <;> rfl

/-- Settles O53: blocks and instructions commute with setting the flag. -/
theorem cancelReadInIdleScanAlone : Obligations.CancelReadInIdleScanAlone := by
  refine ⟨fun s b other => ?_, fun s t i b run => ?_⟩
  · change scanStep (s.withCancel b) = (scanStep s).withCancel b
    rw [scanStep_eq, scanStep_eq, ← settleBlock_mapState]
    exact congrArg settleBlock (blind_scanBlock other b s)
  · change exec i (s.withCancel b) = .next (t.withCancel b)
    rw [exec_eq] at run ⊢
    cases run
    rw [denialOf_withCancel]
    cases denialOf s i with
    | some why => rfl
    | none =>
      rw [← settle_mapState]
      exact congrArg (fun r => Host.Outcome.next (settle r)) (blind_operationOf s.cfg i b s)

end Sys2Proof.Machine
end

section

namespace Sys2Proof.Machine

/-! ### What a command writes to the command register (spec/42_command_engine.md R154, R156) -/

/-- Distinct addresses and values have distinct write frames (spec/30_encoding.md R91). -/
theorem writeFrame_injective {a b : Addr} {v w : Byte} (h : writeFrame a v = writeFrame b w) :
    a = b ∧ v = w := by
  obtain ⟨address, value⟩ : addressByteWrite a = addressByteWrite b ∧ v = w := by
    simpa [writeFrame] using h
  refine ⟨?_, value⟩
  rw [← (addressByteWrite_fields a).2, ← (addressByteWrite_fields b).2, address]

/-- The read flag tells the frames apart (spec/30_encoding.md R94). -/
theorem readFrame_ne_writeFrame (a b : Addr) (v : Byte) : readFrame a ≠ writeFrame b v := by
  intro h
  have address : addressByteRead a = addressByteWrite b := (List.cons.inj h).1
  have bits := congrArg BitVec.toNat address
  rw [addressByteRead_toNat, addressByteWrite_toNat] at bits
  have := b.isLt
  omega

/-- An event that writes nothing to the command register but IDLE and one code. -/
def Issues (p : Params) (c : Byte) (e : Event) : Prop :=
  ∀ v rx, e = .bus (writeFrame p.aCommand v) rx → v = p.cmdIdle ∨ v = c

section Commands

variable {p : Params} {c : Byte}

theorem issues_other {a : Addr} (v : Byte) (rx : List Byte) (other : a ≠ p.aCommand) :
    Issues p c (.bus (writeFrame a v) rx) := by
  intro w rx' h
  exact absurd (writeFrame_injective (Event.bus.inj h).1).1 other

theorem issues_command {v : Byte} (rx : List Byte) (code : v = p.cmdIdle ∨ v = c) :
    Issues p c (.bus (writeFrame p.aCommand v) rx) := by
  intro w rx' h
  rwa [← (writeFrame_injective (Event.bus.inj h).1).2]

theorem issues_read (a : Addr) (rx : List Byte) : Issues p c (.bus (readFrame a) rx) := by
  intro w rx' h
  exact absurd (Event.bus.inj h).1 (readFrame_ne_writeFrame a _ w)

/-- What the steps of a command after its first keep: its code and its masks; and, given that the
command register's address is its own, what they write there. -/
def KeepsCommand (p : Params) (c : Byte) (s t : State) : Prop := s.cfg = p → s.cmd = c →
  t.cfg = p ∧ t.cmd = c ∧ t.irqEn = s.irqEn ∧ t.waitIrq = s.waitIrq ∧
    (p.addresses.Nodup → Grows (Issues p c) s t)

theorem KeepsCommand.refl (s : State) : KeepsCommand p c s s := fun cfg cmd =>
  ⟨cfg, cmd, rfl, rfl, fun _ => .refl s⟩

theorem KeepsCommand.trans {s t u : State} (a : KeepsCommand p c s t) (b : KeepsCommand p c t u) :
    KeepsCommand p c s u := by
  intro cfg cmd
  obtain ⟨cfg, cmd, en, wait, grows⟩ := a cfg cmd
  obtain ⟨cfg, cmd, en', wait', grows'⟩ := b cfg cmd
  exact ⟨cfg, cmd, en'.trans en, wait'.trans wait, fun own => (grows own).trans (grows' own)⟩

theorem command_bind {α β : Type} {x : Op α} {f : α → Op β} (hx : Keeps (KeepsCommand p c) x)
    (hf : ∀ a, Keeps (KeepsCommand p c) (f a)) : Keeps (KeepsCommand p c) (x >>= f) :=
  keeps_bind (R := KeepsCommand p c) (fun _ _ _ => KeepsCommand.trans) hx hf

theorem command_pure {α : Type} (a : α) : Keeps (KeepsCommand p c) (pure a : Op α) :=
  keeps_pure KeepsCommand.refl a

/-- What is read of the state is its parameters and its code. -/
theorem command_current {α : Type} {f : State → Op α}
    (h : ∀ s : State, s.cfg = p → s.cmd = c → Keeps (KeepsCommand p c) (f s)) :
    Keeps (KeepsCommand p c) (current >>= f) := fun s cfg cmd => h s cfg cmd s cfg cmd

/-- A change of other registers. -/
theorem command_update {g : State → State}
    (same : ∀ s, (g s).cfg = s.cfg ∧ (g s).cmd = s.cmd ∧ (g s).irqEn = s.irqEn ∧
      (g s).waitIrq = s.waitIrq ∧ (g s).fault = s.fault ∧ (g s).cancel = s.cancel ∧
      (g s).trace = s.trace) : Keeps (KeepsCommand p c) (update g) := by
  intro s cfg cmd
  obtain ⟨cfg', cmd', en, wait, fault, cancel, trace⟩ := same s
  exact ⟨cfg'.trans cfg, cmd'.trans cmd, en, wait, fun _ => ⟨fun h => fault.trans h,
    fun h => cancel.trans h, cfg', [], by simp [trace], by simp⟩⟩

theorem command_ite {α : Type} {d : Prop} [Decidable d] {x y : Op α}
    (hx : Keeps (KeepsCommand p c) x) (hy : Keeps (KeepsCommand p c) y) :
    Keeps (KeepsCommand p c) (if d then x else y) := by
  split <;> assumption

/-- Entering FAULT adds no event. -/
theorem grows_enterFault {P : Event → Prop} (s : State) (e : Env) (k : Cause) :
    Grows P s ((s.withEnv e).enterFault k) := ⟨fun _ => rfl, id, rfl, [], by simp, by simp⟩

/-- An exchange adds its event. -/
theorem grows_exchange {P : Event → Prop} (s : State) (e : Env) {ev : Event} (h : P ev) :
    Grows P s ((s.withEnv e).emit ev) := ⟨id, id, rfl, [ev], rfl, by simpa⟩

theorem command_writeReg {a : Addr} {v : Byte}
    (kind : p.addresses.Nodup → ∀ rx, Issues p c (.bus (writeFrame a v) rx)) :
    Keeps (KeepsCommand p c) (writeReg a v) :=
  keeps_writeReg a v
    (fun s _ _ cfg cmd => ⟨cfg, cmd, rfl, rfl, fun own => grows_exchange s _ (kind own _)⟩)
    (fun s _ cfg cmd => ⟨cfg, cmd, rfl, rfl, fun _ => grows_enterFault s _ _⟩)
    (fun s cfg cmd => ⟨cfg, cmd, rfl, rfl, fun _ => grows_enterFault s s.env _⟩)

theorem command_readReg (a : Addr) : Keeps (KeepsCommand p c) (readReg a) :=
  keeps_readReg a
    (fun s rx _ cfg cmd => ⟨cfg, cmd, rfl, rfl, fun _ => grows_exchange s _ (issues_read a rx)⟩)
    (fun s _ cfg cmd => ⟨cfg, cmd, rfl, rfl, fun _ => grows_enterFault s _ _⟩)
    (fun s cfg cmd => ⟨cfg, cmd, rfl, rfl, fun _ => grows_enterFault s s.env _⟩)

/-- The command register's address is none of the others a command writes to (R9). -/
theorem other_addresses (own : p.addresses.Nodup) : p.aComIen ≠ p.aCommand ∧
    p.aComIrq ≠ p.aCommand ∧ p.aFifoData ≠ p.aCommand ∧ p.aFifoLevel ≠ p.aCommand ∧
    p.aBitFraming ≠ p.aCommand := by
  have alone := (List.nodup_cons.mp own).1
  simp only [List.mem_cons, not_or] at alone
  obtain ⟨ien, irq, -, data, level, -, framing, -⟩ := alone
  exact ⟨Ne.symm ien, Ne.symm irq, Ne.symm data, Ne.symm level, Ne.symm framing⟩

theorem command_setPhase (q : Phase) : Keeps (KeepsCommand p c) (update (·.setPhase q)) :=
  command_update fun _ => ⟨rfl, rfl, rfl, rfl, rfl, rfl, rfl⟩

/-- A read and a write of another register. -/
theorem command_readWrite {a : Addr} (f : Byte → Byte)
    (other : p.addresses.Nodup → a ≠ p.aCommand) :
    Keeps (KeepsCommand p c) (do let v ← readReg a; writeReg a (f v)) :=
  command_bind (command_readReg a) fun _ => command_writeReg fun own rx =>
    issues_other _ rx (other own)

theorem command_toCardArm : Keeps (KeepsCommand p c) toCardArm := by
  refine command_bind (command_setPhase _) fun _ => command_current fun s cfg cmd => ?_
  rw [cfg]
  exact command_bind (command_writeReg fun own rx => issues_other _ rx (other_addresses own).1)
    fun _ => command_bind (command_readWrite _ fun own => (other_addresses own).2.1) fun _ =>
      command_bind (command_readWrite _ fun own => (other_addresses own).2.2.2.1) fun _ =>
        command_writeReg fun _ rx => issues_command rx (.inl rfl)

theorem command_loadBytes (bytes : List Byte) : Keeps (KeepsCommand p c) (loadBytes bytes) := by
  induction bytes with
  | nil => exact command_pure ()
  | cons b rest ih =>
    refine command_current fun s cfg _ => ?_
    rw [cfg]
    exact command_bind
      (command_writeReg fun own rx => issues_other _ rx (other_addresses own).2.2.1) fun _ =>
        command_bind (command_update fun _ => ⟨rfl, rfl, rfl, rfl, rfl, rfl, rfl⟩) fun _ => ih

theorem command_toCardLoad : Keeps (KeepsCommand p c) toCardLoad :=
  command_bind (command_setPhase _) fun _ =>
    command_bind (command_update fun _ => ⟨rfl, rfl, rfl, rfl, rfl, rfl, rfl⟩) fun _ =>
      command_current fun _ _ _ => command_loadBytes _

theorem command_toCardStart : Keeps (KeepsCommand p c) toCardStart := by
  refine command_bind (command_setPhase _) fun _ => command_current fun s cfg cmd => ?_
  rw [cfg, cmd]
  exact command_bind (command_writeReg fun _ rx => issues_command rx (.inr rfl)) fun _ =>
    command_ite (command_readWrite _ fun own => (other_addresses own).2.2.2.2) (command_pure ())

theorem command_pollLoop (k : Nat) : Keeps (KeepsCommand p c) (pollLoop k) := by
  induction k with
  | zero => exact command_pure ()
  | succ k ih =>
    exact command_current fun _ _ _ => command_bind (command_readReg _) fun _ =>
      command_bind (command_update fun _ => ⟨rfl, rfl, rfl, rfl, rfl, rfl, rfl⟩) fun _ =>
        command_ite (command_pure ()) ih

theorem command_toCardPoll : Keeps (KeepsCommand p c) toCardPoll :=
  command_bind (command_setPhase _) fun _ =>
    command_bind (command_update fun _ => ⟨rfl, rfl, rfl, rfl, rfl, rfl, rfl⟩) fun _ =>
      command_pollLoop _

theorem command_toCardStop : Keeps (KeepsCommand p c) toCardStop := by
  refine command_bind (command_setPhase _) fun _ => command_current fun s cfg _ => ?_
  rw [cfg]
  exact command_readWrite _ fun own => (other_addresses own).2.2.2.2

theorem command_toCardLen : Keeps (KeepsCommand p c) toCardLen :=
  command_bind (command_setPhase _) fun _ => command_current fun _ _ _ =>
    command_bind (command_readReg _) fun _ =>
      command_bind (command_update fun _ => ⟨rfl, rfl, rfl, rfl, rfl, rfl, rfl⟩) fun _ =>
        command_bind (command_readReg _) fun _ =>
          command_update fun _ => ⟨rfl, rfl, rfl, rfl, rfl, rfl, rfl⟩

theorem command_drainBytes (k : Nat) : Keeps (KeepsCommand p c) (drainBytes k) := by
  induction k with
  | zero => exact command_pure ()
  | succ k ih =>
    exact command_current fun _ _ _ => command_bind (command_readReg _) fun _ =>
      command_bind (command_update fun _ => ⟨rfl, rfl, rfl, rfl, rfl, rfl, rfl⟩) fun _ => ih

theorem command_toCardDrain : Keeps (KeepsCommand p c) toCardDrain :=
  command_bind (command_setPhase _) fun _ =>
    command_bind (command_update fun _ => ⟨rfl, rfl, rfl, rfl, rfl, rfl, rfl⟩) fun _ =>
      command_current fun _ _ _ => command_bind (command_drainBytes _) fun _ =>
        command_update fun _ => ⟨rfl, rfl, rfl, rfl, rfl, rfl, rfl⟩

theorem command_judgeClear : Keeps (KeepsCommand p c) (update (·.judgeClear)) :=
  command_update fun s => by
    unfold State.judgeClear
    split <;> exact ⟨rfl, rfl, rfl, rfl, rfl, rfl, rfl⟩

theorem command_toCardCheck : Keeps (KeepsCommand p c) toCardCheck :=
  command_bind (command_setPhase _) fun _ => command_current fun _ _ _ =>
    command_ite (command_update fun _ => ⟨rfl, rfl, rfl, rfl, rfl, rfl, rfl⟩) <|
      command_bind (command_readReg _) fun _ =>
        command_bind (command_update fun _ => ⟨rfl, rfl, rfl, rfl, rfl, rfl, rfl⟩) fun _ =>
          command_ite
            (command_bind command_judgeClear fun _ => command_current fun _ _ _ =>
              command_ite (command_bind command_toCardLen fun _ => command_toCardDrain)
                (command_pure ()))
            (command_update fun _ => ⟨rfl, rfl, rfl, rfl, rfl, rfl, rfl⟩)

/-- The code and the masks of a command stand from its first step to its end, and it writes only IDLE
and its code to the command register. -/
theorem runCommand_command (c : Byte) (s : State) :
    KeepsCommand s.cfg c (s.beginCommand c) (resultState (runCommand c s)) :=
  command_bind command_toCardArm (fun _ => command_bind command_toCardLoad fun _ =>
    command_bind command_toCardStart fun _ => command_bind command_toCardPoll fun _ =>
      command_bind command_toCardStop fun _ => command_bind command_toCardCheck fun _ =>
        command_bind (command_setPhase _) fun _ => command_setPhase _) (s.beginCommand c)

end Commands

/-- What is given back is the only change after an operation's own. -/
theorem settle_eq_withRet (r : EStateM.Result Halt State Ret) :
    ∃ q, settle r = (resultState r).withRet q := by
  rcases r with ⟨q, t⟩ | ⟨_ | _, t⟩
  · exact ⟨q, rfl⟩
  · exact ⟨.faulted t.cause, rfl⟩
  · exact ⟨t.ret, rfl⟩

/-- The state a chip command leaves is the one its steps leave. -/
theorem exec_chipCommand {s t : State} {i : Instr} {c : Byte} (admitted : s.Admitted)
    (wf : i.wellFormed s.cfg = true) (chip : chipCommand s.cfg i = some c)
    (run : exec i s = .next t) : ∃ q, t = (resultState (runCommand c (loaded s i))).withRet q := by
  rw [exec_of_run (denialOf_admitted admitted (ne_init (.inr (runsCommand_of_chipCommand chip))) wf),
    operationOf_chipCommand chip] at run
  cases run
  obtain ⟨q, eq⟩ := settle_eq_withRet ((runCommand c >>= fun _ => commandResult) (loaded s i))
  refine ⟨q, eq.trans ?_⟩
  cases first : runCommand c (loaded s i) with
  | ok _ u => rw [bind_of_ok first]; rfl
  | error h u => rw [bind_of_error first]; rfl

/-- Settles O25: the masks are chosen in the first step and stand whatever happens after. -/
theorem commandSelectsMasks : Obligations.CommandSelectsMasks := by
  intro s t i c admitted wf chip run
  obtain ⟨q, rfl⟩ := exec_chipCommand admitted wf chip run
  have kept := runCommand_command c (loaded s i)
  rw [loaded_cfg] at kept
  obtain ⟨-, cmd, en, wait, -⟩ := kept (loaded_cfg s i) rfl
  have en : (resultState (runCommand c (loaded s i))).irqEn = enableMask s.cfg c := by
    simpa using en
  have wait : (resultState (runCommand c (loaded s i))).waitIrq = waitMask s.cfg c := by
    simpa using wait
  simp only [withRet_irqEn, withRet_waitIrq]
  rw [en, wait, enableMask, waitMask]
  refine ⟨cmd, fun authent => ?_, fun other transceive => ?_, fun other other' => ?_,
    fun distinct idle => ?_, rfl⟩
  · rw [if_pos authent, if_pos authent]
    exact ⟨rfl, rfl⟩
  · rw [if_neg other, if_neg other, if_pos transceive, if_pos transceive]
    exact ⟨rfl, rfl⟩
  · rw [if_neg other, if_neg other, if_neg other', if_neg other']
    exact ⟨rfl, rfl⟩
  · obtain ⟨not_authent, not_transceive, -⟩ := distinct
    rw [idle, if_neg not_authent, if_neg not_authent, if_neg not_transceive, if_neg not_transceive]
    exact ⟨rfl, rfl⟩

/-! ### REQUEST, ANTICOLL and SCAN issue TRANSCEIVE alone (spec/43_card_protocol.md) -/

section Protocol

variable {p : Params}

/-- A TO_CARD writes only IDLE and its code to the command register. -/
theorem toCard_issues {s : State} (own : s.cfg.addresses.Nodup) (c : Byte) (tx : List Byte) :
    Grows (Issues s.cfg c) s (resultState (toCard c tx s)) := by
  obtain ⟨-, -, -, -, grows⟩ := runCommand_command c (s.loadTx tx) rfl rfl
  have g := grows own
  exact ⟨g.fault, g.cancel, g.cfg, g.trace⟩

/-- What REQUEST and ANTICOLL keep. -/
def Transceives (p : Params) (s t : State) : Prop :=
  s.cfg = p → Grows (Issues p p.cmdTransceive) s t

theorem transceives_bind {α β : Type} {x : Op α} {f : α → Op β} (hx : Keeps (Transceives p) x)
    (hf : ∀ a, Keeps (Transceives p) (f a)) : Keeps (Transceives p) (x >>= f) :=
  keeps_bind (R := Transceives p)
    (fun _ _ _ first second cfg => (first cfg).trans (second ((first cfg).cfg.trans cfg))) hx hf

theorem transceives_current {α : Type} {f : State → Op α}
    (h : ∀ s : State, s.cfg = p → Keeps (Transceives p) (f s)) :
    Keeps (Transceives p) (current >>= f) := fun s cfg => h s cfg s cfg

theorem transceives_update {g : State → State} (same : ∀ s, (g s).cfg = s.cfg ∧
    (g s).fault = s.fault ∧ (g s).cancel = s.cancel ∧ (g s).trace = s.trace) :
    Keeps (Transceives p) (update g) := by
  intro s _
  obtain ⟨cfg, fault, cancel, trace⟩ := same s
  exact ⟨fun h => fault.trans h, fun h => cancel.trans h, cfg, [], by simp [trace], by simp⟩

theorem transceives_framing (own : p.addresses.Nodup) (v : Byte) :
    Keeps (Transceives p) (writeReg p.aBitFraming v) :=
  keeps_writeReg _ _
    (fun s _ _ _ => grows_exchange s _ (issues_other _ _ (other_addresses own).2.2.2.2))
    (fun s _ _ => grows_enterFault s _ _) (fun s _ => grows_enterFault s s.env _)

theorem transceives_cardOperation (own : p.addresses.Nodup) (framing : Byte) (tx : List Byte)
    {judge : State → State} (same : ∀ s, (judge s).cfg = s.cfg ∧ (judge s).fault = s.fault ∧
      (judge s).cancel = s.cancel ∧ (judge s).trace = s.trace) :
    Keeps (Transceives p) (cardOperation framing tx judge) := by
  refine transceives_bind (transceives_update fun _ => ⟨rfl, rfl, rfl, rfl⟩) fun _ =>
    transceives_current fun s cfg => ?_
  rw [cfg]
  refine transceives_bind (transceives_framing own _) fun _ => transceives_bind ?_ fun _ =>
    transceives_bind (transceives_update same) fun _ => transceives_current fun t _ =>
      fun u _ => .refl u
  rintro u rfl
  exact toCard_issues own _ _

theorem judgeRequest_same (s : State) : s.judgeRequest.cfg = s.cfg ∧
    s.judgeRequest.fault = s.fault ∧ s.judgeRequest.cancel = s.cancel ∧
    s.judgeRequest.trace = s.trace :=
  ⟨(judgeRequest_change s).cfg, (judgeRequest_keeps s).1, (judgeRequest_change s).cancel,
    judgeRequest_frame.2.2.2⟩

theorem judgeAnticoll_same (s : State) : s.judgeAnticoll.cfg = s.cfg ∧
    s.judgeAnticoll.fault = s.fault ∧ s.judgeAnticoll.cancel = s.cancel ∧
    s.judgeAnticoll.trace = s.trace := by
  unfold State.judgeAnticoll
  split
  · split <;> exact ⟨rfl, rfl, rfl, rfl⟩
  · exact ⟨rfl, rfl, rfl, rfl⟩

theorem transceives_request (own : p.addresses.Nodup) (mode : Byte) :
    Keeps (Transceives p) (request mode) :=
  transceives_cardOperation own _ _ judgeRequest_same

theorem transceives_anticoll (own : p.addresses.Nodup) : Keeps (Transceives p) anticoll := by
  intro s
  rw [anticoll_run s]
  exact transceives_cardOperation own _ _ judgeAnticoll_same s

/-- A stretch that issues TRANSCEIVE alone does not issue AUTHENT: the codes are distinct. -/
theorem Grows.no_authent {s t : State} (legal : p.Legal) (g : Grows (Issues p p.cmdTransceive) s t) :
    ∃ events, t.trace = s.trace ++ events ∧
      writeFrame p.aCommand p.cmdAuthent ∉ framesOf events := by
  obtain ⟨-, ⟨not_idle, -, not_transceive⟩, -⟩ := legal
  obtain ⟨events, trace, kind⟩ := g.trace
  refine ⟨events, trace, fun issued => ?_⟩
  obtain ⟨e, member, frame⟩ := List.mem_filterMap.mp issued
  cases e with
  | bus tx rx =>
    cases frame
    rcases kind _ member _ rx rfl with idle | transceive
    · exact not_idle idle.symm
    · exact not_transceive transceive
  | _ => cases frame

/-- No block of SCAN issues another command. -/
theorem Block.transceives {s t : State} (own : s.cfg.addresses.Nodup) (h : Block s t) :
    Grows (Issues s.cfg s.cfg.cmdTransceive) s t := by
  have card {x : Op Status} {found : ScanState} (kind : CardBlock s x found) :
      Grows (Issues s.cfg s.cfg.cmdTransceive) s (resultState (x s)) := by
    cases kind with
    | request => exact transceives_request own _ s rfl
    | anticoll => exact transceives_anticoll own s rfl
  have port {u : State} (change : PortChange s u) :
      Grows (Issues s.cfg s.cfg.cmdTransceive) s u := by
    obtain ⟨events, e, k, kind, rfl⟩ := change
    refine ⟨id, id, rfl, events, rfl, ?_⟩
    rintro _ member v rx rfl
    exact (kind _ member).elim
  cases h with
  | ended =>
    exact ⟨id, id, rfl, [.outRel, .busClose, .rstRel], by simp [State.endScan, State.closeHandle],
      by simp [Issues]⟩
  | card x found kind _ u run | faulted x found kind u run =>
    have g := card kind
    rw [run] at g
    exact ⟨g.fault, g.cancel, g.cfg, g.trace⟩
  | port c kind u change | hung c kind u change =>
    have g := port change
    exact ⟨g.fault, g.cancel, g.cfg, g.trace⟩

end Protocol

/-- Settles O42: REQUEST, ANTICOLL and the blocks of SCAN issue TRANSCEIVE alone. -/
theorem authentNeverIssuedByProtocol : Obligations.AuthentNeverIssuedByProtocol := by
  refine ⟨fun s t i legal kind run => ?_, fun s t legal scanning run => ?_⟩
  · have quiet {x : Op Status} {f : Status → Op Ret}
        (hx : Keeps (Transceives s.cfg) x) (hf : ∀ st u, resultState (f st u) = u) :
        Keeps (Transceives s.cfg) (x >>= f) :=
      transceives_bind hx fun st u _ => by rw [hf]; exact .refl u
    have kept : Keeps (Transceives s.cfg) (operationOf s.cfg i) := by
      rcases kind with rfl | rfl | rfl | ⟨mode, rfl⟩
      · exact quiet (transceives_anticoll legal.1) fun _ _ => rfl
      · exact quiet (transceives_anticoll legal.1) fun _ _ => rfl
      · exact quiet (transceives_request legal.1 _) fun _ _ => rfl
      · exact quiet (transceives_request legal.1 _) fun _ _ => rfl
    obtain ⟨u, r, g, rfl⟩ := (ran_of_exec run).keeps (fun u _ => .refl u) kept
    exact Grows.no_authent (t := u) legal (g rfl)
  · obtain ⟨-, ⟨-, rfl⟩ | ⟨idle, -⟩ | ⟨idle, -⟩⟩ := step_cases run
    · have g := (scanStep_block s.tick).transceives (by simpa using legal.1)
      rw [tick_cfg] at g
      simpa using g.no_authent legal
    · rw [scanning] at idle; cases idle
    · rw [scanning] at idle; cases idle

end Sys2Proof.Machine
end

section

namespace Sys2Proof.Machine

/-! ### What INIT's programme sends (spec/70_reset_and_hazards.md R282, R284) -/

/-- The register programme that ends well has sent its writes, in order. -/
theorem writeAll_ok {ws : List (Addr × Byte)} : ∀ {s t : State} {r : Unit}, writeAll ws s = .ok r t →
    ∃ events e, t = s.sent events e ∧ BusOnly events ∧
      framesOf events = ws.map fun w => writeFrame w.1 w.2 := by
  induction ws with
  | nil =>
    intro s t r run
    cases run
    exact ⟨[], s.env, by simp [State.withEnv], busOnly_nil, rfl⟩
  | cons w rest ih =>
    intro s t r run
    obtain ⟨_, u, first, others⟩ := bind_ok_iff.mp run
    obtain ⟨-, rx, e, -, rfl⟩ := writeReg_ok_iff.mp first
    obtain ⟨events, e', rfl, only, frames⟩ := ih others
    refine ⟨.bus (writeFrame w.1 w.2) rx :: events, e', sent_sent _ _ _ _ _, ?_, ?_⟩
    · exact (busOnly_append [_] events).mpr ⟨by simp, only⟩
    · rw [List.map_cons, ← frames]
      rfl

/-- ANTENNA_ON's events: the read, and the write unless both bits read as set (R134). -/
structure AntennaEvents (addr : Addr) (v : Byte) (antenna : List Event) : Prop where
  set : v &&& 0x03 = 0x03 → antenna = []
  clear : v &&& 0x03 ≠ 0x03 → ∃ rx, antenna = [Event.bus (writeFrame addr (v ||| 0x03)) rx]

theorem antennaOn_ok {s t : State} {r : Unit} (run : antennaOn s = .ok r t) :
    ∃ r0 v antenna e, AntennaEvents s.cfg.aTxControl v antenna ∧
      t = s.sent (.bus (readFrame s.cfg.aTxControl) [r0, v] :: antenna) e := by
  obtain ⟨_, _, first, -⟩ := bind_ok_iff.mp ((bind_current _ s).symm.trans run)
  obtain ⟨high, rx, e, answer, -, -⟩ := readReg_ok_iff.mp first
  obtain ⟨r0, v, rfl⟩ := List.length_eq_two.mp (exchange_length answer)
  by_cases set : v &&& 0x03 = 0x03
  · rw [antennaOn_of_set high answer set] at run
    cases run
    exact ⟨r0, v, [], e, ⟨fun _ => rfl, absurd set⟩, rfl⟩
  · rw [antennaOn_of_clear high answer set] at run
    obtain ⟨-, rx, e', -, rfl⟩ := writeReg_ok_iff.mp run
    exact ⟨r0, v, _, e', ⟨fun h => absurd h set, fun _ => ⟨rx, rfl⟩⟩, sent_sent _ _ _ _ _⟩

/-- The programme that ends well: its writes, the antenna's read and, where needed, its write. -/
theorem initProgramme_ok {s t : State} {r : Ret} (run : initProgramme s.cfg s = .ok r t) :
    r = .nothing ∧ ∃ programme r0 v antenna e, BusOnly programme ∧
      framesOf programme = (s.cfg.initWrites.map fun w => writeFrame w.1 w.2) ∧
      AntennaEvents s.cfg.aTxControl v antenna ∧
      t = s.sent (programme ++ [.bus (readFrame s.cfg.aTxControl) [r0, v]] ++ antenna) e := by
  obtain ⟨_, u, writes, rest⟩ := bind_ok_iff.mp run
  obtain ⟨programme, e, rfl, only, frames⟩ := writeAll_ok writes
  obtain ⟨_, u, switch, rest⟩ := bind_ok_iff.mp rest
  obtain ⟨r0, v, antenna, e', events, rfl⟩ := antennaOn_ok switch
  cases rest
  exact ⟨rfl, programme, r0, v, antenna, e', only, frames, events, by simp⟩

theorem ends_initProgramme (p : Params) : EndsWell (initProgramme p) :=
  ends_bind (ends_writeAll _) fun _ => ends_bind ends_antennaOn fun _ => ends_pure _

theorem meets_initProgramme (p : Params) : MeetsFailure (initProgramme p) :=
  meets_bind (meets_writeAll _) fun _ => meets_bind meets_antennaOn fun _ => meets_pure _

/-- Settles O43: without failures the programme ends well, on the opened handle. -/
theorem initOpensHandleAndRaisesLine : Obligations.InitOpensHandleAndRaisesLine := by
  intro s e outside closed opening noFailure
  obtain ⟨r, t, run, -⟩ := ends_initProgramme s.cfg (s.opened e) rfl noFailure
  obtain ⟨rfl, programme, r0, v, antenna, e', only, frames, events, rfl⟩ :=
    initProgramme_ok (s := s.opened e) run
  refine ⟨programme, r0, v, antenna, e', only, frames, events.set, events.clear, ?_⟩
  rw [exec_of_ok (denialOf_init outside closed) ((initSequence_opened opening).trans run)]
  simp [State.opened, State.withRet, State.sent, State.emit, State.setRst, State.setOpen,
    State.withEnv]

/-! ### How INIT fails -/

/-- With the line high the only way into FAULT is a failed exchange. -/
def TransportOnly (s t : State) : Prop := s.rst = .high →
  t.rst = .high ∧ ((t.fault = s.fault ∧ t.cause = s.cause) ∨ t.cause = .transportError)

theorem transport_bind {α β : Type} {x : Op α} {f : α → Op β} (hx : Keeps TransportOnly x)
    (hf : ∀ a, Keeps TransportOnly (f a)) : Keeps TransportOnly (x >>= f) := by
  refine keeps_bind (R := TransportOnly) (fun a b c first second high => ?_) hx hf
  obtain ⟨high', first⟩ := first high
  obtain ⟨high'', ⟨fault, cause⟩ | cause⟩ := second high'
  · rw [fault, cause]
    exact ⟨high'', first⟩
  · exact ⟨high'', .inr cause⟩

theorem transport_pure {α : Type} (a : α) : Keeps TransportOnly (pure a : Op α) := fun _ high =>
  ⟨high, .inl ⟨rfl, rfl⟩⟩

/-- A register access with the line high: an exchange, or a failed one. -/
theorem transport_registerXfer (tx : List Byte) : Keeps TransportOnly (registerXfer tx) := by
  intro s high
  rw [registerXfer_high high]
  rcases xfer_cases tx s with ⟨rx, e, -, run⟩ | ⟨e, -, run⟩ <;> rw [run]
  · exact ⟨high, .inl ⟨rfl, rfl⟩⟩
  · exact ⟨high, .inr rfl⟩

theorem transport_writeReg (addr : Addr) (value : Byte) :
    Keeps TransportOnly (writeReg addr value) :=
  transport_bind (transport_registerXfer _) fun _ => transport_pure _

theorem transport_readReg (addr : Addr) : Keeps TransportOnly (readReg addr) :=
  transport_bind (transport_registerXfer _) fun _ => transport_pure _

theorem transport_writeAll (ws : List (Addr × Byte)) : Keeps TransportOnly (writeAll ws) := by
  induction ws with
  | nil => exact transport_pure ()
  | cons w rest ih => exact transport_bind (transport_writeReg _ _) fun _ => ih

theorem transport_antennaOn : Keeps TransportOnly antennaOn := by
  refine keeps_bind_current fun s => transport_bind (transport_readReg _) (fun v => ?_) s
  split
  · exact transport_pure ()
  · exact transport_writeReg _ _

theorem transport_initProgramme (p : Params) : Keeps TransportOnly (initProgramme p) :=
  transport_bind (transport_writeAll _) fun _ => transport_bind transport_antennaOn fun _ =>
    transport_pure _

section InitFailure

variable {s : State} (outside : s.fault = false)

include outside

/-- A programme that stops on the opened handle keeps the events before. -/
theorem init_stopped {e : Env} {t : State} (opening : s.env.nextOpen = (true, e))
    (run : exec .init s = .next t) (fault : t.fault = true) :
    t.cause = .transportError ∧ t.ret = .faulted .transportError ∧
      ∃ events, BusOnly events ∧ t.trace = s.trace ++ [.busOpen, .rst true] ++ events := by
  obtain ⟨u, stop, -, -, rfl⟩ := (ran_of_exec run).of_fault outside fault
  have stopped : initProgramme s.cfg (s.opened e) = .error .fault u :=
    (initSequence_opened opening).symm.trans stop
  have transport := transport_initProgramme s.cfg (s.opened e) rfl
  have change := initProgramme_change s.cfg (s.opened e)
  rw [stopped] at transport change
  obtain ⟨events, only, -, trace⟩ := change.events
  have cause : u.cause = .transportError := by
    obtain ⟨-, ⟨still, -⟩ | cause⟩ := transport
    · exact absurd ((still.symm.trans fault).symm.trans outside) (by simp)
    · exact cause
  exact ⟨cause, congrArg Ret.faulted cause, events, only, by simpa [State.opened] using trace⟩

variable (closed : s.isOpen = false)

include closed

/-- A handle that cannot be opened (R283). -/
theorem init_not_opened {e : Env} (opening : s.env.nextOpen = (false, e)) :
    ∃ t, exec .init s = .next t ∧ FaultedAfter s t .transportError [] ∧ t.env = e :=
  ⟨_, exec_of_error (denialOf_init outside closed) (initSequence_closed opening),
    faultedAfter_withEnv s e .transportError, rfl⟩

/-- Where some exchanges of the programme are answered and the next fails. -/
theorem init_meets_failure {e : Env} {answers : List (List Byte)}
    {rest : List (Option (List Byte))} (opening : s.env.nextOpen = (true, e))
    (bus : e.bus = .oracle (answers.map some ++ none :: rest)) :
    ∃ t events, exec .init s = .next t ∧ BusOnly events ∧ t.isOpen = true ∧ t.rst = .high ∧
      t.trace = s.trace ++ [.busOpen, .rst true] ++ events ∧
      (answers.length ≤ s.cfg.initWrites.length → t.fault = true) ∧
      ((events.length ≤ answers.length ∧ t.fault = false ∧ t.ret = .nothing ∧
          t.env = e.failingAfter (answers.drop events.length) rest) ∨
       (events.length = answers.length ∧ t.fault = true ∧ t.cause = .transportError ∧
          t.ret = .faulted .transportError ∧ t.env = { e with bus := .oracle rest })) := by
  have runs := denialOf_init outside closed
  have change := initProgramme_change s.cfg (s.opened e)
  have programme : operationOf s.cfg .init s = initProgramme s.cfg (s.opened e) :=
    initSequence_opened opening
  rcases meets_initProgramme s.cfg (s.opened e) answers rest rfl bus with
    ⟨r, t, events, run, only, count, high, fault, trace, env⟩ |
    ⟨t, events, run, only, count, fault, cause, -, trace, env⟩
  · rw [run] at change
    obtain ⟨rfl, writes, r0, v, antenna, e', -, frames, -, left⟩ :=
      initProgramme_ok (s := s.opened e) run
    have sent : events = writes ++ [.bus (readFrame s.cfg.aTxControl) [r0, v]] ++ antenna := by
      rw [left] at trace
      exact (List.append_cancel_left trace).symm
    have more : s.cfg.initWrites.length < events.length := by
      have count_le : (framesOf writes).length ≤ writes.length := List.length_filterMap_le _ _
      rw [frames, List.length_map] at count_le
      have count : (s.opened e).cfg.initWrites.length = s.cfg.initWrites.length := rfl
      rw [sent, List.length_append, List.length_append, List.length_singleton]
      omega
    exact ⟨_, events, exec_of_ok runs (programme.trans run), only, change.isOpen, high,
      by simpa [State.opened] using trace, fun few => by omega,
      .inl ⟨count, fault.trans outside, rfl, env⟩⟩
  · rw [run] at change
    exact ⟨_, events, exec_of_error runs (programme.trans run), only, change.isOpen, change.rst,
      by simpa [State.opened] using trace, fun _ => fault,
      .inr ⟨count, fault, cause, congrArg Ret.faulted cause, env⟩⟩

end InitFailure

/-- Settles O44: the handle, the programme's stop, and the first failed exchange it reaches. -/
theorem initFailureIsReported : Obligations.InitFailureIsReported := fun _ outside closed =>
  ⟨fun _ opening => init_not_opened outside closed opening,
    fun _ _ opening run fault => init_stopped outside opening run fault,
    fun _ _ _ opening bus => init_meets_failure outside closed opening bus⟩

end Sys2Proof.Machine
end

section

namespace Sys2Proof.Machine

/-! ### The UID string (spec/44_scan_loop.md R214) -/

/-- Only zero's numeral begins with a zero. -/
theorem toDigits_head_zero (n : Nat) : (Nat.toDigits 10 n).head? = some '0' → n = 0 := by
  induction n using Nat.base_induction 10 (by decide) with
  | single m small =>
    rw [Nat.toDigits_of_lt_base small]
    simp
  | digit m k hk positive ih =>
    rw [← Nat.toDigits_append_toDigits (by decide) positive hk,
      List.head?_append_of_ne_nil _ Nat.toDigits_ne_nil]
    intro zero
    have := ih zero
    omega

theorem dec_digits {b : Byte} {ch : Char} (h : ch ∈ dec b) : '0' ≤ ch ∧ ch ≤ '9' := by
  have digit := Nat.isDigit_of_mem_toDigits (by decide) (by decide) h
  have bounds : 48 ≤ ch.val ∧ ch.val ≤ 57 := by simpa [Char.isDigit] using digit
  exact bounds

theorem dec_value (b : Byte) : decimalValue (dec b) = b.toNat := Nat.ofDigitChars_ten_toDigits

theorem dec_isNumeral (b : Byte) : IsNumeral (dec b) b where
  nonempty := Nat.toDigits_ne_nil
  onlyDigits _ := dec_digits
  value := dec_value b
  noLeadingZero zero := by
    have none := toDigits_head_zero _ zero
    rw [dec, none, Nat.toDigits_zero]

theorem dec_injective : Function.Injective dec := fun a b same =>
  BitVec.eq_of_toNat_eq ((dec_value a).symm.trans ((congrArg decimalValue same).trans (dec_value b)))

theorem dec_length (b : Byte) : 1 ≤ (dec b).length ∧ (dec b).length ≤ 3 :=
  ⟨Nat.length_toDigits_pos, (Nat.length_toDigits_le_iff (by decide) (by decide)).mpr
    (Nat.lt_trans b.isLt (by decide))⟩

theorem comma_not_mem_dec (b : Byte) : ',' ∉ dec b := fun h => absurd (dec_digits h).1 (by decide)

theorem dec_commas (b : Byte) : (dec b).countP (· == ',') = 0 :=
  List.count_eq_zero.mpr (comma_not_mem_dec b)

/-- The numerals of a UID, in buffer order. -/
def numerals (u : Uid) : List UidText := [dec u.b0, dec u.b1, dec u.b2, dec u.b3, dec u.b4]

theorem uidString_eq_intercalate (u : Uid) : uidString u = [','].intercalate (numerals u) := by
  simp [uidString, numerals, List.intercalate]

/-- The commas of the string give the numerals back. -/
theorem uidString_splitOn (u : Uid) : (uidString u).splitOn ',' = numerals u := by
  rw [uidString_eq_intercalate]
  exact List.splitOn_intercalate _ (by simp [numerals, comma_not_mem_dec]) (by simp [numerals])

theorem uidString_injective : Function.Injective uidString := by
  intro u v same
  have parts : numerals u = numerals v := by
    rw [← uidString_splitOn, ← uidString_splitOn, same]
  simp only [numerals, List.cons.injEq, dec_injective.eq_iff, and_true] at parts
  obtain ⟨b0, b1, b2, b3, b4⟩ := parts
  cases u
  cases v
  simp_all

/-- Settles O55: the five numerals, their lengths and their separators. -/
theorem uidStringIsExactAndStable : Obligations.UidStringIsExactAndStable := by
  intro u v
  have l0 := dec_length u.b0
  have l1 := dec_length u.b1
  have l2 := dec_length u.b2
  have l3 := dec_length u.b3
  have l4 := dec_length u.b4
  refine ⟨⟨dec u.b0, dec u.b1, dec u.b2, dec u.b3, dec u.b4, by simp [uidString], dec_isNumeral _,
    dec_isNumeral _, dec_isNumeral _, dec_isNumeral _, dec_isNumeral _⟩, ?_, ?_, ?_, ?_,
    fun same => uidString_injective same⟩
  · simp only [uidString, List.length_append, List.length_cons]
    omega
  · simp only [uidString, List.length_append, List.length_cons]
    omega
  · simp [uidString, dec_commas]
  · intro ch h
    simp only [uidString, List.mem_append, List.mem_cons, or_assoc] at h
    rcases h with h | h | h | h | h | h | h | h | h
    · exact .inr (dec_digits h)
    · exact .inl h
    · exact .inr (dec_digits h)
    · exact .inl h
    · exact .inr (dec_digits h)
    · exact .inl h
    · exact .inr (dec_digits h)
    · exact .inl h
    · exact .inr (dec_digits h)

end Sys2Proof.Machine
end

section

namespace Sys2Proof.Machine

/-! ### Two runs of one operation, side by side -/

/-- Two states that agree on the parameters, the line, FAULT, the cause and the answers to come, and on
what a view shows of the registers. -/
structure Alike {γ : Type} (view : State → γ) (s u : State) : Prop where
  cfg : u.cfg = s.cfg
  rst : u.rst = s.rst
  fault : u.fault = s.fault
  cause : u.cause = s.cause
  env : u.env = s.env
  view : view u = view s

/-- A view that sees neither the trace nor the answers to come. -/
def Apart {γ : Type} (view : State → γ) : Prop := ∀ (s : State) (e : Env) (ev : Event),
  view ((s.withEnv e).emit ev) = view s

/-- Two runs that end alike, with the same value, or stop alike; both with the same events. -/
inductive Twin {α : Type} (Q : State → State → Prop) (s u : State) :
    EStateM.Result Halt State α → EStateM.Result Halt State α → Prop where
  | ended (a : α) (t v : State) (events : List Event) (trace : t.trace = s.trace ++ events)
      (trace' : v.trace = u.trace ++ events) (after : Q t v) :
      Twin Q s u (.ok a t) (.ok a v)
  | stopped (h : Halt) (t v : State) (events : List Event) (trace : t.trace = s.trace ++ events)
      (trace' : v.trace = u.trace ++ events) (after : Alike (fun _ => ()) t v) :
      Twin Q s u (.error h t) (.error h v)

/-- From states related by `R` an operation runs alike, to states related by `Q`. -/
def Twins {α : Type} (R Q : State → State → Prop) (x : Op α) : Prop :=
  ∀ s u, R s u → Twin Q s u (x s) (x u)

section Combinators

variable {α β γ δ : Type} {R Q S : State → State → Prop}

theorem twins_bind {x : Op α} {f : α → Op β} (hx : Twins R Q x) (hf : ∀ a, Twins Q S (f a)) :
    Twins R S (x >>= f) := by
  intro s u related
  have first := hx s u related
  cases run : x s <;> cases run' : x u <;> rw [run, run'] at first <;> cases first
  case ended a t v events trace trace' after =>
    rw [bind_of_ok run, bind_of_ok run']
    have second := hf a t v after
    cases run₂ : f a t <;> cases run₂' : f a v <;> rw [run₂, run₂'] at second <;> cases second
    case ended b t' v' events' more more' after' =>
      exact .ended b t' v' (events ++ events') (by rw [more, trace, List.append_assoc])
        (by rw [more', trace', List.append_assoc]) after'
    case stopped h t' v' events' more more' after' =>
      exact .stopped h t' v' (events ++ events') (by rw [more, trace, List.append_assoc])
        (by rw [more', trace', List.append_assoc]) after'
  case stopped h t v events trace trace' after =>
    rw [bind_of_error run, bind_of_error run']
    exact .stopped h t v events trace trace' after

theorem twins_pure (weaker : ∀ s u, R s u → Q s u) (a : α) : Twins R Q (pure a : Op α) :=
  fun s u related => .ended a s u [] (by simp) (by simp) (weaker s u related)

theorem twins_update {g : State → State} (silent : ∀ s, (g s).trace = s.trace)
    (same : ∀ s u, R s u → Q (g s) (g u)) : Twins R Q (update g) := fun s u related =>
  .ended () (g s) (g u) [] (by simp [silent]) (by simp [silent]) (same s u related)

/-- What is read of two related states leads to one operation. -/
theorem twins_current {f : State → Op α} (same : ∀ s u, R s u → f u = f s)
    (hf : ∀ s, Twins R Q (f s)) : Twins R Q (current >>= f) := by
  intro s u related
  rw [bind_current, bind_current, same s u related]
  exact hf s s u related

theorem twins_ite {c : Prop} [Decidable c] {x y : Op α} (hx : Twins R Q x) (hy : Twins R Q y) :
    Twins R Q (if c then x else y) := by
  split <;> assumption

theorem Twins.of_imp {x : Op α} (h : Twins R Q x) (weaker : ∀ s u, S s u → R s u) : Twins S Q x :=
  fun s u related => h s u (weaker s u related)

theorem Alike.imp {view : State → γ} {view' : State → δ} {s u : State} (h : Alike view s u)
    (seen : view u = view s → view' u = view' s) : Alike view' s u :=
  ⟨h.cfg, h.rst, h.fault, h.cause, h.env, seen h.view⟩

/-- A change of registers alone. -/
theorem twins_set {view : State → γ} {view' : State → δ} {g : State → State}
    (same : ∀ s, (g s).cfg = s.cfg ∧ (g s).rst = s.rst ∧ (g s).fault = s.fault ∧
      (g s).cause = s.cause ∧ (g s).env = s.env ∧ (g s).trace = s.trace)
    (seen : ∀ s u, view u = view s → view' (g u) = view' (g s)) :
    Twins (Alike view) (Alike view') (update g) := by
  refine twins_update (fun s => (same s).2.2.2.2.2) fun s u h => ?_
  obtain ⟨cfg, rst, fault, cause, env, -⟩ := same s
  obtain ⟨cfg', rst', fault', cause', env', -⟩ := same u
  exact ⟨cfg'.trans (h.cfg.trans cfg.symm), rst'.trans (h.rst.trans rst.symm),
    fault'.trans (h.fault.trans fault.symm), cause'.trans (h.cause.trans cause.symm),
    env'.trans (h.env.trans env.symm), seen s u h.view⟩

theorem twins_registerXfer {view : State → γ} (apart : Apart view) (tx : List Byte) :
    Twins (Alike view) (Alike view) (registerXfer tx) := by
  intro s u h
  by_cases high : s.rst = .high
  · rw [registerXfer_high high, registerXfer_high (h.rst.trans high)]
    have same : u.env.exchange tx = s.env.exchange tx := by rw [h.env]
    rcases xfer_cases tx s with ⟨rx, e, answer, run⟩ | ⟨e, answer, run⟩
    · have run' : xfer tx u = .ok rx ((u.withEnv e).emit (.bus tx rx)) := by
        rw [xfer, same, answer]
      rw [run, run']
      exact .ended rx _ _ [.bus tx rx] rfl rfl
        ⟨h.cfg, h.rst, h.fault, h.cause, rfl, by rw [apart, apart, h.view]⟩
    · have run' : xfer tx u = .error .fault ((u.withEnv e).enterFault .transportError) := by
        rw [xfer, same, answer]
      rw [run, run']
      exact .stopped .fault _ _ [] (by simp) (by simp) ⟨h.cfg, h.rst, rfl, rfl, rfl, rfl⟩
  · rw [registerXfer_low high, registerXfer_low fun high' => high (h.rst.symm.trans high')]
    exact .stopped .fault _ _ [] (by simp) (by simp) ⟨h.cfg, h.rst, rfl, rfl, h.env, rfl⟩

end Combinators

section Accesses

variable {γ : Type} {view : State → γ} (apart : Apart view)

include apart

theorem twins_writeReg (addr : Addr) (value : Byte) :
    Twins (Alike view) (Alike view) (writeReg addr value) :=
  twins_bind (twins_registerXfer apart _) fun _ => twins_pure (fun _ _ h => h) _

theorem twins_readReg (addr : Addr) : Twins (Alike view) (Alike view) (readReg addr) :=
  twins_bind (twins_registerXfer apart _) fun _ => twins_pure (fun _ _ h => h) _

theorem twins_setBits (addr : Addr) (mask : Byte) :
    Twins (Alike view) (Alike view) (setBits addr mask) :=
  twins_bind (twins_readReg apart _) fun _ => twins_writeReg apart _ _

theorem twins_clearBits (addr : Addr) (mask : Byte) :
    Twins (Alike view) (Alike view) (clearBits addr mask) :=
  twins_bind (twins_readReg apart _) fun _ => twins_writeReg apart _ _

end Accesses

/-! ### The views of the phases of TO_CARD: what later phases depend on -/

/-- What a command's start fixes, and the result it begins with (R152, R153). -/
def begunView (s : State) : (Byte × Byte × Byte) × Status × BitVec 12 × List Byte :=
  ((s.cmd, s.irqEn, s.waitIrq), s.status, s.bitlen, s.respBytes)

/-- Before the load: the send buffer too. -/
def armedView (s : State) : List Byte × (Byte × Byte × Byte) × Status × BitVec 12 × List Byte :=
  (s.txBytes, begunView s)

/-- After a poll read: the counter and the value read too. -/
def polledView (s : State) :
    BitVec 11 × Byte × (Byte × Byte × Byte) × Status × BitVec 12 × List Byte :=
  (s.cnt, s.irq, begunView s)

/-- While the lengths are read: the status and the level. -/
def levelView (s : State) : Status × Byte := (s.status, s.n)

/-- While the response is drained: the status, the bit length and the count. -/
def measuredView (s : State) : Status × BitVec 12 × BitVec 5 := (s.status, s.bitlen, s.m)

/-- A command's result (R173). -/
def resultView (s : State) : Status × BitVec 12 × List Byte := (s.status, s.bitlen, s.respBytes)

section Views

variable {s u : State}

theorem begunView_iff : begunView u = begunView s ↔ (u.cmd = s.cmd ∧ u.irqEn = s.irqEn ∧
    u.waitIrq = s.waitIrq) ∧ u.status = s.status ∧ u.bitlen = s.bitlen ∧
    u.respBytes = s.respBytes := by
  simp [begunView]

theorem result_of_begun (h : begunView u = begunView s) : resultView u = resultView s :=
  congrArg Prod.snd h

theorem begun_of_armed (h : armedView u = armedView s) : begunView u = begunView s :=
  congrArg Prod.snd h

theorem begun_of_polled (h : polledView u = polledView s) : begunView u = begunView s :=
  congrArg (fun v => v.2.2) h

end Views

/-- A change that leaves alone what every phase shares, and the trace. -/
theorem setPhase_same (p : Phase) (s : State) : (s.setPhase p).cfg = s.cfg ∧
    (s.setPhase p).rst = s.rst ∧ (s.setPhase p).fault = s.fault ∧ (s.setPhase p).cause = s.cause ∧
    (s.setPhase p).env = s.env ∧ (s.setPhase p).trace = s.trace := ⟨rfl, rfl, rfl, rfl, rfl, rfl⟩

theorem twins_toCardArm : Twins (Alike armedView) (Alike armedView) toCardArm := by
  have apart : Apart armedView := fun _ _ _ => rfl
  refine twins_bind (twins_set (setPhase_same _) fun _ _ h => h) fun _ =>
    twins_current (fun s u h => ?_) fun _ => twins_bind (twins_writeReg apart _ _) fun _ =>
      twins_bind (twins_clearBits apart _ _) fun _ => twins_bind (twins_setBits apart _ _) fun _ =>
        twins_writeReg apart _ _
  rw [h.cfg, (begunView_iff.mp (begun_of_armed h.view)).1.2.1]

theorem twins_loadBytes (bytes : List Byte) :
    Twins (Alike armedView) (Alike armedView) (loadBytes bytes) := by
  have apart : Apart armedView := fun _ _ _ => rfl
  induction bytes with
  | nil => exact twins_pure (fun _ _ h => h) ()
  | cons b rest ih =>
    refine twins_current (fun s u h => by rw [h.cfg]) fun _ =>
      twins_bind (twins_writeReg apart _ _) fun _ =>
        twins_bind (twins_set (fun _ => ⟨rfl, rfl, rfl, rfl, rfl, rfl⟩) fun _ _ h => h) fun _ => ih

theorem twins_toCardLoad : Twins (Alike armedView) (Alike armedView) toCardLoad :=
  twins_bind (twins_set (setPhase_same _) fun _ _ h => h) fun _ =>
    twins_bind (twins_set (fun _ => ⟨rfl, rfl, rfl, rfl, rfl, rfl⟩) fun _ _ h => h) fun _ =>
      twins_current (fun _ _ h => congrArg loadBytes (congrArg Prod.fst h.view)) fun _ =>
        twins_loadBytes _

theorem twins_toCardStart : Twins (Alike begunView) (Alike begunView) toCardStart := by
  have apart : Apart begunView := fun _ _ _ => rfl
  refine twins_bind (twins_set (setPhase_same _) fun _ _ h => h) fun _ =>
    twins_current (fun s u h => ?_) fun _ => twins_bind (twins_writeReg apart _ _) fun _ =>
      twins_ite (twins_setBits apart _ _) (twins_pure (fun _ _ h => h) ())
  rw [h.cfg, (begunView_iff.mp h.view).1.1]

/-- A poll read brings the counter and the value read together. -/
theorem twins_polled (v : Byte) (k : Nat) :
    Twins (Alike begunView) (Alike polledView) (update (·.polled v k)) :=
  twins_set (fun _ => ⟨rfl, rfl, rfl, rfl, rfl, rfl⟩) fun _ _ h =>
    congrArg (fun w => (BitVec.ofNat 11 k, v, w)) h

theorem twins_pollLoop (k : Nat) : Twins (Alike begunView) (Alike polledView) (pollLoop (k + 1)) := by
  have apart : Apart begunView := fun _ _ _ => rfl
  have weaker : ∀ s u, Alike polledView s u → Alike begunView s u := fun _ _ h => h.imp begun_of_polled
  induction k with
  | zero =>
    refine twins_current (fun s u h => ?_) fun _ => twins_bind (twins_readReg apart _) fun _ =>
      twins_bind (twins_polled _ _) fun _ => twins_ite (twins_pure (fun _ _ h => h) ())
        (twins_pure (fun _ _ h => h) ())
    rw [h.cfg, (begunView_iff.mp h.view).1.2.2]
  | succ k ih =>
    refine twins_current (fun s u h => ?_) fun _ => twins_bind (twins_readReg apart _) fun _ =>
      twins_bind (twins_polled _ _) fun _ => twins_ite (twins_pure (fun _ _ h => h) ())
        (ih.of_imp weaker)
    rw [h.cfg, (begunView_iff.mp h.view).1.2.2]

theorem twins_toCardPoll : Twins (Alike begunView) (Alike polledView) toCardPoll :=
  twins_bind (twins_set (setPhase_same _) fun _ _ h => h) fun _ =>
    twins_bind (twins_set (fun _ => ⟨rfl, rfl, rfl, rfl, rfl, rfl⟩) fun _ _ h => h) fun _ =>
      twins_pollLoop 1999

theorem twins_toCardStop : Twins (Alike polledView) (Alike polledView) toCardStop :=
  twins_bind (twins_set (setPhase_same _) fun _ _ h => h) fun _ =>
    twins_current (fun s u h => by rw [h.cfg]) fun _ =>
      twins_clearBits (view := polledView) (fun _ _ _ => rfl) _ _

/-- Two states whose drains make the same number of reads. -/
def Measured (s u : State) : Prop := Alike measuredView s u ∧ s.m.toNat ≤ 16

theorem drainCount_register_le (n : Byte) : (BitVec.ofNat 5 (drainCount n)).toNat ≤ 16 := by
  rw [drainCount_eq_max_min, BitVec.toNat_ofNat]
  omega

theorem twins_toCardLen : Twins (Alike begunView) Measured toCardLen := by
  refine twins_bind (twins_set (setPhase_same _) fun _ _ h => h) fun _ =>
    twins_current (fun s u h => by rw [h.cfg]) fun _ =>
      twins_bind (twins_readReg (view := begunView) (fun _ _ _ => rfl) _) fun level =>
        twins_bind (twins_set (view' := levelView) (fun _ => ⟨rfl, rfl, rfl, rfl, rfl, rfl⟩)
          fun s u h => congrArg (·, level) (begunView_iff.mp h).2.1) fun _ =>
          twins_bind (twins_readReg (view := levelView) (fun _ _ _ => rfl) _) fun control =>
            twins_update (fun _ => rfl) fun s u h => ?_
  have status : u.status = s.status := congrArg Prod.fst h.view
  have level : u.n = s.n := congrArg Prod.snd h.view
  refine ⟨⟨h.cfg, h.rst, h.fault, h.cause, h.env, ?_⟩, drainCount_register_le s.n⟩
  simp [measuredView, status, level, State.measure]

theorem twins_drainBytes (k : Nat) :
    Twins (Alike measuredView) (Alike measuredView) (drainBytes k) := by
  induction k with
  | zero => exact twins_pure (fun _ _ h => h) ()
  | succ k ih =>
    exact twins_current (fun s u h => by rw [h.cfg]) fun _ =>
      twins_bind (twins_readReg (view := measuredView) (fun _ _ _ => rfl) _) fun _ =>
        twins_bind (twins_set (fun _ => ⟨rfl, rfl, rfl, rfl, rfl, rfl⟩) fun _ _ h => h) fun _ => ih

/-- The reads of the two drains are the same, and their bytes are the response. -/
theorem twins_toCardDrain : Twins Measured (Alike resultView) toCardDrain := by
  have reads : Twins (Alike measuredView) (Alike measuredView) toCardDrain :=
    twins_bind (twins_set (setPhase_same _) fun _ _ h => h) fun _ =>
      twins_bind (twins_set (fun _ => ⟨rfl, rfl, rfl, rfl, rfl, rfl⟩) fun _ _ h => h) fun _ =>
        twins_current (fun s u h => by rw [show u.m = s.m from congrArg (fun v => v.2.2) h.view])
          fun _ => twins_bind (twins_drainBytes _) fun _ =>
            twins_set (fun _ => ⟨rfl, rfl, rfl, rfl, rfl, rfl⟩) fun _ _ h => h
  rintro s u ⟨alike, fits⟩
  have twin := reads s u alike
  have fits' : u.m.toNat ≤ 16 := by rwa [show u.m = s.m from congrArg (fun v => v.2.2) alike.view]
  cases run : toCardDrain s <;> cases run' : toCardDrain u <;> rw [run, run'] at twin <;> cases twin
  case stopped h t v events trace trace' after => exact .stopped h t v events trace trace' after
  case ended a t v events trace trace' after =>
    obtain ⟨rs, e, count, rfl⟩ := toCardDrain_ok run fits
    obtain ⟨rs', e', count', rfl⟩ := toCardDrain_ok run' fits'
    refine .ended a _ _ events trace trace' (after.imp fun seen => ?_)
    have sent : events = rs.map fun r => .bus (readFrame s.cfg.aFifoData) r :=
      (List.append_cancel_left trace).symm
    have sent' : events = rs'.map fun r => .bus (readFrame u.cfg.aFifoData) r :=
      (List.append_cancel_left trace').symm
    have same : rs' = rs := by
      rw [alike.cfg, sent] at sent'
      exact (List.map_injective_iff.mpr (fun _ _ h => (Event.bus.inj h).2) sent').symm
    have resp : (u.drained rs').respBytes = (s.drained rs).respBytes := by
      rw [respBytes_drained u rs' (by omega), respBytes_drained s rs (by omega), same]
    exact congrArg₂ Prod.mk (congrArg Prod.fst seen)
      (congrArg₂ Prod.mk (congrArg (fun v => v.2.1) seen) resp)

/-- The same cause recorded in both. -/
theorem twins_setCause (c : Cause) :
    Twins (Alike begunView) (Alike resultView) (update (·.setCause c)) :=
  twins_update (fun _ => rfl) fun _ _ h =>
    ⟨h.cfg, h.rst, h.fault, rfl, h.env, result_of_begun h.view⟩

theorem twins_judgeClear : Twins (Alike polledView) (Alike begunView) (update (·.judgeClear)) := by
  refine twins_update (fun s => ?_) fun s u h => ?_
  · unfold State.judgeClear
    split <;> rfl
  · have irq : u.irq = s.irq := congrArg (fun v => v.2.1) h.view
    obtain ⟨⟨cmd, en, wait⟩, status, bitlen, resp⟩ := begunView_iff.mp (begun_of_polled h.view)
    unfold State.judgeClear
    rw [irq, en]
    split
    · exact ⟨h.cfg, h.rst, h.fault, rfl, h.env,
        begunView_iff.mpr ⟨⟨cmd, en, wait⟩, rfl, bitlen, resp⟩⟩
    · exact ⟨h.cfg, h.rst, h.fault, h.cause, h.env,
        begunView_iff.mpr ⟨⟨cmd, en, wait⟩, rfl, bitlen, resp⟩⟩

theorem twins_toCardClear : Twins (Alike polledView) (Alike resultView) toCardClear := by
  refine twins_bind twins_judgeClear fun _ => twins_current (fun s u h => ?_) fun _ =>
    twins_ite (twins_bind twins_toCardLen fun _ => twins_toCardDrain)
      (twins_pure (fun _ _ h => h.imp result_of_begun) ())
  rw [h.cfg, (begunView_iff.mp h.view).1.1]

theorem twins_toCardCheck : Twins (Alike polledView) (Alike resultView) toCardCheck := by
  have begun : ∀ s u, Alike polledView s u → Alike begunView s u := fun _ _ h => h.imp begun_of_polled
  refine twins_bind (twins_set (setPhase_same _) fun _ _ h => h) fun _ =>
    twins_current (fun s u h => ?_) fun _ => twins_ite ((twins_setCause _).of_imp begun) <|
      twins_bind (twins_readReg (view := polledView) (fun _ _ _ => rfl) _) fun _ =>
        twins_bind (twins_set (fun _ => ⟨rfl, rfl, rfl, rfl, rfl, rfl⟩) fun _ _ h => h) fun _ =>
          twins_ite twins_toCardClear ((twins_setCause _).of_imp begun)
  rw [h.cfg, show u.cnt = s.cnt from congrArg Prod.fst h.view]

/-- The eight steps, from states that agree on the send buffer (R152 to R173). -/
theorem twins_runCommand (c : Byte) : Twins (fun s u => u.cfg = s.cfg ∧ u.rst = s.rst ∧
    u.fault = s.fault ∧ u.env = s.env ∧ u.txBytes = s.txBytes) (Alike resultView) (runCommand c) := by
  refine twins_bind (twins_update (Q := Alike armedView) (fun _ => rfl) ?_) fun _ =>
    twins_bind twins_toCardArm fun _ =>
    twins_bind twins_toCardLoad fun _ =>
    twins_bind (twins_toCardStart.of_imp fun _ _ h => h.imp begun_of_armed) fun _ =>
    twins_bind twins_toCardPoll fun _ =>
    twins_bind twins_toCardStop fun _ =>
    twins_bind twins_toCardCheck fun _ =>
    twins_bind (twins_set (setPhase_same _) fun _ _ h => h) fun _ =>
      twins_set (setPhase_same _) fun _ _ h => h
  rintro s u ⟨cfg, rst, fault, env, bytes⟩
  refine ⟨cfg, rst, fault, rfl, env, ?_⟩
  have none (w : State) : (w.beginCommand c).respBytes = [] := rfl
  have masks : begunView (u.beginCommand c) = begunView (s.beginCommand c) :=
    begunView_iff.mpr ⟨⟨rfl, by simp [cfg], by simp [cfg]⟩, rfl, rfl, rfl⟩
  exact congrArg₂ Prod.mk bytes masks

theorem twins_toCard (c : Byte) {tx : List Byte} (fits : tx.length ≤ 16) :
    Twins (fun s u => u.cfg = s.cfg ∧ u.rst = s.rst ∧ u.fault = s.fault ∧ u.env = s.env)
      (Alike resultView) (toCard c tx) := by
  refine twins_bind (twins_update (fun _ => rfl) fun s u ⟨cfg, rst, fault, env⟩ => ?_) fun _ =>
    twins_runCommand c
  exact ⟨cfg, rst, fault, env, (txBytes_loadTx u tx fits).trans (txBytes_loadTx s tx fits).symm⟩

/-- Settles O37: two runs of the same TO_CARD are twins from its first step on. -/
theorem commandKeepsNothingBetween : Obligations.CommandKeepsNothingBetween := by
  intro s u t v cmd tx admitted fits cfg opened rst fault env run run'
  have wf (p : Params) : (Instr.toCard cmd tx).wellFormed p = true := by simpa [Instr.wellFormed]
  have admitted' : u.Admitted := ⟨fault.trans admitted.1, opened.trans admitted.2⟩
  rw [exec_of_run (denialOf_admitted admitted (ne_init (.inr rfl)) (wf s.cfg))] at run
  rw [exec_of_run (denialOf_admitted admitted' (ne_init (.inr rfl)) (wf u.cfg))] at run'
  cases run
  cases run'
  have result : Twins (Alike resultView) (Alike resultView) commandResult :=
    twins_current (fun s u h => by
      obtain ⟨status, bitlen, resp⟩ : u.status = s.status ∧ u.bitlen = s.bitlen ∧
        u.respBytes = s.respBytes := by simpa [resultView] using h.view
      rw [status, bitlen, resp]) fun _ => twins_pure (fun _ _ h => h) _
  have twin : Twin (Alike resultView) s u (operationOf s.cfg (.toCard cmd tx) s)
      (operationOf u.cfg (.toCard cmd tx) u) :=
    twins_bind (twins_toCard cmd fits) (fun _ => result) s u ⟨cfg, rst, fault, env⟩
  cases first : operationOf s.cfg (.toCard cmd tx) s <;>
    cases second : operationOf u.cfg (.toCard cmd tx) u <;> rw [first, second] at twin <;> cases twin
  case ended r t v events trace trace' after =>
    obtain ⟨status, bitlen, resp⟩ : v.status = t.status ∧ v.bitlen = t.bitlen ∧
      v.respBytes = t.respBytes := by simpa [resultView] using after.view
    exact ⟨rfl, after.cause, after.fault, after.env, fun _ => ⟨status, resp, bitlen⟩, events, trace,
      trace'⟩
  case stopped h t v events trace trace' after =>
    obtain ⟨rfl, faulted, -⟩ := stops_operationOf s.cfg (.toCard cmd tx) first
    exact ⟨congrArg Ret.faulted after.cause, after.cause, after.fault, after.env,
      fun outside => absurd (outside.symm.trans faulted) (by simp), events, trace, trace'⟩

end Sys2Proof.Machine
end
